-- ==== Sys2Proof/Word.lean ====
section
/-! DEFINITION. The word types of the block and the four operand widths (spec/00_scope.md R6, R7). -/

namespace Sys2Proof

/-- One byte of `MEM` or of the keystream buffer. -/
abbrev Byte := BitVec 8
/-- One IDEA subkey or sub-block word (10_state.md R29). -/
abbrev Word16 := BitVec 16
/-- One command word, or one WiderWake word (30_encoding.md R70, 10_state.md R31). -/
abbrev Word32 := BitVec 32
/-- One general, status or counter register (10_state.md R21, R23, R26). -/
abbrev Word64 := BitVec 64

/-- The 52 subkeys of one IDEA direction (10_state.md R29, R30). -/
abbrev SubkeyTable := Vector Word16 52
/-- The WiderWake table `T[0..255]` (10_state.md R31). -/
abbrev WakeTable := Vector Word32 256
/-- The WiderWake `state[0..4]` (10_state.md R32). -/
abbrev WakeState := Vector Word32 5
/-- The WiderWake `t_key[0..3]` (10_state.md R33). -/
abbrev WakeKey := Vector Word32 4

/-- A register number `0 .. 7` (30_encoding.md R71). -/
abbrev Reg := Fin 8

/-- The operand widths `W` in {8, 16, 32, 64} (30_encoding.md R73). -/
inductive Width where
  | w8 | w16 | w32 | w64
  deriving DecidableEq, Repr

end Sys2Proof
end

