-- ==== Sys2Proof/Config.lean ====
section
/-! DEFINITION. The parameters of the block (spec/00_scope.md R6, spec/10_state.md R39,
spec/92_eei_decisions.md "Open parameters"): every meaning takes a `Config`.
The default instantiation, which the core uses, is `Config.std` in Machine/WakeDefault.lean.
Keys, IVs and blocks are the big-endian integers of their bytes (DEDUCED, notes/assumptions/7.md). -/

namespace Sys2Proof

/-- The six named parameters. -/
structure Config where
  /-- `MEM_SIZE`, bytes of local memory (20_memory.md R50). -/
  memSize : Nat
  /-- `WW_BUF_LEN`, bytes of the keystream buffer (46_widerwake.md R171). -/
  bufLen : Nat
  /-- `WW_TKEY : key[16 bytes] -> t_key[4 words]` (R172). -/
  wwTkey : BitVec 128 → WakeKey
  /-- `WW_TABLEGEN : key[16 bytes] -> T[256 words]` (R173). -/
  wwTablegen : BitVec 128 → WakeTable
  /-- `WW_IVSETUP : (t_key, iv[8 bytes], T) -> state` (R174). -/
  wwIvsetup : WakeKey → BitVec 64 → WakeTable → WakeState
  /-- `WW_MIX : (state, t_key, T) -> (word, state')` (R175). -/
  wwMix : WakeState → WakeKey → WakeTable → Word32 × WakeState

/-- Default of `MEM_SIZE` (00_scope.md R6). -/
def Config.defaultMemSize : Nat := 65536
/-- Default of `WW_BUF_LEN` (00_scope.md R6, 46_widerwake.md R171). -/
def Config.defaultBufLen : Nat := 4096

/-- The key length both ciphers require, in bytes (00_scope.md R6). -/
def keyLength : Word64 := 16
/-- The IV length of WiderWake, in bytes (00_scope.md R6). -/
def ivLength : Word64 := 8
/-- The identification strings of the two ciphers (00_scope.md R2); no command returns them. -/
def ideaIdentification : String := "IDEA"
def wakeIdentification : String := "WiderWake4+1-BE"

end Sys2Proof
end

