-- ==== Sys2Proof/Syntax.lean ====
section
/-! DEFINITION. The 31 commands of spec/opcode_table.json, one constructor per row, operands in the
order of the assembly syntax (spec/30_encoding.md R75), and the moves of the host
(spec/70_reset_and_hazards.md R240). -/

namespace Sys2Proof

/-- The commands (30_encoding.md R75). -/
inductive Instr where
  | nop
  | ldi (rd : Reg) (imm : Word16)
  | ldis (rd : Reg) (imm : Word16)
  | ld (w : Width) (rd ra : Reg)
  | st (w : Width) (rs ra : Reg)
  | clrerr
  | expmask (w : Width) (rd rs : Reg)
  | exptop (w : Width) (rd rs : Reg)
  | iszero (w : Width) (rd rs : Reg)
  | iseq (w : Width) (rd ra rb : Reg)
  | islt (w : Width) (rd ra rb : Reg)
  | islte (w : Width) (rd ra rb : Reg)
  | sel (w : Width) (rd rm rt rf : Reg)
  | sel2 (w : Width) (rd rm0 rv0 rm1 rv1 ro : Reg)
  | sel3 (w : Width) (rd rm0 rv0 rm1 rv1 rm2 rv2 ro : Reg)
  | ccopy (w : Width) (rc rto rf0 rf1 rn : Reg)
  | czero (w : Width) (rc ra rn : Reg)
  | striplz (rd rl ra rn : Reg)
  | poison (ra rn : Reg)
  | unpoison (ra rn : Reg)
  | ideaks (ra rn : Reg)
  | ideaenc (ri ro rn : Reg)
  | ideadec (ri ro rn : Reg)
  | ideaclr
  | wwks (ra rn : Reg)
  | wwsiv (ra rn : Reg)
  | wwgen
  | wwmix (rd : Reg)
  | wwciph (ri ro rn : Reg)
  | wwclr
  | wwviv (rd rs : Reg)
  deriving DecidableEq, Repr

/-- What the host can do to the block (70_reset_and_hazards.md R240): present a command word, write a
general register, write a byte of `MEM`, assert reset. It has no move that writes `STATUS`, `EPC`,
`EINFO`, `pc` or a cipher context; its reads change nothing and are functions of the state. -/
inductive HostMove where
  | command (c : Word32)
  | writeReg (r : Reg) (v : Word64)
  | writeMem (a : Nat) (b : Byte)
  | reset
  deriving DecidableEq, Repr

end Sys2Proof
end

