-- ==== Sys2Proof/Machine/State.lean ====
section
/-! DEFINITION. The architectural state (spec/10_state.md R20), its reset value (R42), and the reasons a
step can stop. -/

namespace Sys2Proof.Machine

/-- `MEM` as address and byte pairs in canonical form: addresses strictly rising, no zero byte listed;
an unlisted address reads as 0, the reset value of every byte (10_state.md R42, 20_memory.md R51). -/
abbrev Memory := List Host.Cell

/-- The IDEA context (10_state.md R29, R30). -/
structure IdeaContext where
  /-- `EK[0..51]`, encryption subkeys -/
  ek : SubkeyTable
  /-- `DK[0..51]`, decryption subkeys -/
  dk : SubkeyTable
  deriving DecidableEq, Repr

/-- The WiderWake context (10_state.md R31 to R35). -/
structure WakeContext where
  /-- `T[0..255]` -/
  table : WakeTable
  /-- `state[0..4]` -/
  state : WakeState
  /-- `t_key[0..3]` -/
  tKey : WakeKey
  /-- `buffer[0..WW_BUF_LEN-1]` -/
  buffer : List Byte
  /-- `position`, in `0 .. WW_BUF_LEN` -/
  position : Nat
  deriving DecidableEq, Repr

/-- All the state there is (10_state.md R20), and the host's moves not yet taken. -/
structure State where
  /-- `x[0..7]` (R21) -/
  x : Vector Word64 8
  /-- count of accepted commands (R23) -/
  pc : Word64
  /-- `STATUS` (R26), fields in Flags.lean -/
  status : Word64
  /-- `EPC` (R27) -/
  epc : Word64
  /-- `EINFO` (R28) -/
  einfo : Word64
  /-- the IDEA context (R29, R30) -/
  idea : IdeaContext
  /-- the WiderWake context (R31 to R35) -/
  ww : WakeContext
  /-- `MEM` (R38) -/
  mem : Memory
  /-- the model's own input, no state of the block: the host's moves not yet taken, oldest first
  (10_state.md R39, 70_reset_and_hazards.md R240, R242; DESIGN CHOICE, notes/assumptions/2.md) -/
  host : List HostMove
  deriving DecidableEq, Repr

/-- Why the machine could stop with a fault. -/
inductive Fault where
  /-- The block stops accepting commands. Raised by nothing: 60_exceptions.md R210, "no command can make
  it stuck". It stands here so that R210 can be stated (DEDUCED, notes/assumptions/10.md). Safe. -/
  | stuck
  deriving DecidableEq, Repr

/-- Why a step can have no meaning. -/
inductive Refusal where
  /-- Answered by an arm of `exec` whose command has no meaning yet; no arm does. Safe. -/
  | notModelled (mnemonic : String)
  /-- Answered by the step for a host write at an address outside `0 .. MEM_SIZE-1`, which is "not a move
  the host has" (20_memory.md R67, 93_implementation_defined.md U11; DESIGN CHOICE, notes/assumptions/5.md). Safe. -/
  | hostAddressOutsideMem
  deriving DecidableEq, Repr

/-- The outcome of a command or a step. -/
abbrev Result := Host.Outcome State Fault Refusal

/-- The IDEA context after reset and after `IDEACLR` (10_state.md R37, R42). -/
def IdeaContext.zero : IdeaContext :=
  { ek := Vector.replicate 52 0, dk := Vector.replicate 52 0 }

/-- The WiderWake context after reset and after `WWCLR`, for a buffer of `bufLen` bytes (R42). -/
def WakeContext.zero (bufLen : Nat) : WakeContext :=
  { table := Vector.replicate 256 0, state := Vector.replicate 5 0, tKey := Vector.replicate 4 0,
    buffer := List.replicate bufLen 0, position := 0 }

/-- After reset every piece of state is zero (10_state.md R42, 70_reset_and_hazards.md R230). -/
def State.resetFor (bufLen : Nat) : State :=
  { x := Vector.replicate 8 0, pc := 0, status := 0, epc := 0, einfo := 0,
    idea := IdeaContext.zero, ww := WakeContext.zero bufLen, mem := [], host := [] }

/-- The core right after reset, no host move waiting. -/
def State.reset : State := State.resetFor Config.defaultBufLen

end Sys2Proof.Machine
end

