-- ==== Sys2Proof/Machine/Flags.lean ====
section
/-! DEFINITION. The fields of `STATUS` (spec/10_state.md R26). The block has no condition codes (R25):
these are the only status bits, and no command's result depends on them. -/

namespace Sys2Proof.Machine

/-- The four errors (60_exceptions.md R200). -/
inductive ErrCode where
  | invalidKeyLength
  | invalidIvLength
  | illegalCommand
  | accessFault
  deriving DecidableEq, Repr

/-- The number of an error in `STATUS.ERR` (60_exceptions.md R200). -/
def errNumber : ErrCode → BitVec 3
  | .invalidKeyLength => 1
  | .invalidIvLength => 2
  | .illegalCommand => 3
  | .accessFault => 4

/-- `STATUS.ERR`, bits 2:0 (R26). -/
def statusErr (st : Word64) : BitVec 3 := st.extractLsb' 0 3
/-- `STATUS.IDEA_KEYED`, bit 8 (R26). -/
def statusIdeaKeyed (st : Word64) : Bool := st.getLsbD 8
/-- `STATUS.WW_KEYED`, bit 9 (R26). -/
def statusWwKeyed (st : Word64) : Bool := st.getLsbD 9
/-- `STATUS.WW_IVSET`, bit 10 (R26). -/
def statusWwIvset (st : Word64) : Bool := st.getLsbD 10

/-- `STATUS.ERR <- e`; every other bit stays. -/
def setStatusErr (st : Word64) (e : BitVec 3) : Word64 := (st &&& ~~~ 7#64) ||| e.setWidth 64

/-- Write one bit of `STATUS`; every other bit stays. -/
def setStatusBit (st : Word64) (k : Nat) (b : Bool) : Word64 :=
  if b then st ||| BitVec.twoPow 64 k else st &&& ~~~ (BitVec.twoPow 64 k)

/-- `STATUS.IDEA_KEYED <- b`. -/
def setIdeaKeyed (st : Word64) (b : Bool) : Word64 := setStatusBit st 8 b
/-- `STATUS.WW_KEYED <- b`. -/
def setWwKeyed (st : Word64) (b : Bool) : Word64 := setStatusBit st 9 b
/-- `STATUS.WW_IVSET <- b`. -/
def setWwIvset (st : Word64) (b : Bool) : Word64 := setStatusBit st 10 b

/-- The bits of `STATUS` that are never written and read 0: 7:3 and 63:11 (R26, 93 U10). -/
def statusReserved : Word64 := 0xFFFFFFFFFFFFF8F8

end Sys2Proof.Machine
end

