-- ==== Sys2Proof/Machine/Kernel.lean ====
section
/-! DEFINITION. The pure functions of the constant-time kernel on `W`-bit values (spec/00_scope.md R10),
by the formulas of spec/41_constant_time_mask_gen.md, 42_branchless_compare.md and
43_branchless_select.md, and the one ascending loop every command uses. -/

namespace Sys2Proof.Machine

/-- `expand_mask_W`: the contract is what is normative (41 R101). -/
def expandMask {n : Nat} (v : BitVec n) : BitVec n := if v = 0#n then 0#n else BitVec.allOnes n

/-- `expand_top_bit_W` (41 R102). -/
def expandTopBit {n : Nat} (v : BitVec n) : BitVec n := if v.msb then BitVec.allOnes n else 0#n

/-- `is_zero_W(v) = ~_W expand_mask_W(v)` (41 R103). -/
def isZeroMask {n : Nat} (v : BitVec n) : BitVec n := ~~~ expandMask v

/-- `is_equal_W(a, b) = is_zero_W(a ^ b)` (42 R111). -/
def isEqualMask {n : Nat} (a b : BitVec n) : BitVec n := isZeroMask (a ^^^ b)

/-- `is_less_W(a, b) = expand_top_bit_W(a ^ ((a ^ b) | ((a -_W b) ^ a)))` (42 R112). -/
def isLessMask {n : Nat} (a b : BitVec n) : BitVec n :=
  expandTopBit (a ^^^ ((a ^^^ b) ||| ((a - b) ^^^ a)))

/-- `is_lte_W(a, b) = is_less_W(a, b) | is_equal_W(a, b)` (42 R113). -/
def isLteMask {n : Nat} (a b : BitVec n) : BitVec n := isLessMask a b ||| isEqualMask a b

/-- `select_W(m, t, f) = f ^ (m & (t ^ f))` for every mask, proper or not (43 R121, R124). -/
def selectMask {n : Nat} (m t f : BitVec n) : BitVec n := f ^^^ (m &&& (t ^^^ f))

/-- A Mask of width `W`: all zeros or all ones (00_scope.md R9). -/
def ProperMask {n : Nat} (m : BitVec n) : Prop := m = 0#n ∨ m = BitVec.allOnes n

/-- `r <- r | (r << i)` for each `i` of the list in turn (the fold of 41 R101). -/
def foldUp {n : Nat} : List Nat → BitVec n → BitVec n
  | [], r => r
  | i :: is, r => foldUp is (r ||| (r <<< i))

/-- The shifts `1, 2, 4, ..., W/2` of the fold (41 R101). -/
def foldShifts : Width → List Nat
  | .w8 => [1, 2, 4]
  | .w16 => [1, 2, 4, 8]
  | .w32 => [1, 2, 4, 8, 16]
  | .w64 => [1, 2, 4, 8, 16, 32]

/-- `for j in i .. i+n-1: s <- f j s`, in ascending order. -/
def loopUp {σ : Type} (f : Nat → σ → σ) : Nat → Nat → σ → σ
  | _, 0, s => s
  | i, n + 1, s => loopUp f (i + 1) n (f i s)

end Sys2Proof.Machine
end

