-- ==== Sys2Proof/Machine/WakeDefault.lean ====
section
/-! DEFINITION. The default instantiation of the four WiderWake parameters (spec/46_widerwake.md R172 to
R175) and the default configuration. The arithmetic is the spec's from general knowledge and no source
vector validates it (PRESUMED, notes/assumptions/9.md); claims about WiderWake quantify over `Config`. -/

namespace Sys2Proof.Machine

/-- `T[i]`; every index below is less than 256 where it is used. -/
def tableGet (T : WakeTable) (i : Nat) : Word32 := T.get (Fin.ofNat 256 i)

/-- `T[i] <- v`. -/
def tableSet (T : WakeTable) (i : Nat) (v : Word32) : WakeTable :=
  let j := Fin.ofNat 256 i
  T.set j.val v j.isLt

/-- `M(x, y) = ((x +_32 y) >> 8) ^ T[(x +_32 y) & 0xFF]` (R175). -/
def wakeM (T : WakeTable) (x y : Word32) : Word32 :=
  let s := x + y
  (s >>> 8) ^^^ tableGet T (s &&& 0xFF#32).toNat

/-- Default `WW_MIX`: the word is the old `S3`; `t_key` is not used (R175, 90_conflicts.md C4). -/
def wakeMix (S : WakeState) (_ : WakeKey) (T : WakeTable) : Word32 × WakeState :=
  (S[3], #v[wakeM T S[4] S[3], wakeM T S[1] S[0], wakeM T S[2] S[1], wakeM T S[3] S[2], S[0]])

/-- Default `WW_TKEY`: the key as four big-endian words (R172). -/
def wakeTkey (key : BitVec 128) : WakeKey :=
  #v[key.extractLsb' 96 32, key.extractLsb' 64 32, key.extractLsb' 32 32, key.extractLsb' 0 32]

/-- `MAGIC[0..7]` (R173). -/
def wakeMagic : Vector Word32 8 :=
  #v[0x726A8F3B, 0xE69A3B5C, 0xD3C71FE5, 0xAB3C73D2, 0x4D3A8EB3, 0x0396D6E8, 0x3D4C2F7A, 0x9EE27CF3]

/-- Stage 1 of the table generation: seed and expand (R173). -/
def wakeSeed (key : BitVec 128) : WakeTable :=
  let k := wakeTkey key
  let T0 := loopUp (fun j T => tableSet T j (k.get (Fin.ofNat 4 j))) 0 4 (Vector.replicate 256 0)
  loopUp (fun j T =>
      let X := tableGet T (j - 1) + tableGet T (j - 4)
      tableSet T j ((X >>> 3) ^^^ wakeMagic.get (Fin.ofNat 8 (X &&& 7#32).toNat)))
    4 252 T0

/-- Stage 2: fold (R173). -/
def wakeFold (T : WakeTable) : WakeTable :=
  loopUp (fun j T => tableSet T j (tableGet T j + tableGet T (j + 89))) 0 23 T

/-- Stage 3: force the top bytes to be a permutation; the running `X` goes on to stage 4 (R173). -/
def wakeTop (T : WakeTable) : Word32 × WakeTable :=
  let Z := (tableGet T 59 ||| 0x01000001#32) &&& 0xFF7FFFFF#32
  loopUp (fun j p =>
      let X := (p.1 &&& 0xFF7FFFFF#32) + Z
      (X, tableSet p.2 j ((tableGet p.2 j &&& 0x00FFFFFF#32) ^^^ X)))
    0 256 (tableGet T 33, T)

/-- Stage 4: shuffle (R173). -/
def wakeShuffle (X : Word32) (T : WakeTable) : WakeTable :=
  let X0 := ((tableGet T (X &&& 0xFF#32).toNat ^^^ X) &&& 0xFF#32).toNat
  let Z := tableGet T 0
  let p := loopUp (fun j p =>
      let T1 := tableSet p.2 p.1 (tableGet p.2 j)
      let X1 := ((tableGet T1 (j ^^^ p.1) ^^^ BitVec.ofNat 32 p.1) &&& 0xFF#32).toNat
      (X1, tableSet T1 j (tableGet T1 X1)))
    1 255 (X0, tableSet T 0 (tableGet T X0))
  tableSet p.2 p.1 Z

/-- Default `WW_TABLEGEN` (R173). -/
def wakeTablegen (key : BitVec 128) : WakeTable :=
  let p := wakeTop (wakeFold (wakeSeed key))
  wakeShuffle p.1 p.2

/-- Default `WW_IVSETUP`: seed `state` and discard 8 words (R174). -/
def wakeIvsetup (k : WakeKey) (iv : BitVec 64) (T : WakeTable) : WakeState :=
  let iv0 := iv.extractLsb' 32 32
  let iv1 := iv.extractLsb' 0 32
  loopUp (fun _ s => (wakeMix s k T).2) 0 8 #v[k[0] ^^^ iv0, k[1], k[2] ^^^ iv1, k[3], iv0]

end Sys2Proof.Machine

/-- The default parameters (00_scope.md R6); the core uses them (DESIGN CHOICE, notes/assumptions/1.md). -/
def Sys2Proof.Config.std : Sys2Proof.Config :=
  { memSize := Sys2Proof.Config.defaultMemSize
    bufLen := Sys2Proof.Config.defaultBufLen
    wwTkey := Sys2Proof.Machine.wakeTkey
    wwTablegen := Sys2Proof.Machine.wakeTablegen
    wwIvsetup := Sys2Proof.Machine.wakeIvsetup
    wwMix := Sys2Proof.Machine.wakeMix }
end

