-- ==== Sys2Proof/WellFormed.lean ====
section
/-! DEFINITION. Well-formedness checks. A command has none beyond its types: a register field is 3 bits
and names `x0 .. x7`, a width is one of four, an immediate is 16 bits (spec/30_encoding.md R71 to R74).
The parameters and the host's moves have checks. -/

namespace Sys2Proof

/-- Every term of `Instr` is a command: its types admit exactly the operands of 30_encoding.md R71. -/
def Instr.wf (_ : Instr) : Bool := true

/-- `MEM_SIZE` from 64 to 2^32 (20_memory.md R50, 00_scope.md R6). -/
def Config.memSizeOk (cfg : Config) : Bool := 64 ≤ cfg.memSize && cfg.memSize ≤ 2 ^ 32

/-- `WW_BUF_LEN` a positive multiple of 4 (46_widerwake.md R171). -/
def Config.bufLenOk (cfg : Config) : Bool := 0 < cfg.bufLen && cfg.bufLen % 4 == 0

/-- The constraints of 92_eei_decisions.md "Open parameters"; the four functions are total by type. -/
def Config.wf (cfg : Config) : Bool := cfg.memSizeOk && cfg.bufLenOk

/-- A host access outside `0 .. MEM_SIZE-1` is not a move the host has (20_memory.md R67). -/
def HostMove.wf (cfg : Config) : HostMove → Bool
  | .command _ => true
  | .writeReg _ _ => true
  | .writeMem a _ => a < cfg.memSize
  | .reset => true

end Sys2Proof
end

