-- ==== Sys2Proof/Machine/Ops.lean ====
section
/-! DEFINITION. The named operations over memory, registers and the error record that every command uses
(spec/00_scope.md R8, spec/20_memory.md R50 to R56, spec/60_exceptions.md R203). -/

namespace Sys2Proof.Machine

/-! ### Memory -/

/-- `MEM[a]`; an unlisted address reads as 0 (20_memory.md R51). -/
def memGet : Memory → Nat → Byte
  | [], _ => 0
  | (k, v) :: rest, a => if a = k then v else memGet rest a

/-- Put a nonzero byte in its place in the rising list. -/
def memInsert : Memory → Nat → Byte → Memory
  | [], a, b => [(a, b)]
  | (k, v) :: rest, a, b =>
    if a < k then (a, b) :: (k, v) :: rest
    else if a = k then (a, b) :: rest
    else (k, v) :: memInsert rest a b

/-- `MEM[a] <- b`; writing 0, what an unlisted address reads as, removes the entry. -/
def memSet (m : Memory) (a : Nat) (b : Byte) : Memory :=
  if b = 0 then m.filter (fun c => c.1 != a) else memInsert m a b

/-- `MemRead(a, n)`: the bytes at `a, a+1, ..., a+n-1`, lowest address first (20_memory.md R52). -/
def memRead (m : Memory) : Nat → Nat → List Byte
  | _, 0 => []
  | a, n + 1 => memGet m a :: memRead m (a + 1) n

/-- `MemWrite(a, n, b)`: the bytes to `a, a+1, ...`, lowest address first (20_memory.md R52). -/
def memWrite : Memory → Nat → List Byte → Memory
  | m, _, [] => m
  | m, a, b :: bs => memWrite (memSet m a b) (a + 1) bs

/-- The canonical form of a memory: addresses strictly rising, no zero byte listed. -/
def Memory.wf : Memory → Bool
  | [] => true
  | [(_, v)] => v != 0
  | (k, v) :: (k', v') :: rest => v != 0 && k < k' && Memory.wf ((k', v') :: rest)

/-- Every listed address names a byte of `MEM` (20_memory.md R50). -/
def memInside (size : Nat) (m : Memory) : Bool := m.all (fun c => c.1 < size)

/-! ### Byte order: big-endian, decided here once (20_memory.md R52, R54) -/

/-- `BE(bytes)` as a natural number (00_scope.md R8). -/
def beNat : List Byte → Nat
  | [] => 0
  | b :: bs => b.toNat * 256 ^ bs.length + beNat bs

/-- `BE(bytes)` as an `n`-bit value. -/
def be (n : Nat) (bytes : List Byte) : BitVec n := BitVec.ofNat n (beNat bytes)

/-- `BE_k(v)`: the `k` bytes of `v`, most significant first (00_scope.md R8). -/
def beBytes : Nat → Nat → List Byte
  | 0, _ => []
  | k + 1, v => BitVec.ofNat 8 (v / 256 ^ k) :: beBytes k v

/-! ### The access record (20_memory.md R56, R65; DESIGN CHOICE, notes/assumptions/6.md) -/

/-- One access of a command to `MEM`. -/
inductive Access where
  | read (a : Nat)
  | write (a : Nat)
  deriving DecidableEq, Repr

/-- `MEM` while a command uses it, with the accesses the command has made, oldest first. -/
structure Bus where
  mem : Memory
  log : List Access
  deriving DecidableEq, Repr

/-- `n` byte reads at `a, a+1, ...` in that order. -/
def readsAt : Nat → Nat → List Access
  | _, 0 => []
  | a, n + 1 => .read a :: readsAt (a + 1) n

/-- `n` byte writes at `a, a+1, ...` in that order. -/
def writesAt : Nat → Nat → List Access
  | _, 0 => []
  | a, n + 1 => .write a :: writesAt (a + 1) n

/-- The bus at the start of a command. -/
def busStart (m : Memory) : Bus := ⟨m, []⟩

/-- `MemRead(a, n)` of a command. -/
def busRead (b : Bus) (a n : Nat) : List Byte × Bus :=
  (memRead b.mem a n, ⟨b.mem, b.log ++ readsAt a n⟩)

/-- `MemWrite(a, n, bytes)` of a command. -/
def busWrite (b : Bus) (a : Nat) (bytes : List Byte) : Bus :=
  ⟨memWrite b.mem a bytes, b.log ++ writesAt a bytes.length⟩

/-- One byte read of a command. -/
def busReadByte (b : Bus) (a : Nat) : Byte × Bus := (memGet b.mem a, ⟨b.mem, b.log ++ [.read a]⟩)

/-- One byte write of a command. -/
def busWriteByte (b : Bus) (a : Nat) (v : Byte) : Bus := ⟨memSet b.mem a v, b.log ++ [.write a]⟩

/-! ### Registers -/

/-- `x[r]`. -/
def getReg (s : State) (r : Reg) : Word64 := s.x.get r

/-- `x[r] <- v`. -/
def setReg (s : State) (r : Reg) (v : Word64) : State := { s with x := s.x.set r.val v r.isLt }

/-- `pc <- (pc + 1) mod 2^64`, at the end of every command (10_state.md R24). -/
def advance (s : State) : State := { s with pc := s.pc + 1 }

/-! ### Errors -/

/-- `raise E(info)`: record the error if none is recorded, and go on (60_exceptions.md R203). -/
def raise (e : ErrCode) (info : Word64) (s : State) : State :=
  advance (if statusErr s.status = 0 then
    { s with status := setStatusErr s.status (errNumber e), epc := s.pc, einfo := info } else s)

/-- Acknowledge an error, the counterpart of a return (40_host_commands.md R95, 60_exceptions.md R210). -/
def clearError (s : State) : State :=
  { s with status := setStatusErr s.status 0, epc := 0, einfo := 0 }

/-- One check a command makes before its first access: `if not ok: raise err(info)`. -/
structure Check where
  ok : Bool
  err : ErrCode
  info : Word64
  deriving DecidableEq, Repr

/-- `InRange(a, n)` on natural numbers, no wrap-around (20_memory.md R53). -/
def inRange (cfg : Config) (a n : Nat) : Bool := n == 0 || a + n ≤ cfg.memSize

/-- `if not InRange(a, n): raise AccessFault(a)` (60_exceptions.md R202). -/
def rangeCheck (cfg : Config) (a : Word64) (n : Nat) : Check := ⟨inRange cfg a.toNat n, .accessFault, a⟩

/-- `if n != 16: raise InvalidKeyLength(n)` (60_exceptions.md R205). -/
def keyLengthCheck (n : Word64) : Check := ⟨n == keyLength, .invalidKeyLength, n⟩

/-- `if n != 8: raise InvalidIVLength(n)` (60_exceptions.md R206). -/
def ivLengthCheck (n : Word64) : Check := ⟨n == ivLength, .invalidIvLength, n⟩

/-- The first check that fails, in the order listed (60_exceptions.md R209). -/
def firstFailing : List Check → Option Check
  | [] => none
  | c :: cs => if c.ok then firstFailing cs else some c

/-- A command that completes: its effect, then the counter. -/
def complete (s : State) : Result := .next (advance s)

/-- A command that checks, then acts: all checks come before the first access and before any change
of state, so a failing command has no effect but the record (60_exceptions.md R202, R203). -/
def guarded (checks : List Check) (effect : State → State) (s : State) : Result :=
  match firstFailing checks with
  | some c => .next (raise c.err c.info s)
  | none => complete (effect s)

/-- The accesses of a command that checks, then acts: none when a check fails. -/
def guardedLog (checks : List Check) (log : Unit → List Access) : List Access :=
  match firstFailing checks with
  | some _ => []
  | none => log ()

end Sys2Proof.Machine
end

