-- ==== Sys2Proof/Machine/Operands.lean ====
section
/-! DEFINITION. The operand forms (spec/10_state.md R22, spec/30_encoding.md R73, R74): value operands are
the low `W` bits of a register, address, length and count operands all 64 bits, results are
zero-extended. Every operand is a register but `imm16`. -/

namespace Sys2Proof.Machine

/-- `W` in bits: `8 << w` (30_encoding.md R73). -/
def wBits : Width → Nat
  | .w8 => 8
  | .w16 => 16
  | .w32 => 32
  | .w64 => 64

/-- `W/8`, the bytes of an element. -/
def wBytes : Width → Nat
  | .w8 => 1
  | .w16 => 2
  | .w32 => 4
  | .w64 => 8

/-- `xw(r) = x[r][W-1:0]` (00_scope.md R8). -/
def xw (w : Width) (s : State) (r : Reg) : BitVec (wBits w) := (getReg s r).setWidth (wBits w)

/-- `zext_64(v)` (00_scope.md R8). -/
def zext64 {n : Nat} (v : BitVec n) : Word64 := v.setWidth 64

/-- `ones(W)` as a 64-bit number, `2^W - 1` (00_scope.md R8). -/
def ones64 (w : Width) : Word64 := zext64 (BitVec.allOnes (wBits w))

/-- An address, length or count operand: all 64 bits, as a natural number (10_state.md R22). -/
def natReg (s : State) (r : Reg) : Nat := (getReg s r).toNat

/-- `x[rd] <- zext_64(v)`, and the command completes. -/
def writeResult {n : Nat} (s : State) (rd : Reg) (v : BitVec n) : Result :=
  complete (setReg s rd (zext64 v))

end Sys2Proof.Machine
end

