-- ==== Sys2Proof/Machine/Compare.lean ====
section
/-! DEFINITION. Branchless comparison: ISEQ, ISLT, ISLTE, all unsigned
(spec/42_branchless_compare.md R110). -/

namespace Sys2Proof.Machine

/-- `ISEQ.W rd, ra, rb` (R111). -/
def execIseq (w : Width) (rd ra rb : Reg) (s : State) : Result :=
  writeResult s rd (isEqualMask (xw w s ra) (xw w s rb))

/-- `ISLT.W rd, ra, rb` (R112). -/
def execIslt (w : Width) (rd ra rb : Reg) (s : State) : Result :=
  writeResult s rd (isLessMask (xw w s ra) (xw w s rb))

/-- `ISLTE.W rd, ra, rb` (R113). -/
def execIslte (w : Width) (rd ra rb : Reg) (s : State) : Result :=
  writeResult s rd (isLteMask (xw w s ra) (xw w s rb))

end Sys2Proof.Machine
end

