-- ==== Sys2Proof/Machine/Idea.lean ====
section
/-! DEFINITION. The IDEA block cipher: IDEAKS, IDEAENC, IDEADEC, IDEACLR (spec/45_idea.md). A key is the
128-bit big-endian integer of its 16 bytes, a block the 64-bit one of its 8 bytes (R151). -/

namespace Sys2Proof.Machine

/-- A 16-bit word as a factor modulo 65537: 0 stands for 2^16 (R153). -/
def mulOperand (a : Word16) : Nat := if a = 0 then 65536 else a.toNat

/-- `mul(a, b)`: multiplication modulo 2^16+1, a product of 2^16 written as 0 (R153). -/
def mulMod (a b : Word16) : Word16 := BitVec.ofNat 16 (mulOperand a * mulOperand b % 65537)

/-- The branchless datapath of `mul` (R153); `mulMod` is what the commands use. -/
def mulBranchless (a b : Word16) : Word16 :=
  let p : Word32 := a.setWidth 32 * b.setWidth 32
  let pm : Word16 := (expandMask p).extractLsb' 0 16
  let hi : Word16 := p.extractLsb' 16 16
  let lo : Word16 := p.extractLsb' 0 16
  let r1 := lo - hi + (isLessMask lo hi &&& 1#16)
  let r2 := 1#16 - a - b
  selectMask pm r1 r2

/-- `inv(a)`: `a^65535` by 15 rounds of square and multiply (R154). -/
def invMod (a : Word16) : Word16 := loopUp (fun _ y => mulMod (mulMod y y) a) 0 15 a

/-- The key after `g` rotations left by 25 bits (R152). -/
def rotatedKey (key : BitVec 128) : Nat → BitVec 128
  | 0 => key
  | g + 1 => (rotatedKey key g).rotateLeft 25

/-- `idea_expand(key)`: word `i mod 8`, from the top, of the key rotated `i / 8` times (R152). -/
def ideaExpand (key : BitVec 128) : SubkeyTable :=
  Vector.ofFn fun i : Fin 52 => (rotatedKey key (i.val / 8)).extractLsb' (112 - 16 * (i.val % 8)) 16

/-- `K[i]`; every index below is less than 52 where it is used. -/
def subkey (K : SubkeyTable) (i : Nat) : Word16 := K.get (Fin.ofNat 52 i)

/-- Word `i` of `idea_invert(EK)`: group `r = i / 6` comes from the subkeys at `s = 48 - 6r`; the two
addition subkeys change places in the seven middle groups only (R155). -/
def invertWord (ek : SubkeyTable) (i : Nat) : Word16 :=
  let r := i / 6
  let s := 48 - 6 * r
  let middle := 1 ≤ r && r ≤ 7
  match i % 6 with
  | 0 => invMod (subkey ek s)
  | 1 => -subkey ek (if middle then s + 2 else s + 1)
  | 2 => -subkey ek (if middle then s + 1 else s + 2)
  | 3 => invMod (subkey ek (s + 3))
  | 4 => subkey ek (s - 2)
  | _ => subkey ek (s - 1)

/-- `idea_invert(EK)` (R155). -/
def ideaInvert (ek : SubkeyTable) : SubkeyTable := Vector.ofFn fun i : Fin 52 => invertWord ek i.val

/-- The four sub-values `X1 .. X4` of a block (R157). -/
structure Quad where
  x1 : Word16
  x2 : Word16
  x3 : Word16
  x4 : Word16
  deriving DecidableEq, Repr

/-- Round `r` of `idea_block` with subkeys `K[6r .. 6r+5]` (R157). -/
def ideaRound (K : SubkeyTable) (r : Nat) (q : Quad) : Quad :=
  let a := mulMod q.x1 (subkey K (6 * r))
  let b := q.x2 + subkey K (6 * r + 1)
  let c := q.x3 + subkey K (6 * r + 2)
  let d := mulMod q.x4 (subkey K (6 * r + 3))
  let e := mulMod (a ^^^ c) (subkey K (6 * r + 4))
  let f := mulMod ((b ^^^ d) + e) (subkey K (6 * r + 5))
  let g := e + f
  { x1 := a ^^^ f, x2 := c ^^^ f, x3 := b ^^^ g, x4 := d ^^^ g }

/-- The output transformation: `X3` and `X2` change places (R157). -/
def ideaOutput (K : SubkeyTable) (q : Quad) : Quad :=
  { x1 := mulMod q.x1 (subkey K 48), x2 := q.x3 + subkey K 49, x3 := q.x2 + subkey K 50,
    x4 := mulMod q.x4 (subkey K 51) }

/-- The big-endian words of a block (R151, R157). -/
def quadOfBlock (blk : BitVec 64) : Quad :=
  { x1 := blk.extractLsb' 48 16, x2 := blk.extractLsb' 32 16, x3 := blk.extractLsb' 16 16,
    x4 := blk.extractLsb' 0 16 }

/-- `BE_2(Y1) ++ BE_2(Y2) ++ BE_2(Y3) ++ BE_2(Y4)` (R157). -/
def blockOfQuad (q : Quad) : BitVec 64 := q.x1 ++ q.x2 ++ q.x3 ++ q.x4

/-- `idea_block(blk, K)`: 8 rounds and the output transformation (R157). -/
def ideaBlock (blk : BitVec 64) (K : SubkeyTable) : BitVec 64 :=
  blockOfQuad (ideaOutput K (loopUp (ideaRound K) 0 8 (quadOfBlock blk)))

/-- The checks of a key schedule: the length before the range (R156, 60_exceptions.md R209). -/
def keyChecks (cfg : Config) (ra rn : Reg) (s : State) : List Check :=
  [keyLengthCheck (getReg s rn), rangeCheck cfg (getReg s ra) 16]

/-- The reads of a key schedule. -/
def keyBus (a : Nat) (b : Bus) : List Byte × Bus := busRead b a 16

/-- The key at `x[ra]`. -/
def keyAt (ra : Reg) (s : State) : BitVec 128 := be 128 (keyBus (natReg s ra) (busStart s.mem)).1

/-- The IDEA context after a key schedule: `EK <- idea_expand(key)`, `DK <- idea_invert(EK)` (R156). -/
def ideaKeyed (key : BitVec 128) : IdeaContext :=
  let ek := ideaExpand key
  { ek := ek, dk := ideaInvert ek }

/-- The effect of `IDEAKS` on the state (R156). -/
def ideaksEffect (ra : Reg) (s : State) : State :=
  { s with idea := ideaKeyed (keyAt ra s), status := setIdeaKeyed s.status true }

/-- `IDEAKS ra, rn` (R156). -/
def execIdeaks (ra rn : Reg) (s : State) (cfg : Config := Config.std) : Result :=
  guarded (keyChecks cfg ra rn s) (ideaksEffect ra) s

/-- The checks of a block command: input range, then output range, of `8n` bytes (R158). -/
def blockChecks (cfg : Config) (ri ro rn : Reg) (s : State) : List Check :=
  let n := 8 * natReg s rn
  [rangeCheck cfg (getReg s ri) n, rangeCheck cfg (getReg s ro) n]

/-- Block `j`: read whole, then written (R158, 20_memory.md R66). -/
def blockUnit (K : SubkeyTable) (i o : Nat) (j : Nat) (b : Bus) : Bus :=
  let r := busRead b (i + 8 * j) 8
  busWrite r.2 (o + 8 * j) (beBytes 8 (ideaBlock (be 64 r.1) K).toNat)

/-- The loop of `IDEAENC` and `IDEADEC`, blocks in ascending order (R158, R159). -/
def blocksBus (K : SubkeyTable) (i o n : Nat) (b : Bus) : Bus := loopUp (blockUnit K i o) 0 n b

/-- The bus after the loop of a block command under the table `K`, its operands read from the registers. -/
def blocksEnd (K : SubkeyTable) (ri ro rn : Reg) (s : State) : Bus :=
  blocksBus K (natReg s ri) (natReg s ro) (natReg s rn) (busStart s.mem)

/-- The effect of `IDEAENC` on the state (R158). -/
def ideaencEffect (ri ro rn : Reg) (s : State) : State :=
  { s with mem := (blocksEnd s.idea.ek ri ro rn s).mem }

/-- `IDEAENC ri, ro, rn` (R158). -/
def execIdeaenc (ri ro rn : Reg) (s : State) (cfg : Config := Config.std) : Result :=
  guarded (blockChecks cfg ri ro rn s) (ideaencEffect ri ro rn) s

/-- The effect of `IDEADEC` on the state: as `IDEAENC` with `DK` in place of `EK` (R159). -/
def ideadecEffect (ri ro rn : Reg) (s : State) : State :=
  { s with mem := (blocksEnd s.idea.dk ri ro rn s).mem }

/-- `IDEADEC ri, ro, rn` (R159). -/
def execIdeadec (ri ro rn : Reg) (s : State) (cfg : Config := Config.std) : Result :=
  guarded (blockChecks cfg ri ro rn s) (ideadecEffect ri ro rn) s

/-- `IDEACLR` (R160). -/
def execIdeaclr (s : State) : Result :=
  complete { s with idea := IdeaContext.zero, status := setIdeaKeyed s.status false }

end Sys2Proof.Machine
end

