-- ==== Sys2Proof/Machine/MaskGen.lean ====
section
/-! DEFINITION. Mask generation: EXPMASK, EXPTOP, ISZERO (spec/41_constant_time_mask_gen.md R100). -/

namespace Sys2Proof.Machine

/-- `EXPMASK.W rd, rs` (R101). -/
def execExpmask (w : Width) (rd rs : Reg) (s : State) : Result :=
  writeResult s rd (expandMask (xw w s rs))

/-- `EXPTOP.W rd, rs` (R102). -/
def execExptop (w : Width) (rd rs : Reg) (s : State) : Result :=
  writeResult s rd (expandTopBit (xw w s rs))

/-- `ISZERO.W rd, rs` (R103). -/
def execIszero (w : Width) (rd rs : Reg) (s : State) : Result :=
  writeResult s rd (isZeroMask (xw w s rs))

end Sys2Proof.Machine
end

