-- ==== Sys2Proof/Machine/Select.lean ====
section
/-! DEFINITION. Branchless selection: SEL, SEL2, SEL3 on registers, CCOPY, CZERO on memory, and the hints
POISON, UNPOISON (spec/43_branchless_select.md). -/

namespace Sys2Proof.Machine

/-- `SEL.W rd, rm, rt, rf` (R121). -/
def execSel (w : Width) (rd rm rt rf : Reg) (s : State) : Result :=
  writeResult s rd (selectMask (xw w s rm) (xw w s rt) (xw w s rf))

/-- `SEL2.W rd, rm0, rv0, rm1, rv1, ro` (R122). -/
def execSel2 (w : Width) (rd rm0 rv0 rm1 rv1 ro : Reg) (s : State) : Result :=
  writeResult s rd
    (selectMask (xw w s rm0) (xw w s rv0) (selectMask (xw w s rm1) (xw w s rv1) (xw w s ro)))

/-- `SEL3.W rd, rm0, rv0, rm1, rv1, rm2, rv2, ro` (R123). -/
def execSel3 (w : Width) (rd rm0 rv0 rm1 rv1 rm2 rv2 ro : Reg) (s : State) : Result :=
  writeResult s rd
    (selectMask (xw w s rm0) (xw w s rv0)
      (selectMask (xw w s rm1) (xw w s rv1)
        (selectMask (xw w s rm2) (xw w s rv2) (xw w s ro))))

/-- The checks of `CCOPY.W`: destination, true source, false source (R126). -/
def ccopyChecks (cfg : Config) (w : Width) (rto rf0 rf1 rn : Reg) (s : State) : List Check :=
  let n := natReg s rn * wBytes w
  [rangeCheck cfg (getReg s rto) n, rangeCheck cfg (getReg s rf0) n, rangeCheck cfg (getReg s rf1) n]

/-- Element `i` of `CCOPY.W`: both sources are read and the destination is written, whatever the mask. -/
def ccopyElement (w : Width) (mask : BitVec (wBits w)) (dst p0 p1 : Nat) (i : Nat) (b : Bus) : Bus :=
  let k := wBytes w
  let e0 := busRead b (p0 + i * k) k
  let e1 := busRead e0.2 (p1 + i * k) k
  busWrite e1.2 (dst + i * k)
    (beBytes k (selectMask mask (be (wBits w) e0.1) (be (wBits w) e1.1)).toNat)

/-- The loop of `CCOPY.W`, elements in ascending order (R125, R126). -/
def ccopyBus (w : Width) (cond : BitVec (wBits w)) (dst p0 p1 n : Nat) (b : Bus) : Bus :=
  loopUp (ccopyElement w (expandMask cond) dst p0 p1) 0 n b

/-- The bus after the loop of `CCOPY.W`, its operands read from the registers. -/
def ccopyEnd (w : Width) (rc rto rf0 rf1 rn : Reg) (s : State) : Bus :=
  ccopyBus w (xw w s rc) (natReg s rto) (natReg s rf0) (natReg s rf1) (natReg s rn) (busStart s.mem)

/-- The effect of `CCOPY.W` on the state (R126). -/
def ccopyEffect (w : Width) (rc rto rf0 rf1 rn : Reg) (s : State) : State :=
  { s with mem := (ccopyEnd w rc rto rf0 rf1 rn s).mem }

/-- `CCOPY.W rc, rto, rf0, rf1, rn` (R126). -/
def execCcopy (w : Width) (rc rto rf0 rf1 rn : Reg) (s : State) (cfg : Config := Config.std) : Result :=
  guarded (ccopyChecks cfg w rto rf0 rf1 rn s) (ccopyEffect w rc rto rf0 rf1 rn) s

/-- The check of `CZERO.W` (R127). -/
def czeroChecks (cfg : Config) (w : Width) (ra rn : Reg) (s : State) : List Check :=
  [rangeCheck cfg (getReg s ra) (natReg s rn * wBytes w)]

/-- Element `i` of `CZERO.W`: read and rewritten, whatever the mask. -/
def czeroElement (w : Width) (mask : BitVec (wBits w)) (p : Nat) (i : Nat) (b : Bus) : Bus :=
  let k := wBytes w
  let e := busRead b (p + i * k) k
  busWrite e.2 (p + i * k) (beBytes k (selectMask mask 0 (be (wBits w) e.1)).toNat)

/-- The loop of `CZERO.W`, elements in ascending order (R125, R127). -/
def czeroBus (w : Width) (cond : BitVec (wBits w)) (p n : Nat) (b : Bus) : Bus :=
  loopUp (czeroElement w (expandMask cond) p) 0 n b

/-- The bus after the loop of `CZERO.W`, its operands read from the registers. -/
def czeroEnd (w : Width) (rc ra rn : Reg) (s : State) : Bus :=
  czeroBus w (xw w s rc) (natReg s ra) (natReg s rn) (busStart s.mem)

/-- The effect of `CZERO.W` on the state (R127). -/
def czeroEffect (w : Width) (rc ra rn : Reg) (s : State) : State :=
  { s with mem := (czeroEnd w rc ra rn s).mem }

/-- `CZERO.W rc, ra, rn` (R127). -/
def execCzero (w : Width) (rc ra rn : Reg) (s : State) (cfg : Config := Config.std) : Result :=
  guarded (czeroChecks cfg w ra rn s) (czeroEffect w rc ra rn) s

/-- `POISON ra, rn`: a hint, as `NOP`; the register fields are not read (R128, 30_encoding.md R78). -/
def execPoison (_ _ : Reg) (s : State) : Result := complete s

/-- `UNPOISON ra, rn`: a hint, as `NOP` (R129). -/
def execUnpoison (_ _ : Reg) (s : State) : Result := complete s

end Sys2Proof.Machine
end

