-- ==== Sys2Proof/Machine/Strip.lean ====
section
/-! DEFINITION. Leading-zero stripping: STRIPLZ (spec/44_leading_zero_strip.md). -/

namespace Sys2Proof.Machine

/-- The running values of the scan: the bus, `only_zeros`, and `lz`. -/
structure StripScan where
  bus : Bus
  onlyZeros : Byte
  lz : Nat
  deriving DecidableEq, Repr

/-- Byte `i` of the scan: always read, never an early exit (R141). -/
def stripByte (a : Nat) (i : Nat) (p : StripScan) : StripScan :=
  let r := busReadByte p.bus (a + i)
  let oz := p.onlyZeros &&& isZeroMask r.1
  { bus := r.2, onlyZeros := oz, lz := p.lz + (selectMask oz 1#8 0#8).toNat }

/-- The scan of all `n` bytes at `a` (R141). -/
def stripScan (a n : Nat) (b : Bus) : StripScan :=
  loopUp (stripByte a) 0 n { bus := b, onlyZeros := 0xFF, lz := 0 }

/-- The check of `STRIPLZ` (R141). -/
def striplzChecks (cfg : Config) (ra rn : Reg) (s : State) : List Check :=
  [rangeCheck cfg (getReg s ra) (natReg s rn)]

/-- The end of the scan, its operands read from the registers. -/
def stripEnd (ra rn : Reg) (s : State) : StripScan := stripScan (natReg s ra) (natReg s rn) (busStart s.mem)

/-- The address to `rd` first, then the length to `rl` (R141). -/
def stripEffect (rd rl ra rn : Reg) (s : State) : State :=
  let lz := (stripEnd ra rn s).lz
  setReg (setReg s rd (BitVec.ofNat 64 (natReg s ra + lz))) rl (BitVec.ofNat 64 (natReg s rn - lz))

/-- `STRIPLZ rd, rl, ra, rn` (R141). -/
def execStriplz (rd rl ra rn : Reg) (s : State) (cfg : Config := Config.std) : Result :=
  guarded (striplzChecks cfg ra rn s) (stripEffect rd rl ra rn) s

end Sys2Proof.Machine
end

