-- ==== Sys2Proof/Machine/Support.lean ====
section
/-! DEFINITION. The support commands NOP, LDI, LDIS, LD, ST, CLRERR (spec/40_host_commands.md). -/

namespace Sys2Proof.Machine

/-- `NOP` (R90). -/
def execNop (s : State) : Result := complete s

/-- `LDI rd, imm16`: `x[rd] <- zext_64(imm16)` (R91). -/
def execLdi (rd : Reg) (imm : Word16) (s : State) : Result := writeResult s rd imm

/-- `x[rd][47:0] ++ imm16` (R92). -/
def shiftIn (old : Word64) (imm : Word16) : Word64 := old.extractLsb' 0 48 ++ imm

/-- `LDIS rd, imm16` (R92). -/
def execLdis (rd : Reg) (imm : Word16) (s : State) : Result :=
  writeResult s rd (shiftIn (getReg s rd) imm)

/-- The one check of `LD.W` and `ST.W` (R93, R94). -/
def loadStoreChecks (cfg : Config) (w : Width) (ra : Reg) (s : State) : List Check :=
  [rangeCheck cfg (getReg s ra) (wBytes w)]

/-- The reads of `LD.W` (R93). -/
def loadBus (w : Width) (a : Nat) (b : Bus) : List Byte × Bus := busRead b a (wBytes w)

/-- `x[rd] <- zext_64(BE(MemRead(a, W/8)))` (R93). -/
def loadEffect (w : Width) (rd ra : Reg) (s : State) : State :=
  setReg s rd (zext64 (be (wBits w) (loadBus w (natReg s ra) (busStart s.mem)).1))

/-- `LD.W rd, ra` (R93). -/
def execLd (w : Width) (rd ra : Reg) (s : State) (cfg : Config := Config.std) : Result :=
  guarded (loadStoreChecks cfg w ra s) (loadEffect w rd ra) s

/-- The writes of `ST.W` (R94). -/
def storeBus (w : Width) (v : BitVec (wBits w)) (a : Nat) (b : Bus) : Bus :=
  busWrite b a (beBytes (wBytes w) v.toNat)

/-- `MemWrite(a, W/8, BE_(W/8)(xw(rs)))` (R94). -/
def storeEffect (w : Width) (rs ra : Reg) (s : State) : State :=
  { s with mem := (storeBus w (xw w s rs) (natReg s ra) (busStart s.mem)).mem }

/-- `ST.W rs, ra` (R94). -/
def execSt (w : Width) (rs ra : Reg) (s : State) (cfg : Config := Config.std) : Result :=
  guarded (loadStoreChecks cfg w ra s) (storeEffect w rs ra) s

/-- `CLRERR` (R95). -/
def execClrerr (s : State) : Result := complete (clearError s)

end Sys2Proof.Machine
end

