-- ==== Sys2Proof/Machine/WiderWake.lean ====
section
/-! DEFINITION. The WiderWake4+1-BE stream cipher: WWKS, WWSIV, WWVIV, WWGEN, WWMIX, WWCIPH, WWCLR
(spec/46_widerwake.md), written against the four parameters of `Config`. -/

namespace Sys2Proof.Machine

/-- `n` successive steps of `WW_MIX`: the words as bytes, `BE_4(w)` each, and the state after (R176). -/
def keystreamBytes (cfg : Config) (k : WakeKey) (T : WakeTable) : Nat → WakeState → List Byte × WakeState
  | 0, st => ([], st)
  | n + 1, st =>
    let r := cfg.wwMix st k T
    let rest := keystreamBytes cfg k T n r.2
    (beBytes 4 r.1.toNat ++ rest.1, rest.2)

/-- `ww_generate()`: fill the whole buffer, `position <- 0` (R176, 90_conflicts.md C2). -/
def wakeGenerate (cfg : Config) (c : WakeContext) : WakeContext :=
  let r := keystreamBytes cfg c.tKey c.table (cfg.bufLen / 4) c.state
  { c with buffer := r.1, state := r.2, position := 0 }

/-- The context after a key schedule: table, `t_key`, the zero-IV setup, regeneration forced (R177). -/
def wakeKeyed (cfg : Config) (key : BitVec 128) (c : WakeContext) : WakeContext :=
  let T := cfg.wwTablegen key
  let k := cfg.wwTkey key
  { c with table := T, tKey := k, state := cfg.wwIvsetup k 0#64 T, position := cfg.bufLen }

/-- The effect of `WWKS` on the state (R177). -/
def wwksEffect (cfg : Config) (ra : Reg) (s : State) : State :=
  { s with ww := wakeKeyed cfg (keyAt ra s) s.ww,
           status := setWwIvset (setWwKeyed s.status true) false }

/-- `WWKS ra, rn` (R177). -/
def execWwks (ra rn : Reg) (s : State) (cfg : Config := Config.std) : Result :=
  guarded (keyChecks cfg ra rn s) (wwksEffect cfg ra) s

/-- The checks of `WWSIV`: the length before the range (R178, 60_exceptions.md R209). -/
def ivChecks (cfg : Config) (ra rn : Reg) (s : State) : List Check :=
  [ivLengthCheck (getReg s rn), rangeCheck cfg (getReg s ra) 8]

/-- The reads of `WWSIV`. -/
def ivBus (a : Nat) (b : Bus) : List Byte × Bus := busRead b a 8

/-- The IV at `x[ra]`. -/
def ivAt (ra : Reg) (s : State) : BitVec 64 := be 64 (ivBus (natReg s ra) (busStart s.mem)).1

/-- The context after an IV setup: `position <- WW_BUF_LEN` (R178, 90_conflicts.md C1). -/
def wakeIvSet (cfg : Config) (iv : BitVec 64) (c : WakeContext) : WakeContext :=
  { c with state := cfg.wwIvsetup c.tKey iv c.table, position := cfg.bufLen }

/-- The effect of `WWSIV` on the state (R178). -/
def wwsivEffect (cfg : Config) (ra : Reg) (s : State) : State :=
  { s with ww := wakeIvSet cfg (ivAt ra s) s.ww, status := setWwIvset s.status true }

/-- `WWSIV ra, rn` (R178). -/
def execWwsiv (ra rn : Reg) (s : State) (cfg : Config := Config.std) : Result :=
  guarded (ivChecks cfg ra rn s) (wwsivEffect cfg ra) s

/-- `WWVIV rd, rs`: 1 if `x[rs] = 8`, else 0, a number and not a Mask (R179). -/
def execWwviv (rd rs : Reg) (s : State) : Result :=
  writeResult s rd (if getReg s rs = ivLength then 1#64 else 0#64)

/-- `WWGEN` (R180). -/
def execWwgen (s : State) (cfg : Config := Config.std) : Result :=
  complete { s with ww := wakeGenerate cfg s.ww }

/-- `WWMIX rd`: one step, the word to `x[rd]`; `buffer` and `position` stay (R181). -/
def execWwmix (rd : Reg) (s : State) (cfg : Config := Config.std) : Result :=
  let r := cfg.wwMix s.ww.state s.ww.tKey s.ww.table
  writeResult { s with ww := { s.ww with state := r.2 } } rd r.1

/-- The checks of `WWCIPH`: input range, then output range (R182). -/
def cipherChecks (cfg : Config) (ri ro rn : Reg) (s : State) : List Check :=
  let n := natReg s rn
  [rangeCheck cfg (getReg s ri) n, rangeCheck cfg (getReg s ro) n]

/-- `if position = WW_BUF_LEN: ww_generate()` (R182). -/
def wakeRefill (cfg : Config) (c : WakeContext) : WakeContext :=
  if c.position = cfg.bufLen then wakeGenerate cfg c else c

/-- Byte `k` of `WWCIPH`: one byte read, one byte written, the cursor moves on (R182). By R185 the cursor
is inside the buffer here in every state with `position <= WW_BUF_LEN` (DESIGN CHOICE, notes/assumptions/8.md). -/
def cipherByte (cfg : Config) (i o : Nat) (k : Nat) (p : Bus × WakeContext) : Bus × WakeContext :=
  let c := wakeRefill cfg p.2
  let r := busReadByte p.1 (i + k)
  (busWriteByte r.2 (o + k) (r.1 ^^^ c.buffer.getD c.position 0), { c with position := c.position + 1 })

/-- The loop of `WWCIPH`, bytes in ascending order (R182, 20_memory.md R66). -/
def cipherBus (cfg : Config) (i o n : Nat) (p : Bus × WakeContext) : Bus × WakeContext :=
  loopUp (cipherByte cfg i o) 0 n p

/-- The bus and the context after the loop of `WWCIPH`, its operands read from the registers. -/
def cipherEnd (cfg : Config) (ri ro rn : Reg) (s : State) : Bus × WakeContext :=
  cipherBus cfg (natReg s ri) (natReg s ro) (natReg s rn) (busStart s.mem, s.ww)

/-- The effect of `WWCIPH` on the state (R182). -/
def cipherEffect (cfg : Config) (ri ro rn : Reg) (s : State) : State :=
  let r := cipherEnd cfg ri ro rn s
  { s with mem := r.1.mem, ww := r.2 }

/-- `WWCIPH ri, ro, rn` (R182). -/
def execWwciph (ri ro rn : Reg) (s : State) (cfg : Config := Config.std) : Result :=
  guarded (cipherChecks cfg ri ro rn s) (cipherEffect cfg ri ro rn) s

/-- `WWCLR` (R183). -/
def execWwclr (s : State) (cfg : Config := Config.std) : Result :=
  complete { s with ww := WakeContext.zero cfg.bufLen,
                    status := setWwIvset (setWwKeyed s.status false) false }

end Sys2Proof.Machine
end

