-- ==== Sys2Proof/Machine/Dispatch.lean ====
section
/-! DEFINITION. One arm per command: its meaning, at the default configuration. -/

namespace Sys2Proof.Machine

/-- The meaning of a command (spec/30_encoding.md R75). -/
def exec (i : Instr) (s : State) : Host.Outcome State Fault Refusal :=
  match i with
  | .nop => Sys2Proof.Machine.execNop s
  | .ldi rd imm => Sys2Proof.Machine.execLdi rd imm s
  | .ldis rd imm => Sys2Proof.Machine.execLdis rd imm s
  | .ld w rd ra => Sys2Proof.Machine.execLd w rd ra s
  | .st w rs ra => Sys2Proof.Machine.execSt w rs ra s
  | .clrerr => Sys2Proof.Machine.execClrerr s
  | .expmask w rd rs => Sys2Proof.Machine.execExpmask w rd rs s
  | .exptop w rd rs => Sys2Proof.Machine.execExptop w rd rs s
  | .iszero w rd rs => Sys2Proof.Machine.execIszero w rd rs s
  | .iseq w rd ra rb => Sys2Proof.Machine.execIseq w rd ra rb s
  | .islt w rd ra rb => Sys2Proof.Machine.execIslt w rd ra rb s
  | .islte w rd ra rb => Sys2Proof.Machine.execIslte w rd ra rb s
  | .sel w rd rm rt rf => Sys2Proof.Machine.execSel w rd rm rt rf s
  | .sel2 w rd rm0 rv0 rm1 rv1 ro => Sys2Proof.Machine.execSel2 w rd rm0 rv0 rm1 rv1 ro s
  | .sel3 w rd rm0 rv0 rm1 rv1 rm2 rv2 ro => Sys2Proof.Machine.execSel3 w rd rm0 rv0 rm1 rv1 rm2 rv2 ro s
  | .ccopy w rc rto rf0 rf1 rn => Sys2Proof.Machine.execCcopy w rc rto rf0 rf1 rn s
  | .czero w rc ra rn => Sys2Proof.Machine.execCzero w rc ra rn s
  | .striplz rd rl ra rn => Sys2Proof.Machine.execStriplz rd rl ra rn s
  | .poison ra rn => Sys2Proof.Machine.execPoison ra rn s
  | .unpoison ra rn => Sys2Proof.Machine.execUnpoison ra rn s
  | .ideaks ra rn => Sys2Proof.Machine.execIdeaks ra rn s
  | .ideaenc ri ro rn => Sys2Proof.Machine.execIdeaenc ri ro rn s
  | .ideadec ri ro rn => Sys2Proof.Machine.execIdeadec ri ro rn s
  | .ideaclr => Sys2Proof.Machine.execIdeaclr s
  | .wwks ra rn => Sys2Proof.Machine.execWwks ra rn s
  | .wwsiv ra rn => Sys2Proof.Machine.execWwsiv ra rn s
  | .wwgen => Sys2Proof.Machine.execWwgen s
  | .wwmix rd => Sys2Proof.Machine.execWwmix rd s
  | .wwciph ri ro rn => Sys2Proof.Machine.execWwciph ri ro rn s
  | .wwclr => Sys2Proof.Machine.execWwclr s
  | .wwviv rd rs => Sys2Proof.Machine.execWwviv rd rs s

end Sys2Proof.Machine
end

