-- ==== Sys2Proof/Decode.lean ====
section
/-! DEFINITION. Decoding and encoding (spec/30_encoding.md R70 to R79). A word is taken apart here and
nowhere else. -/

namespace Sys2Proof

/-- Why a word is no command (30_encoding.md R77). -/
inductive DecodeError where
  /-- one of the 33 unassigned opcodes -/
  | unassignedOpcode
  /-- an assigned opcode with a nonzero must-be-zero bit -/
  | mustBeZeroBit
  deriving DecidableEq, Repr

/-- One row of the opcode map (30_encoding.md R75). -/
structure Row where
  mnemonic : String
  matchBits : Word32
  mask : Word32
  deriving DecidableEq, Repr

/-- The row of each command, as 30_encoding.md R75 lists it. -/
def Instr.row : Instr → Row
  | .nop => ⟨"NOP", 0x00000000, 0xFFFFFFFF⟩
  | .ldi .. => ⟨"LDI", 0x04000000, 0xFF1F0000⟩
  | .ldis .. => ⟨"LDIS", 0x08000000, 0xFF1F0000⟩
  | .ld .. => ⟨"LD", 0x0C000000, 0xFC03FFFF⟩
  | .st .. => ⟨"ST", 0x10000000, 0xFC03FFFF⟩
  | .clrerr => ⟨"CLRERR", 0x14000000, 0xFFFFFFFF⟩
  | .expmask .. => ⟨"EXPMASK", 0x40000000, 0xFC03FFFF⟩
  | .exptop .. => ⟨"EXPTOP", 0x44000000, 0xFC03FFFF⟩
  | .iszero .. => ⟨"ISZERO", 0x48000000, 0xFC03FFFF⟩
  | .iseq .. => ⟨"ISEQ", 0x50000000, 0xFC007FFF⟩
  | .islt .. => ⟨"ISLT", 0x54000000, 0xFC007FFF⟩
  | .islte .. => ⟨"ISLTE", 0x58000000, 0xFC007FFF⟩
  | .sel .. => ⟨"SEL", 0x60000000, 0xFC000FFF⟩
  | .sel2 .. => ⟨"SEL2", 0x64000000, 0xFC00003F⟩
  | .sel3 .. => ⟨"SEL3", 0x68000000, 0xFC000000⟩
  | .ccopy .. => ⟨"CCOPY", 0x6C000000, 0xFC0001FF⟩
  | .czero .. => ⟨"CZERO", 0x70000000, 0xFC007FFF⟩
  | .striplz .. => ⟨"STRIPLZ", 0x74000000, 0xFF000FFF⟩
  | .poison .. => ⟨"POISON", 0x78000000, 0xFF03FFFF⟩
  | .unpoison .. => ⟨"UNPOISON", 0x7C000000, 0xFF03FFFF⟩
  | .ideaks .. => ⟨"IDEAKS", 0x80000000, 0xFF03FFFF⟩
  | .ideaenc .. => ⟨"IDEAENC", 0x84000000, 0xFF007FFF⟩
  | .ideadec .. => ⟨"IDEADEC", 0x88000000, 0xFF007FFF⟩
  | .ideaclr => ⟨"IDEACLR", 0x8C000000, 0xFFFFFFFF⟩
  | .wwks .. => ⟨"WWKS", 0xA0000000, 0xFF03FFFF⟩
  | .wwsiv .. => ⟨"WWSIV", 0xA4000000, 0xFF03FFFF⟩
  | .wwgen => ⟨"WWGEN", 0xA8000000, 0xFFFFFFFF⟩
  | .wwmix .. => ⟨"WWMIX", 0xAC000000, 0xFF1FFFFF⟩
  | .wwciph .. => ⟨"WWCIPH", 0xB0000000, 0xFF007FFF⟩
  | .wwclr => ⟨"WWCLR", 0xB4000000, 0xFFFFFFFF⟩
  | .wwviv .. => ⟨"WWVIV", 0xB8000000, 0xFF03FFFF⟩

/-- `c[lo+n-1:lo]` as a number (00_scope.md R7). -/
def bitField (c : Word32) (lo n : Nat) : Nat := c.toNat / 2 ^ lo % 2 ^ n

/-- Register field `f<k>`, bits `[23-3k : 21-3k]` (30_encoding.md R71). -/
def regField (c : Word32) (k : Nat) : Reg := Fin.ofNat 8 (bitField c (21 - 3 * k) 3)

/-- Width field `w`, bits `[25:24]`: `W = 8 << w` (30_encoding.md R71, R73). -/
def widthField (c : Word32) : Width :=
  match bitField c 24 2 with
  | 0 => .w8
  | 1 => .w16
  | 2 => .w32
  | _ => .w64

/-- `imm16 = word[15:0]` (30_encoding.md R74). -/
def immField (c : Word32) : Word16 := BitVec.ofNat 16 (bitField c 0 16)

/-- Take the row of the opcode, its operands filled in from the fields (30_encoding.md R76). -/
def operandsOf (c : Word32) : Option Instr :=
  let w := widthField c
  let f := regField c
  match bitField c 26 6 with
  | 0x00 => some .nop
  | 0x01 => some (.ldi (f 0) (immField c))
  | 0x02 => some (.ldis (f 0) (immField c))
  | 0x03 => some (.ld w (f 0) (f 1))
  | 0x04 => some (.st w (f 0) (f 1))
  | 0x05 => some .clrerr
  | 0x10 => some (.expmask w (f 0) (f 1))
  | 0x11 => some (.exptop w (f 0) (f 1))
  | 0x12 => some (.iszero w (f 0) (f 1))
  | 0x14 => some (.iseq w (f 0) (f 1) (f 2))
  | 0x15 => some (.islt w (f 0) (f 1) (f 2))
  | 0x16 => some (.islte w (f 0) (f 1) (f 2))
  | 0x18 => some (.sel w (f 0) (f 1) (f 2) (f 3))
  | 0x19 => some (.sel2 w (f 0) (f 1) (f 2) (f 3) (f 4) (f 5))
  | 0x1A => some (.sel3 w (f 0) (f 1) (f 2) (f 3) (f 4) (f 5) (f 6) (f 7))
  | 0x1B => some (.ccopy w (f 0) (f 1) (f 2) (f 3) (f 4))
  | 0x1C => some (.czero w (f 0) (f 1) (f 2))
  | 0x1D => some (.striplz (f 0) (f 1) (f 2) (f 3))
  | 0x1E => some (.poison (f 0) (f 1))
  | 0x1F => some (.unpoison (f 0) (f 1))
  | 0x20 => some (.ideaks (f 0) (f 1))
  | 0x21 => some (.ideaenc (f 0) (f 1) (f 2))
  | 0x22 => some (.ideadec (f 0) (f 1) (f 2))
  | 0x23 => some .ideaclr
  | 0x28 => some (.wwks (f 0) (f 1))
  | 0x29 => some (.wwsiv (f 0) (f 1))
  | 0x2A => some .wwgen
  | 0x2B => some (.wwmix (f 0))
  | 0x2C => some (.wwciph (f 0) (f 1) (f 2))
  | 0x2D => some .wwclr
  | 0x2E => some (.wwviv (f 0) (f 1))
  | _ => none

/-- Decoding (30_encoding.md R76): the opcode picks one row, and the word is that command exactly when
`c & mask = match`. It reads no state. -/
def decode (c : Word32) : Except DecodeError Instr :=
  match operandsOf c with
  | none => .error .unassignedOpcode
  | some i => if c &&& i.row.mask = i.row.matchBits then .ok i else .error .mustBeZeroBit

/-- The `w` field of a width (30_encoding.md R71). -/
def widthCode : Width → Nat
  | .w8 => 0
  | .w16 => 1
  | .w32 => 2
  | .w64 => 3

/-- The registers of a command in the order `f0, f1, ...`, each at its place (30_encoding.md R71). -/
def packRegs : Nat → List Reg → Nat
  | _, [] => 0
  | k, r :: rs => r.val * 2 ^ (21 - 3 * k) + packRegs (k + 1) rs

/-- A word in format R or Z: opcode bits, width field, register fields, zeros elsewhere (R72). -/
def packWord (r : Row) (w : Nat) (fs : List Reg) : Word32 :=
  BitVec.ofNat 32 (r.matchBits.toNat + w * 2 ^ 24 + packRegs 0 fs)

/-- A word in format I (30_encoding.md R72). -/
def packImm (r : Row) (rd : Reg) (imm : Word16) : Word32 :=
  BitVec.ofNat 32 (r.matchBits.toNat + packRegs 0 [rd] + imm.toNat)

/-- The word of a command (30_encoding.md R71, R72, R75). -/
def encode (i : Instr) : Word32 :=
  match i with
  | .nop | .clrerr | .ideaclr | .wwgen | .wwclr => packWord i.row 0 []
  | .ldi rd imm | .ldis rd imm => packImm i.row rd imm
  | .ld w rd ra => packWord i.row (widthCode w) [rd, ra]
  | .st w rs ra => packWord i.row (widthCode w) [rs, ra]
  | .expmask w rd rs | .exptop w rd rs | .iszero w rd rs => packWord i.row (widthCode w) [rd, rs]
  | .iseq w rd ra rb | .islt w rd ra rb | .islte w rd ra rb =>
      packWord i.row (widthCode w) [rd, ra, rb]
  | .sel w rd rm rt rf => packWord i.row (widthCode w) [rd, rm, rt, rf]
  | .sel2 w rd rm0 rv0 rm1 rv1 ro => packWord i.row (widthCode w) [rd, rm0, rv0, rm1, rv1, ro]
  | .sel3 w rd rm0 rv0 rm1 rv1 rm2 rv2 ro =>
      packWord i.row (widthCode w) [rd, rm0, rv0, rm1, rv1, rm2, rv2, ro]
  | .ccopy w rc rto rf0 rf1 rn => packWord i.row (widthCode w) [rc, rto, rf0, rf1, rn]
  | .czero w rc ra rn => packWord i.row (widthCode w) [rc, ra, rn]
  | .striplz rd rl ra rn => packWord i.row 0 [rd, rl, ra, rn]
  | .poison ra rn | .unpoison ra rn => packWord i.row 0 [ra, rn]
  | .ideaks ra rn | .wwks ra rn | .wwsiv ra rn => packWord i.row 0 [ra, rn]
  | .ideaenc ri ro rn | .ideadec ri ro rn | .wwciph ri ro rn => packWord i.row 0 [ri, ro, rn]
  | .wwmix rd => packWord i.row 0 [rd]
  | .wwviv rd rs => packWord i.row 0 [rd, rs]

/-- The command a table word decodes to: a command is one 32-bit word presented whole
(30_encoding.md R70), so the word is given to the decoder as it stands, bits above `nbits` zero. -/
def decodeTableWord (nbits w : Nat) : Option Instr :=
  match decode (BitVec.ofNat 32 (w % 2 ^ nbits)) with
  | .ok i => some i
  | .error _ => none

end Sys2Proof
end

