-- ==== Sys2Proof/Machine/HostPort.lean ====
section
/-! DEFINITION. The host interface (spec/70_reset_and_hazards.md R230, R240 to R242): what one host move
does, what the host can read, and how a program is presented. Step.lean only calls it. -/

namespace Sys2Proof.Machine

/-- Accept a command word: decode and execute it, or record `IllegalCommand` (30_encoding.md R76,
60_exceptions.md R201). `ex` is the meaning of a command. -/
def acceptWord (ex : Instr → State → Result) (c : Word32) (s : State) : Result :=
  match decode c with
  | .ok i => ex i s
  | .error _ => .next (raise .illegalCommand (zext64 c) s)

/-- Reset zeroes every piece of state; the moves still waiting are not state of the block
(R230; DEDUCED, notes/assumptions/4.md). -/
def applyReset (cfg : Config) (s : State) : State := { State.resetFor cfg.bufLen with host := s.host }

/-- One host move; `s` no longer holds the move (R240). -/
def applyMove (cfg : Config) (ex : Instr → State → Result) (m : HostMove) (s : State) : Result :=
  match m with
  | .command c => acceptWord ex c s
  | .writeReg r v => .next (setReg s r v)
  | .writeMem a b =>
    if a < cfg.memSize then .next { s with mem := memSet s.mem a b } else .refused .hostAddressOutsideMem
  | .reset => .next (applyReset cfg s)

/-- Take the oldest host move; with none waiting the block is idle and holds all its state
(60_exceptions.md R220; DEDUCED, notes/assumptions/3.md). -/
def takeMove (cfg : Config) (ex : Instr → State → Result) (s : State) : Result :=
  match s.host with
  | [] => .next s
  | m :: rest => applyMove cfg ex m { s with host := rest }

/-- Put a command word in front of the host's moves, so that it is the next one taken. -/
def presentWord (c : Word32) (s : State) : State := { s with host := .command c :: s.host }

/-- Present a program, a list of command words executed once each in order (R242). -/
def withProgram (cs : List Word32) (s : State) : State := { s with host := cs.map .command }

/-- The run of a program of `L` commands has ended (R242). -/
def runEnded (L : Nat) (s : State) : Bool := s.pc.toNat == L

/-- The run completed without error (R242). -/
def runCompleted (L : Nat) (s : State) : Bool := runEnded L s && statusErr s.status == 0

/-- The host reads `x[r]` (R240). -/
def hostReadReg (s : State) (r : Reg) : Word64 := getReg s r

/-- The host reads a byte of `MEM`; it has no such move outside `0 .. MEM_SIZE-1` (R240). -/
def hostReadMem (cfg : Config) (s : State) (a : Nat) : Option Byte :=
  if a < cfg.memSize then some (memGet s.mem a) else none

/-- The host reads register number 0 `STATUS`, 1 `EPC`, 2 `EINFO` (R240, 10_state.md R26 to R28). -/
def hostReadControl (s : State) (n : Fin 3) : Word64 :=
  match n with
  | 0 => s.status
  | 1 => s.epc
  | 2 => s.einfo

/-- The host reads `pc` (R240). -/
def hostReadPc (s : State) : Word64 := s.pc

/-- What the verification port shows a test bench, and no host: the secret state (10_state.md R41). -/
def verificationPort (s : State) : IdeaContext × WakeContext := (s.idea, s.ww)

end Sys2Proof.Machine
end

