-- ==== Sys2Proof/Machine/Step.lean ====
section
/-! DEFINITION. One step of the core: the host's oldest waiting move
(spec/70_reset_and_hazards.md R242). -/

namespace Sys2Proof.Machine

/-- One step, at the default configuration (DESIGN CHOICE, notes/assumptions/1.md). -/
def step (s : State) : Host.Outcome State Fault Refusal := takeMove Config.std exec s

/-- `s` with a table word as the next command the host presents: a program is loaded from outside the
machine, since commands are not stored in it (30_encoding.md R70; DESIGN CHOICE, notes/assumptions/2.md). -/
def State.withFetchWord (s : State) (nbits w : Nat) : State :=
  presentWord (BitVec.ofNat 32 (w % 2 ^ nbits)) s

end Sys2Proof.Machine
end

