-- ==== Sys2Proof/Machine/Assembly.lean ====
section
/-! DEFINITION. The assembler's notation and pseudo-commands (spec/30_encoding.md R80, R81). The hardware
knows only the 31 commands; nothing here is part of a step. -/

namespace Sys2Proof.Machine

/-- The mandatory width suffix (R80). -/
def widthSuffix : Width → String
  | .w8 => ".8"
  | .w16 => ".16"
  | .w32 => ".32"
  | .w64 => ".64"

/-- `x0` to `x7` (R80). -/
def regName (r : Reg) : String := "x" ++ toString r.val

/-- One line of assembly: the mnemonic, then the operands separated by commas (R80). -/
def asmLine (mnemonic : String) : List String → String
  | [] => mnemonic
  | ops => mnemonic ++ " " ++ ", ".intercalate ops

/-- A line with a width and registers. -/
def asmW (i : Instr) (w : Width) (rs : List Reg) : String :=
  asmLine (i.row.mnemonic ++ widthSuffix w) (rs.map regName)

/-- A line with registers only. -/
def asmR (i : Instr) (rs : List Reg) : String := asmLine i.row.mnemonic (rs.map regName)

/-- The assembly text of a command; immediates in decimal (R80). -/
def toAssembly (i : Instr) : String :=
  match i with
  | .nop | .clrerr | .ideaclr | .wwgen | .wwclr => asmR i []
  | .ldi rd imm | .ldis rd imm => asmLine i.row.mnemonic [regName rd, toString imm.toNat]
  | .ld w rd ra => asmW i w [rd, ra]
  | .st w rs ra => asmW i w [rs, ra]
  | .expmask w rd rs | .exptop w rd rs | .iszero w rd rs => asmW i w [rd, rs]
  | .iseq w rd ra rb | .islt w rd ra rb | .islte w rd ra rb => asmW i w [rd, ra, rb]
  | .sel w rd rm rt rf => asmW i w [rd, rm, rt, rf]
  | .sel2 w rd rm0 rv0 rm1 rv1 ro => asmW i w [rd, rm0, rv0, rm1, rv1, ro]
  | .sel3 w rd rm0 rv0 rm1 rv1 rm2 rv2 ro => asmW i w [rd, rm0, rv0, rm1, rv1, rm2, rv2, ro]
  | .ccopy w rc rto rf0 rf1 rn => asmW i w [rc, rto, rf0, rf1, rn]
  | .czero w rc ra rn => asmW i w [rc, ra, rn]
  | .striplz rd rl ra rn => asmR i [rd, rl, ra, rn]
  | .poison ra rn | .unpoison ra rn => asmR i [ra, rn]
  | .ideaks ra rn | .wwks ra rn | .wwsiv ra rn => asmR i [ra, rn]
  | .ideaenc ri ro rn | .ideadec ri ro rn | .wwciph ri ro rn => asmR i [ri, ro, rn]
  | .wwmix rd => asmR i [rd]
  | .wwviv rd rs => asmR i [rd, rs]

/-- `v[16k+15 : 16k]`. -/
def halfOf (v : Word64) (k : Nat) : Word16 := v.extractLsb' (16 * k) 16

/-- `LI rd, v`: one `LDI` and as many `LDIS` as the value needs (R81). -/
def pseudoLi (rd : Reg) (v : Word64) : List Instr :=
  if v.toNat < 2 ^ 16 then [.ldi rd (halfOf v 0)]
  else if v.toNat < 2 ^ 32 then [.ldi rd (halfOf v 1), .ldis rd (halfOf v 0)]
  else if v.toNat < 2 ^ 48 then [.ldi rd (halfOf v 2), .ldis rd (halfOf v 1), .ldis rd (halfOf v 0)]
  else [.ldi rd (halfOf v 3), .ldis rd (halfOf v 2), .ldis rd (halfOf v 1), .ldis rd (halfOf v 0)]

/-- `MOV rd, rs` is `SEL.64 rd, rs, rs, rs` (R81). -/
def pseudoMov (rd rs : Reg) : List Instr := [.sel .w64 rd rs rs rs]

/-- `ISNZ.W rd, rs` is `EXPMASK.W rd, rs` (R81). -/
def pseudoIsnz (w : Width) (rd rs : Reg) : List Instr := [.expmask w rd rs]

end Sys2Proof.Machine
end

