-- ==== Sys2Proof/Machine/Parametric.lean ====
section
/-! DEFINITION. The machine at any configuration (spec/00_scope.md R6: "A model takes `MEM_SIZE`,
`WW_BUF_LEN` and the four `WW_*` functions as arguments"), and the accesses a command makes to `MEM`
(spec/20_memory.md R56, R65), computed by the operations the meanings use. -/

namespace Sys2Proof.Machine

/-- The meaning of a command at the configuration `cfg`; `exec` is this at `Config.std`. -/
def execIn (cfg : Config) (i : Instr) (s : State) : Result :=
  match i with
  | .nop => execNop s
  | .ldi rd imm => execLdi rd imm s
  | .ldis rd imm => execLdis rd imm s
  | .ld w rd ra => execLd w rd ra s cfg
  | .st w rs ra => execSt w rs ra s cfg
  | .clrerr => execClrerr s
  | .expmask w rd rs => execExpmask w rd rs s
  | .exptop w rd rs => execExptop w rd rs s
  | .iszero w rd rs => execIszero w rd rs s
  | .iseq w rd ra rb => execIseq w rd ra rb s
  | .islt w rd ra rb => execIslt w rd ra rb s
  | .islte w rd ra rb => execIslte w rd ra rb s
  | .sel w rd rm rt rf => execSel w rd rm rt rf s
  | .sel2 w rd rm0 rv0 rm1 rv1 ro => execSel2 w rd rm0 rv0 rm1 rv1 ro s
  | .sel3 w rd rm0 rv0 rm1 rv1 rm2 rv2 ro => execSel3 w rd rm0 rv0 rm1 rv1 rm2 rv2 ro s
  | .ccopy w rc rto rf0 rf1 rn => execCcopy w rc rto rf0 rf1 rn s cfg
  | .czero w rc ra rn => execCzero w rc ra rn s cfg
  | .striplz rd rl ra rn => execStriplz rd rl ra rn s cfg
  | .poison ra rn => execPoison ra rn s
  | .unpoison ra rn => execUnpoison ra rn s
  | .ideaks ra rn => execIdeaks ra rn s cfg
  | .ideaenc ri ro rn => execIdeaenc ri ro rn s cfg
  | .ideadec ri ro rn => execIdeadec ri ro rn s cfg
  | .ideaclr => execIdeaclr s
  | .wwks ra rn => execWwks ra rn s cfg
  | .wwsiv ra rn => execWwsiv ra rn s cfg
  | .wwgen => execWwgen s cfg
  | .wwmix rd => execWwmix rd s cfg
  | .wwciph ri ro rn => execWwciph ri ro rn s cfg
  | .wwclr => execWwclr s cfg
  | .wwviv rd rs => execWwviv rd rs s

/-- One step at the configuration `cfg`; `step` is this at `Config.std`. -/
def stepIn (cfg : Config) (s : State) : Result := takeMove cfg (execIn cfg) s

/-- `k` steps at the configuration `cfg`. -/
def runIn (cfg : Config) : Nat → State → Result
  | 0, s => .next s
  | k + 1, s =>
    match stepIn cfg s with
    | .next t => runIn cfg k t
    | .fault r => .fault r
    | .refused r => .refused r

/-- The accesses a command makes to `MEM`, in order; none when it raises an error (20_memory.md R65). -/
def accesses (cfg : Config) (i : Instr) (s : State) : List Access :=
  match i with
  | .ld w _ ra =>
    guardedLog (loadStoreChecks cfg w ra s) fun _ => (loadBus w (natReg s ra) (busStart s.mem)).2.log
  | .st w rs ra =>
    guardedLog (loadStoreChecks cfg w ra s) fun _ =>
      (storeBus w (xw w s rs) (natReg s ra) (busStart s.mem)).log
  | .ccopy w rc rto rf0 rf1 rn =>
    guardedLog (ccopyChecks cfg w rto rf0 rf1 rn s) fun _ => (ccopyEnd w rc rto rf0 rf1 rn s).log
  | .czero w rc ra rn => guardedLog (czeroChecks cfg w ra rn s) fun _ => (czeroEnd w rc ra rn s).log
  | .striplz _ _ ra rn => guardedLog (striplzChecks cfg ra rn s) fun _ => (stripEnd ra rn s).bus.log
  | .ideaks ra rn | .wwks ra rn =>
    guardedLog (keyChecks cfg ra rn s) fun _ => (keyBus (natReg s ra) (busStart s.mem)).2.log
  | .ideaenc ri ro rn =>
    guardedLog (blockChecks cfg ri ro rn s) fun _ => (blocksEnd s.idea.ek ri ro rn s).log
  | .ideadec ri ro rn =>
    guardedLog (blockChecks cfg ri ro rn s) fun _ => (blocksEnd s.idea.dk ri ro rn s).log
  | .wwsiv ra rn =>
    guardedLog (ivChecks cfg ra rn s) fun _ => (ivBus (natReg s ra) (busStart s.mem)).2.log
  | .wwciph ri ro rn =>
    guardedLog (cipherChecks cfg ri ro rn s) fun _ => (cipherEnd cfg ri ro rn s).1.log
  | .nop | .ldi _ _ | .ldis _ _ | .clrerr => []
  | .expmask _ _ _ | .exptop _ _ _ | .iszero _ _ _ => []
  | .iseq _ _ _ _ | .islt _ _ _ _ | .islte _ _ _ _ => []
  | .sel _ _ _ _ _ | .sel2 _ _ _ _ _ _ _ | .sel3 _ _ _ _ _ _ _ _ _ => []
  | .poison _ _ | .unpoison _ _ => []
  | .ideaclr | .wwgen | .wwmix _ | .wwclr | .wwviv _ _ => []

end Sys2Proof.Machine
end

