-- ==== Sys2Proof/Safety.lean ====
section
/-! DEFINITION. The terms claims are stated in: what a command may change, when it records an error, which
accesses it may make, the keystream as the spec gives it, and the invariant of the machine. -/

namespace Sys2Proof.Machine

/-! ### Encodings -/

/-- The word with this opcode, this `w` field, these register fields in order and zeros elsewhere
(30_encoding.md R71, R72) decodes to `i`. -/
def Encodes (i : Instr) (op w : Nat) (fs : List Reg) : Prop :=
  decode (BitVec.ofNat 32 (op * 2 ^ 26 + w * 2 ^ 24 + packRegs 0 fs)) = .ok i

/-! ### Frames -/

/-- Nothing outside the registers and `MEM` changed but `pc`, which counted the command. -/
structure SameControl (s t : State) : Prop where
  pc : t.pc = s.pc + 1
  status : t.status = s.status
  epc : t.epc = s.epc
  einfo : t.einfo = s.einfo
  idea : t.idea = s.idea
  ww : t.ww = s.ww
  host : t.host = s.host

/-- Only `x[rd]` and `pc` may have changed. -/
structure OnlyReg (rd : Reg) (s t : State) : Prop where
  control : SameControl s t
  regs : ∀ q, q ≠ rd → getReg t q = getReg s q
  mem : t.mem = s.mem

/-- Only `MEM` and `pc` may have changed. -/
structure OnlyMem (s t : State) : Prop where
  control : SameControl s t
  regs : t.x = s.x

/-- The command completes, `x[rd]` is the number `v`, nothing else changed but `pc`, and `MEM` was not
accessed. -/
def Computes (i : Instr) (s : State) (rd : Reg) (v : Nat) : Prop :=
  (∃ t, exec i s = .next t ∧ OnlyReg rd s t ∧ natReg t rd = v) ∧ accesses Config.std i s = []

/-! ### Errors -/

/-- The whole effect of `raise` (60_exceptions.md R203): the first error is recorded, a later one is not,
`pc` advances, and nothing else changes. -/
structure Recorded (s t : State) (code : BitVec 3) (info : Word64) : Prop where
  pc : t.pc = s.pc + 1
  first : statusErr s.status = 0 → statusErr t.status = code ∧ t.epc = s.pc ∧ t.einfo = info
  sticky : statusErr s.status ≠ 0 →
    statusErr t.status = statusErr s.status ∧ t.epc = s.epc ∧ t.einfo = s.einfo
  otherStatus : ∀ k, 3 ≤ k → t.status.getLsbD k = s.status.getLsbD k
  regs : t.x = s.x
  mem : t.mem = s.mem
  idea : t.idea = s.idea
  ww : t.ww = s.ww
  host : t.host = s.host

/-- The range of `n` bytes at `a` is in `MEM`, or empty (20_memory.md R53). -/
def Fits (cfg : Config) (a n : Nat) : Prop := n = 0 ∨ a + n ≤ cfg.memSize

/-- `AccessFault` of one range (60_exceptions.md R202). -/
def rangeError (cfg : Config) (a : Word64) (n : Nat) : Option (BitVec 3 × Word64) :=
  if n ≠ 0 ∧ cfg.memSize < a.toNat + n then some (4, a) else none

/-- The error a command raises, as 60_exceptions.md R200, R202, R205, R206 and R209 list them: its code
and its `EINFO`. -/
def errorOf (cfg : Config) (i : Instr) (s : State) : Option (BitVec 3 × Word64) :=
  match i with
  | .ld w _ ra | .st w _ ra => rangeError cfg (getReg s ra) (wBytes w)
  | .ccopy w _ rto rf0 rf1 rn =>
    let n := natReg s rn * wBytes w
    ((rangeError cfg (getReg s rto) n).or (rangeError cfg (getReg s rf0) n)).or
      (rangeError cfg (getReg s rf1) n)
  | .czero w _ ra rn => rangeError cfg (getReg s ra) (natReg s rn * wBytes w)
  | .striplz _ _ ra rn => rangeError cfg (getReg s ra) (natReg s rn)
  | .ideaks ra rn | .wwks ra rn =>
    if getReg s rn ≠ 16 then some (1, getReg s rn) else rangeError cfg (getReg s ra) 16
  | .wwsiv ra rn => if getReg s rn ≠ 8 then some (2, getReg s rn) else rangeError cfg (getReg s ra) 8
  | .ideaenc ri ro rn | .ideadec ri ro rn =>
    (rangeError cfg (getReg s ri) (8 * natReg s rn)).or (rangeError cfg (getReg s ro) (8 * natReg s rn))
  | .wwciph ri ro rn =>
    (rangeError cfg (getReg s ri) (natReg s rn)).or (rangeError cfg (getReg s ro) (natReg s rn))
  | .nop | .ldi _ _ | .ldis _ _ | .clrerr => none
  | .expmask _ _ _ | .exptop _ _ _ | .iszero _ _ _ => none
  | .iseq _ _ _ _ | .islt _ _ _ _ | .islte _ _ _ _ => none
  | .sel _ _ _ _ _ | .sel2 _ _ _ _ _ _ _ | .sel3 _ _ _ _ _ _ _ _ _ => none
  | .poison _ _ | .unpoison _ _ => none
  | .ideaclr | .wwgen | .wwmix _ | .wwclr | .wwviv _ _ => none

/-- Where the spec lists an error for the command, it records that error and touches no byte of `MEM`. -/
def FailsAsListed (i : Instr) (s : State) : Prop :=
  ∀ code info, errorOf Config.std i s = some (code, info) →
    (∃ t, exec i s = .next t ∧ Recorded s t code info) ∧ accesses Config.std i s = []

/-! ### Registers a command reads as public operands, and writes -/

/-- The address, length and count registers of a command (20_memory.md R65): its only operands that may
shape its accesses and its errors. -/
def publicRegs : Instr → List Reg
  | .ld _ _ ra | .st _ _ ra => [ra]
  | .ccopy _ _ rto rf0 rf1 rn => [rto, rf0, rf1, rn]
  | .czero _ _ ra rn | .striplz _ _ ra rn => [ra, rn]
  | .ideaks ra rn | .wwks ra rn | .wwsiv ra rn => [ra, rn]
  | .ideaenc ri ro rn | .ideadec ri ro rn | .wwciph ri ro rn => [ri, ro, rn]
  | .nop | .ldi _ _ | .ldis _ _ | .clrerr => []
  | .expmask _ _ _ | .exptop _ _ _ | .iszero _ _ _ => []
  | .iseq _ _ _ _ | .islt _ _ _ _ | .islte _ _ _ _ => []
  | .sel _ _ _ _ _ | .sel2 _ _ _ _ _ _ _ | .sel3 _ _ _ _ _ _ _ _ _ => []
  | .poison _ _ | .unpoison _ _ => []
  | .ideaclr | .wwgen | .wwmix _ | .wwclr | .wwviv _ _ => []

/-- The registers a command writes (10_state.md R22). -/
def destRegs : Instr → List Reg
  | .ldi rd _ | .ldis rd _ | .ld _ rd _ => [rd]
  | .expmask _ rd _ | .exptop _ rd _ | .iszero _ rd _ => [rd]
  | .iseq _ rd _ _ | .islt _ rd _ _ | .islte _ rd _ _ => [rd]
  | .sel _ rd _ _ _ | .sel2 _ rd _ _ _ _ _ | .sel3 _ rd _ _ _ _ _ _ _ => [rd]
  | .striplz rd rl _ _ => [rd, rl]
  | .wwmix rd | .wwviv rd _ => [rd]
  | .nop | .st _ _ _ | .clrerr | .ccopy _ _ _ _ _ _ | .czero _ _ _ _ | .poison _ _ | .unpoison _ _ => []
  | .ideaks _ _ | .ideaenc _ _ _ | .ideadec _ _ _ | .ideaclr => []
  | .wwks _ _ | .wwsiv _ _ | .wwgen | .wwciph _ _ _ | .wwclr => []

/-- Two states agree on the public operands of a command. -/
def SamePublic (i : Instr) (s t : State) : Prop := ∀ r, r ∈ publicRegs i → getReg s r = getReg t r

/-! ### Accesses, from the tables of 20_memory.md R56 and R65 -/

/-- The accesses of a command that raises no error, in order. -/
def listedAccesses (i : Instr) (s : State) : List Access :=
  match i with
  | .ld w _ ra => readsAt (natReg s ra) (wBytes w)
  | .st w _ ra => writesAt (natReg s ra) (wBytes w)
  | .ccopy w _ rto rf0 rf1 rn =>
    (List.range (natReg s rn)).flatMap fun j =>
      readsAt (natReg s rf0 + j * wBytes w) (wBytes w) ++ readsAt (natReg s rf1 + j * wBytes w) (wBytes w) ++
        writesAt (natReg s rto + j * wBytes w) (wBytes w)
  | .czero w _ ra rn =>
    (List.range (natReg s rn)).flatMap fun j =>
      readsAt (natReg s ra + j * wBytes w) (wBytes w) ++ writesAt (natReg s ra + j * wBytes w) (wBytes w)
  | .striplz _ _ ra rn => readsAt (natReg s ra) (natReg s rn)
  | .ideaks ra _ | .wwks ra _ => readsAt (natReg s ra) 16
  | .wwsiv ra _ => readsAt (natReg s ra) 8
  | .ideaenc ri ro rn | .ideadec ri ro rn =>
    (List.range (natReg s rn)).flatMap fun j =>
      readsAt (natReg s ri + 8 * j) 8 ++ writesAt (natReg s ro + 8 * j) 8
  | .wwciph ri ro rn =>
    (List.range (natReg s rn)).flatMap fun j => [.read (natReg s ri + j), .write (natReg s ro + j)]
  | .nop | .ldi _ _ | .ldis _ _ | .clrerr => []
  | .expmask _ _ _ | .exptop _ _ _ | .iszero _ _ _ => []
  | .iseq _ _ _ _ | .islt _ _ _ _ | .islte _ _ _ _ => []
  | .sel _ _ _ _ _ | .sel2 _ _ _ _ _ _ _ | .sel3 _ _ _ _ _ _ _ _ _ => []
  | .poison _ _ | .unpoison _ _ => []
  | .ideaclr | .wwgen | .wwmix _ | .wwclr | .wwviv _ _ => []

/-- The address of an access. -/
def Access.address : Access → Nat
  | .read a => a
  | .write a => a

/-- The commands that write key-dependent bytes to `MEM` (10_state.md R36). -/
def writesKeyed : Instr → Bool
  | .ideaenc _ _ _ | .ideadec _ _ _ | .wwciph _ _ _ => true
  | .nop | .ldi _ _ | .ldis _ _ | .ld _ _ _ | .st _ _ _ | .clrerr => false
  | .expmask _ _ _ | .exptop _ _ _ | .iszero _ _ _ => false
  | .iseq _ _ _ _ | .islt _ _ _ _ | .islte _ _ _ _ => false
  | .sel _ _ _ _ _ | .sel2 _ _ _ _ _ _ _ | .sel3 _ _ _ _ _ _ _ _ _ => false
  | .ccopy _ _ _ _ _ _ | .czero _ _ _ _ | .striplz _ _ _ _ | .poison _ _ | .unpoison _ _ => false
  | .ideaks _ _ | .ideaclr | .wwks _ _ | .wwsiv _ _ | .wwgen | .wwmix _ | .wwclr | .wwviv _ _ => false

/-- The one register that receives a keystream word (10_state.md R36, 46_widerwake.md R181). -/
def keyedRegs : Instr → List Reg
  | .wwmix rd => [rd]
  | .nop | .ldi _ _ | .ldis _ _ | .ld _ _ _ | .st _ _ _ | .clrerr => []
  | .expmask _ _ _ | .exptop _ _ _ | .iszero _ _ _ => []
  | .iseq _ _ _ _ | .islt _ _ _ _ | .islte _ _ _ _ => []
  | .sel _ _ _ _ _ | .sel2 _ _ _ _ _ _ _ | .sel3 _ _ _ _ _ _ _ _ _ => []
  | .ccopy _ _ _ _ _ _ | .czero _ _ _ _ | .striplz _ _ _ _ | .poison _ _ | .unpoison _ _ => []
  | .ideaks _ _ | .ideaenc _ _ _ | .ideadec _ _ _ | .ideaclr => []
  | .wwks _ _ | .wwsiv _ _ | .wwgen | .wwciph _ _ _ | .wwclr | .wwviv _ _ => []

/-- Copying upwards from `src` to `dst` never overwrites a byte before it is read: the ranges are
disjoint, the same, or `dst` lies lower (20_memory.md R66). -/
def CopySafe (src dst n : Nat) : Prop := dst ≤ src ∨ src + n ≤ dst

/-- Two ranges share no byte. -/
def Apart (a m b n : Nat) : Prop := m = 0 ∨ n = 0 ∨ a + m ≤ b ∨ b + n ≤ a

/-! ### The keystream, as 46_widerwake.md R186 writes it -/

/-- `state` after `n` steps of `WW_MIX`. -/
def mixState (cfg : Config) (k : WakeKey) (T : WakeTable) (st : WakeState) : Nat → WakeState
  | 0 => st
  | n + 1 => (cfg.wwMix (mixState cfg k T st n) k T).2

/-- `w_n`, the word of step `n`. -/
def mixWord (cfg : Config) (k : WakeKey) (T : WakeTable) (st : WakeState) (n : Nat) : Word32 :=
  (cfg.wwMix (mixState cfg k T st n) k T).1

/-- Byte `j` of `BE_4(w_0) ++ BE_4(w_1) ++ ...`. -/
def ksByte (cfg : Config) (k : WakeKey) (T : WakeTable) (st : WakeState) (j : Nat) : Byte :=
  (mixWord cfg k T st (j / 4)).extractLsb' (24 - 8 * (j % 4)) 8

/-- The keystream byte that the `j`-th next byte of `WWCIPH` uses: what is left of `buffer`, then the
successive words from `state` (R182, R184). -/
def streamByte (cfg : Config) (c : WakeContext) (j : Nat) : Byte :=
  if c.position + j < cfg.bufLen then c.buffer.getD (c.position + j) 0
  else ksByte cfg c.tKey c.table c.state (c.position + j - cfg.bufLen)

/-! ### Runs -/

/-- Commands one after the other at the configuration `cfg`. -/
def execSeq (cfg : Config) : List Instr → State → Result
  | [], s => .next s
  | i :: is, s =>
    match execIn cfg i s with
    | .next t => execSeq cfg is t
    | .fault f => .fault f
    | .refused r => .refused r

/-! ### The invariant -/

/-- What holds after reset and is kept by every step. -/
structure Inv (cfg : Config) (s : State) : Prop where
  /-- the memory is in its canonical form -/
  memCanonical : Memory.wf s.mem = true
  /-- only addresses of `MEM` are listed (20_memory.md R50) -/
  memInMem : memInside cfg.memSize s.mem = true
  /-- `position <= WW_BUF_LEN` (10_state.md R35, 46_widerwake.md R185) -/
  positionLe : s.ww.position ≤ cfg.bufLen
  /-- `buffer` has `WW_BUF_LEN` bytes (10_state.md R34) -/
  bufferLength : s.ww.buffer.length = cfg.bufLen
  /-- error codes 5 to 7 are never produced (10_state.md R26) -/
  errLe : (statusErr s.status).toNat ≤ 4
  /-- reserved bits of `STATUS` read 0 (R26) -/
  reservedZero : s.status &&& statusReserved = 0
  /-- while no error is recorded `EPC` and `EINFO` read 0 (R27, R28) -/
  quiet : statusErr s.status = 0 → s.epc = 0 ∧ s.einfo = 0
  /-- `DK = idea_invert(EK)` at all times (R30) -/
  inverse : s.idea.dk = ideaInvert s.idea.ek
  /-- `IDEA_KEYED = 0` only with the tables of reset (R26, 70_reset_and_hazards.md R243) -/
  unkeyedIdea : statusIdeaKeyed s.status = false → s.idea = IdeaContext.zero
  /-- `WW_KEYED = 0` only with the table and key of reset (R26, R243) -/
  unkeyedWake : statusWwKeyed s.status = false →
    s.ww.table = Vector.replicate 256 0 ∧ s.ww.tKey = Vector.replicate 4 0

end Sys2Proof.Machine
end

