-- ==== Sys2Proof/Certificates/Slice0/Obligations.lean ====
section
/-! DEFINITION. The statements for the provers. Each says what a numbered rule of spec/ says of the core
(`exec` and `step`, at the default configuration), or of the machine at every configuration (`execIn`). -/

section Statements

open Sys2Proof Sys2Proof.Machine

/-! ### Encoding (spec/30_encoding.md) -/

/-- Decoding the word of a command gives the command back, with every operand (R71, R72, R75, R76). -/
def Obligations.DecodeEncode : Prop := ∀ i : Instr, decode (encode i) = .ok i

/-- A word that decodes is the word of its command: no two words mean one command (R72, R77). -/
def Obligations.EncodeDecode : Prop := ∀ (c : Word32) (i : Instr), decode c = .ok i → encode i = c

/-- R75: a word `c` is a command of a row exactly when `c & mask = match`. -/
def Obligations.WordIsItsRow : Prop :=
  ∀ (c : Word32) (i : Instr),
    c &&& i.row.mask = i.row.matchBits ↔ ∃ j, decode c = .ok j ∧ j.row = i.row

/-- R82: the worked encodings of the spec, one of each command, written out in the spec bit by bit. -/
def Obligations.WorkedEncodings : Prop :=
  decode 0x00000000 = .ok .nop ∧
  decode 0x04201234 = .ok (.ldi 1 0x1234) ∧
  decode 0x0860BEEF = .ok (.ldis 3 0xBEEF) ∧
  decode 0x0C680000 = .ok (.ld .w8 3 2) ∧
  decode 0x0FF00000 = .ok (.ld .w64 7 4) ∧
  decode 0x12280000 = .ok (.st .w32 1 2) ∧
  decode 0x14000000 = .ok .clrerr ∧
  decode 0x42280000 = .ok (.expmask .w32 1 2) ∧
  decode 0x44FC0000 = .ok (.exptop .w8 7 7) ∧
  decode 0x49040000 = .ok (.iszero .w16 0 1) ∧
  decode 0x52298000 = .ok (.iseq .w32 1 2 3) ∧
  decode 0x55650000 = .ok (.islt .w16 3 1 2) ∧
  decode 0x5B000000 = .ok (.islte .w64 0 0 0) ∧
  decode 0x6029C000 = .ok (.sel .w8 1 2 3 4) ∧
  decode 0x67053940 = .ok (.sel2 .w64 0 1 2 3 4 5) ∧
  decode 0x6A053977 = .ok (.sel3 .w32 0 1 2 3 4 5 6 7) ∧
  decode 0x6C29CA00 = .ok (.ccopy .w8 1 2 3 4 5) ∧
  decode 0x70298000 = .ok (.czero .w8 1 2 3) ∧
  decode 0x7429C000 = .ok (.striplz 1 2 3 4) ∧
  decode 0x78280000 = .ok (.poison 1 2) ∧
  decode 0x7C280000 = .ok (.unpoison 1 2) ∧
  decode 0x80280000 = .ok (.ideaks 1 2) ∧
  decode 0x84298000 = .ok (.ideaenc 1 2 3) ∧
  decode 0x88298000 = .ok (.ideadec 1 2 3) ∧
  decode 0x8C000000 = .ok .ideaclr ∧
  decode 0xA0280000 = .ok (.wwks 1 2) ∧
  decode 0xA4280000 = .ok (.wwsiv 1 2) ∧
  decode 0xA8000000 = .ok .wwgen ∧
  decode 0xAC600000 = .ok (.wwmix 3) ∧
  decode 0xB0298000 = .ok (.wwciph 1 2 3) ∧
  decode 0xB4000000 = .ok .wwclr ∧
  decode 0xB8280000 = .ok (.wwviv 1 2)

/-- R77, R201: the illegal words are exactly the words of no row, an unassigned opcode is one of the 33
listed, and presenting an illegal word records `IllegalCommand` with the word and does nothing else. -/
def Obligations.IllegalWordIsRecorded : Prop :=
  (∀ c : Word32, (∃ e, decode c = .error e) ↔ ∀ i : Instr, c &&& i.row.mask ≠ i.row.matchBits) ∧
  (∀ c : Word32, decode c = .error .unassignedOpcode ↔
    (6 ≤ c.toNat / 2 ^ 26 ∧ c.toNat / 2 ^ 26 ≤ 15) ∨ c.toNat / 2 ^ 26 = 0x13 ∨ c.toNat / 2 ^ 26 = 0x17 ∨
      (0x24 ≤ c.toNat / 2 ^ 26 ∧ c.toNat / 2 ^ 26 ≤ 0x27) ∨ 0x2F ≤ c.toNat / 2 ^ 26) ∧
  (∀ (s : State) (c : Word32) (rest : List HostMove) (e : DecodeError),
    s.host = .command c :: rest → decode c = .error e →
      ∃ t, step s = .next t ∧ Recorded { s with host := rest } t 3 (BitVec.ofNat 64 c.toNat))

/-! ### The step, the host, runs (spec/70_reset_and_hazards.md) -/

/-- A presented word that decodes to `i` runs `i`, with nothing around it: the step only takes the word
off the host's list, and `exec` itself counts the command. -/
def Obligations.StepRunsDecoded : Prop :=
  (∀ (s : State) (c : Word32) (rest : List HostMove) (i : Instr),
    s.host = .command c :: rest → decode c = .ok i → step s = exec i { s with host := rest }) ∧
  (∀ (s : State) (c : Word32) (i : Instr),
    decode c = .ok i → step (s.withFetchWord 32 c.toNat) = exec i s)

/-- R24: every command, whether it completes or raises an error, ends with `pc <- pc + 1`. -/
def Obligations.EveryCommandCounts : Prop :=
  ∀ (i : Instr) (s : State), ∃ t, exec i s = .next t ∧ t.pc = s.pc + 1 ∧ t.host = s.host

/-- R210: nothing makes the block stuck. While the waiting moves are moves the host has, every step is a
next state; and no step is ever a fault. -/
def Obligations.StepNeverStops : Prop :=
  (∀ s : State, (∀ m, m ∈ s.host → m.wf Config.std = true) →
    ∃ t, step s = .next t ∧ t.host = s.host.tail ∧ ∀ m, m ∈ t.host → m.wf Config.std = true) ∧
  (∀ (s : State) (f : Fault), step s ≠ .fault f)

/-- R240, R67, R220, R230: the host writes a register, or a byte of `MEM` at an address it has, and
nothing else changes; reset gives the reset state from any state; with no move the block holds all its
state. That a write outside `MEM` is refused, that moves still waiting survive a reset and that a step
with no move answers the same state are the model's own (notes/assumptions/5.md, 4.md, 3.md). -/
def Obligations.HostMoves : Prop :=
  (∀ (s : State) (r : Reg) (v : Word64) (rest : List HostMove), s.host = .writeReg r v :: rest →
    ∃ t, step s = .next t ∧ t = { s with host := rest, x := t.x } ∧ getReg t r = v ∧
      ∀ q, q ≠ r → getReg t q = getReg s q) ∧
  (∀ (s : State) (a : Nat) (b : Byte) (rest : List HostMove), s.host = .writeMem a b :: rest →
    a < Config.std.memSize →
    ∃ t, step s = .next t ∧ t = { s with host := rest, mem := t.mem } ∧ memGet t.mem a = b ∧
      ∀ a', a' ≠ a → memGet t.mem a' = memGet s.mem a') ∧
  (∀ (s : State) (a : Nat) (b : Byte) (rest : List HostMove), s.host = .writeMem a b :: rest →
    Config.std.memSize ≤ a → step s = .refused .hostAddressOutsideMem) ∧
  (∀ (s : State) (rest : List HostMove), s.host = .reset :: rest →
    step s = .next { State.reset with host := rest }) ∧
  (∀ s : State, s.host = [] → step s = .next s)

/-- R42: after reset every piece of state is zero. -/
def Obligations.ResetIsZero : Prop :=
  (∀ r, getReg State.reset r = 0) ∧ State.reset.pc = 0 ∧ State.reset.status = 0 ∧ State.reset.epc = 0 ∧
  State.reset.einfo = 0 ∧ (∀ j, State.reset.idea.ek.get j = 0) ∧ (∀ j, State.reset.idea.dk.get j = 0) ∧
  (∀ j, State.reset.ww.table.get j = 0) ∧ (∀ j, State.reset.ww.state.get j = 0) ∧
  (∀ j, State.reset.ww.tKey.get j = 0) ∧ State.reset.ww.buffer.length = Config.std.bufLen ∧
  (∀ b, b ∈ State.reset.ww.buffer → b = 0) ∧ State.reset.ww.position = 0 ∧
  (∀ a, memGet State.reset.mem a = 0)

/-- R242: a program of `L` words executes `c[0] .. c[L-1]` once each in order, an error stops nothing, and
the run from `pc = 0` ends with `pc = L`. -/
def Obligations.RunEndsAtItsLength : Prop :=
  (∀ (cs : List Word32) (s : State), ∃ t, runIn Config.std cs.length (withProgram cs s) = .next t ∧
    t.host = [] ∧ t.pc = s.pc + BitVec.ofNat 64 cs.length ∧
    (s.pc = 0 → cs.length < 2 ^ 64 → runEnded cs.length t = true)) ∧
  (∀ (c : Word32) (cs : List Word32) (s t : State),
    acceptWord exec c { s with host := [] } = .next t →
    runIn Config.std (cs.length + 1) (withProgram (c :: cs) s) =
      runIn Config.std cs.length (withProgram cs t))

/-! ### Errors (spec/60_exceptions.md) -/

/-- R203 with R202, R205, R206, R209: a command records exactly the error the spec lists for it, touches
no byte of `MEM` and does nothing else; where the spec lists none, it completes and the record stays, but for `CLRERR`. -/
def Obligations.CommandsRecordTheirError : Prop :=
  ∀ (i : Instr) (s : State),
    FailsAsListed i s ∧
    (errorOf Config.std i s = none →
      ∃ t, exec i s = .next t ∧ t.pc = s.pc + 1 ∧
        (i ≠ .clrerr → statusErr t.status = statusErr s.status ∧ t.epc = s.epc ∧ t.einfo = s.einfo))

/-- R204: no error depends on a byte of `MEM`, on a cipher context, or on a register used as data: two
states that agree on the public operands, on `pc` and on the record have the same record afterwards. -/
def Obligations.ErrorsArePublic : Prop :=
  ∀ (i : Instr) (s₁ s₂ t₁ t₂ : State), SamePublic i s₁ s₂ → s₁.pc = s₂.pc →
    statusErr s₁.status = statusErr s₂.status → s₁.epc = s₂.epc → s₁.einfo = s₂.einfo →
    exec i s₁ = .next t₁ → exec i s₂ = .next t₂ →
    statusErr t₁.status = statusErr t₂.status ∧ t₁.epc = t₂.epc ∧ t₁.einfo = t₂.einfo

/-! ### Accesses and frames (spec/10_state.md, spec/20_memory.md) -/

/-- R56, R65: the accesses of each command are those of the table, in the order of its rule, none when it
raises an error; every one of them is inside `MEM`; and the sequence is a function of the command and its
address, length and count registers only. -/
def Obligations.AccessPatternIsPublic : Prop :=
  (∀ (cfg : Config) (i : Instr) (s : State),
    accesses cfg i s = (if errorOf cfg i s = none then listedAccesses i s else []) ∧
    ∀ x, x ∈ accesses cfg i s → x.address < cfg.memSize) ∧
  (∀ (cfg : Config) (i : Instr) (s₁ s₂ : State),
    SamePublic i s₁ s₂ → accesses cfg i s₁ = accesses cfg i s₂)

/-- R51: a command changes exactly the bytes it writes: every byte of `MEM` it makes no write access to
reads as before. -/
def Obligations.MemoryFrame : Prop :=
  ∀ (i : Instr) (s : State), ∃ t, exec i s = .next t ∧
    ∀ a, Access.write a ∉ accesses Config.std i s → memGet t.mem a = memGet s.mem a

/-- R22: a command leaves every register but its destinations unchanged. -/
def Obligations.RegisterFrame : Prop :=
  ∀ (i : Instr) (s : State), ∃ t, exec i s = .next t ∧
    ∀ q, q ∉ destRegs i → getReg t q = getReg s q

/-- R26: a bit of `STATUS` changes only by the commands its row lists: the reserved bits never,
`IDEA_KEYED` by IDEAKS and IDEACLR, `WW_KEYED` by WWKS and WWCLR, `WW_IVSET` by these and WWSIV; and
`ERR` only from 0, or to 0 by CLRERR. -/
def Obligations.StatusFrame : Prop :=
  ∀ (i : Instr) (s : State), ∃ t, exec i s = .next t ∧
    (∀ k, (3 ≤ k ∧ k ≤ 7) ∨ 11 ≤ k → t.status.getLsbD k = s.status.getLsbD k) ∧
    ((∀ ra rn, i ≠ .ideaks ra rn) → i ≠ .ideaclr →
      statusIdeaKeyed t.status = statusIdeaKeyed s.status) ∧
    ((∀ ra rn, i ≠ .wwks ra rn) → i ≠ .wwclr → statusWwKeyed t.status = statusWwKeyed s.status) ∧
    ((∀ ra rn, i ≠ .wwks ra rn) → (∀ ra rn, i ≠ .wwsiv ra rn) → i ≠ .wwclr →
      statusWwIvset t.status = statusWwIvset s.status) ∧
    (i ≠ .clrerr → statusErr s.status ≠ 0 → statusErr t.status = statusErr s.status)

/-- R29 to R36: who writes which part of the cipher contexts. -/
def Obligations.ContextFrame : Prop :=
  ∀ (i : Instr) (s : State), ∃ t, exec i s = .next t ∧
    ((∀ ra rn, i ≠ .ideaks ra rn) → i ≠ .ideaclr → t.idea = s.idea) ∧
    ((∀ ra rn, i ≠ .wwks ra rn) → i ≠ .wwclr → t.ww.table = s.ww.table ∧ t.ww.tKey = s.ww.tKey) ∧
    (i ≠ .wwgen → (∀ ri ro rn, i ≠ .wwciph ri ro rn) → i ≠ .wwclr → t.ww.buffer = s.ww.buffer) ∧
    ((∀ ra rn, i ≠ .wwks ra rn) → (∀ ra rn, i ≠ .wwsiv ra rn) → i ≠ .wwgen →
      (∀ ri ro rn, i ≠ .wwciph ri ro rn) → i ≠ .wwclr → t.ww.position = s.ww.position) ∧
    ((∀ ra rn, i ≠ .wwks ra rn) → (∀ ra rn, i ≠ .wwsiv ra rn) → i ≠ .wwgen → (∀ rd, i ≠ .wwmix rd) →
      (∀ ri ro rn, i ≠ .wwciph ri ro rn) → i ≠ .wwclr → t.ww.state = s.ww.state)

/-- R36, R215: no command copies any part of a cipher context into a register or into `MEM`, except that
WWMIX returns one keystream word and WWCIPH, IDEAENC and IDEADEC write their output bytes: two states
that differ only in the cipher contexts give the same registers, record, `STATUS` and memory elsewhere. -/
def Obligations.SecretsStayInside : Prop :=
  ∀ (i : Instr) (s : State) (ideaCtx : IdeaContext) (wwCtx : WakeContext), ∃ t₁ t₂,
    exec i s = .next t₁ ∧ exec i { s with idea := ideaCtx, ww := wwCtx } = .next t₂ ∧
    t₁.pc = t₂.pc ∧ t₁.status = t₂.status ∧ t₁.epc = t₂.epc ∧ t₁.einfo = t₂.einfo ∧
    (∀ r, r ∉ keyedRegs i → getReg t₁ r = getReg t₂ r) ∧
    (∀ a, ¬ (writesKeyed i = true ∧ Access.write a ∈ accesses Config.std i s) →
      memGet t₁.mem a = memGet t₂.mem a)

/-! ### Support commands (spec/40_host_commands.md) -/

/-- R90, R128, R129: NOP and the hints change only `pc`, whatever the registers hold. -/
def Obligations.NopAndHints : Prop :=
  ∀ (s : State) (ra rn : Reg),
    Encodes .nop 0x00 0 [] ∧ Encodes (.poison ra rn) 0x1E 0 [ra, rn] ∧
    Encodes (.unpoison ra rn) 0x1F 0 [ra, rn] ∧
    ∀ i, i = .nop ∨ i = .poison ra rn ∨ i = .unpoison ra rn →
      exec i s = .next { s with pc := s.pc + 1 } ∧ accesses Config.std i s = []

/-- R91, R92: LDI writes `zext_64(imm16)`; LDIS writes `((x[rd] << 16) | imm16) mod 2^64`. -/
def Obligations.LoadImmediates : Prop :=
  ∀ (s : State) (rd : Reg) (imm : Word16),
    decode (BitVec.ofNat 32 (0x01 * 2 ^ 26 + rd.val * 2 ^ 21 + imm.toNat)) = .ok (.ldi rd imm) ∧
    decode (BitVec.ofNat 32 (0x02 * 2 ^ 26 + rd.val * 2 ^ 21 + imm.toNat)) = .ok (.ldis rd imm) ∧
    Computes (.ldi rd imm) s rd imm.toNat ∧
    Computes (.ldis rd imm) s rd ((natReg s rd * 2 ^ 16 + imm.toNat) % 2 ^ 64)

/-- R93: LD loads the big-endian number of the `W/8` bytes at `x[ra]`, zero-extended, at any alignment, or
records `AccessFault(x[ra])` and leaves `x[rd]`. -/
def Obligations.LoadReadsBigEndian : Prop :=
  ∀ (w : Width) (rd ra : Reg) (s : State),
    Encodes (.ld w rd ra) 0x03 (widthCode w) [rd, ra] ∧
    (natReg s ra + wBytes w ≤ Config.std.memSize →
      (∃ t, exec (.ld w rd ra) s = .next t ∧ OnlyReg rd s t ∧
        natReg t rd = beNat (memRead s.mem (natReg s ra) (wBytes w))) ∧
      accesses Config.std (.ld w rd ra) s = readsAt (natReg s ra) (wBytes w)) ∧
    (Config.std.memSize < natReg s ra + wBytes w →
      (∃ t, exec (.ld w rd ra) s = .next t ∧ Recorded s t 4 (getReg s ra)) ∧
      accesses Config.std (.ld w rd ra) s = [])

/-- R94: ST stores the low `W` bits of `x[rs]`, most significant byte at `x[ra]`, and changes no other
byte, or records `AccessFault(x[ra])` and stores nothing. -/
def Obligations.StoreWritesBigEndian : Prop :=
  ∀ (w : Width) (rs ra : Reg) (s : State),
    Encodes (.st w rs ra) 0x04 (widthCode w) [rs, ra] ∧
    (natReg s ra + wBytes w ≤ Config.std.memSize →
      (∃ t, exec (.st w rs ra) s = .next t ∧ OnlyMem s t ∧
        (∀ j, j < wBytes w → memGet t.mem (natReg s ra + j) =
          BitVec.ofNat 8 (natReg s rs % 2 ^ wBits w / 256 ^ (wBytes w - 1 - j))) ∧
        (∀ a, a < natReg s ra ∨ natReg s ra + wBytes w ≤ a → memGet t.mem a = memGet s.mem a)) ∧
      accesses Config.std (.st w rs ra) s = writesAt (natReg s ra) (wBytes w)) ∧
    (Config.std.memSize < natReg s ra + wBytes w →
      (∃ t, exec (.st w rs ra) s = .next t ∧ Recorded s t 4 (getReg s ra)) ∧
      accesses Config.std (.st w rs ra) s = [])

/-- R54: a mixed-width access sees bytes: after `ST.W`, `LD.W` at the same address returns the stored
value, and a narrower load at a byte inside returns those bytes of it. -/
def Obligations.LoadAfterStore : Prop :=
  ∀ (w w' : Width) (rs ra rd ra' : Reg) (s : State) (j : Nat),
    natReg s ra + wBytes w ≤ Config.std.memSize → j + wBytes w' ≤ wBytes w →
    natReg s ra' = natReg s ra + j →
    ∃ t u, exec (.st w rs ra) s = .next t ∧ exec (.ld w' rd ra') t = .next u ∧
      natReg u rd = natReg s rs % 2 ^ wBits w / 256 ^ (wBytes w - j - wBytes w') % 2 ^ wBits w'

/-- R95: CLRERR sets `STATUS.ERR`, `EPC` and `EINFO` to 0 and leaves everything else. -/
def Obligations.ClearErrorAcknowledges : Prop :=
  ∀ s : State, Encodes .clrerr 0x05 0 [] ∧
    (∃ t, exec .clrerr s = .next t ∧ statusErr t.status = 0 ∧ t.epc = 0 ∧ t.einfo = 0 ∧
      (∀ k, 3 ≤ k → t.status.getLsbD k = s.status.getLsbD k) ∧
      t = { s with pc := s.pc + 1, status := t.status, epc := t.epc, einfo := t.einfo }) ∧
    accesses Config.std .clrerr s = []

/-! ### The constant-time kernel (spec/41, 42, 43, 44) -/

/-- R100 to R103: EXPMASK, EXPTOP and ISZERO return the Mask of their contract, a number 0 or `2^W - 1`,
of the low `W` bits of the source. -/
def Obligations.MaskGeneration : Prop :=
  ∀ (w : Width) (rd rs : Reg) (s : State),
    Encodes (.expmask w rd rs) 0x10 (widthCode w) [rd, rs] ∧
    Encodes (.exptop w rd rs) 0x11 (widthCode w) [rd, rs] ∧
    Encodes (.iszero w rd rs) 0x12 (widthCode w) [rd, rs] ∧
    Computes (.expmask w rd rs) s rd (if natReg s rs % 2 ^ wBits w = 0 then 0 else 2 ^ wBits w - 1) ∧
    Computes (.exptop w rd rs) s rd
      (if 2 ^ (wBits w - 1) ≤ natReg s rs % 2 ^ wBits w then 2 ^ wBits w - 1 else 0) ∧
    Computes (.iszero w rd rs) s rd (if natReg s rs % 2 ^ wBits w = 0 then 2 ^ wBits w - 1 else 0)

/-- R101: the datapath, folding every bit up into the top bit, meets the contract of `expand_mask`. -/
def Obligations.FoldMeetsContract : Prop :=
  ∀ (w : Width) (v : BitVec (wBits w)), expandTopBit (foldUp (foldShifts w) v) = expandMask v

/-- R110 to R113: ISEQ, ISLT and ISLTE return the Mask of the unsigned comparison of the low `W` bits. -/
def Obligations.UnsignedComparison : Prop :=
  ∀ (w : Width) (rd ra rb : Reg) (s : State),
    Encodes (.iseq w rd ra rb) 0x14 (widthCode w) [rd, ra, rb] ∧
    Encodes (.islt w rd ra rb) 0x15 (widthCode w) [rd, ra, rb] ∧
    Encodes (.islte w rd ra rb) 0x16 (widthCode w) [rd, ra, rb] ∧
    Computes (.iseq w rd ra rb) s rd
      (if natReg s ra % 2 ^ wBits w = natReg s rb % 2 ^ wBits w then 2 ^ wBits w - 1 else 0) ∧
    Computes (.islt w rd ra rb) s rd
      (if natReg s ra % 2 ^ wBits w < natReg s rb % 2 ^ wBits w then 2 ^ wBits w - 1 else 0) ∧
    Computes (.islte w rd ra rb) s rd
      (if natReg s ra % 2 ^ wBits w ≤ natReg s rb % 2 ^ wBits w then 2 ^ wBits w - 1 else 0)

/-- R114: the laws of the comparisons, at every width. -/
def Obligations.ComparisonLaws : Prop :=
  ∀ (w : Width) (a b : BitVec (wBits w)),
    ((isLessMask a b = BitVec.allOnes _ ∧ isEqualMask a b = 0 ∧ isLessMask b a = 0) ∨
      (isLessMask a b = 0 ∧ isEqualMask a b = BitVec.allOnes _ ∧ isLessMask b a = 0) ∨
      (isLessMask a b = 0 ∧ isEqualMask a b = 0 ∧ isLessMask b a = BitVec.allOnes _)) ∧
    isLteMask a b = ~~~ isLessMask b a ∧ isZeroMask a = isEqualMask a 0 ∧ isZeroMask a = isLteMask a 0 ∧
    expandMask a = isLessMask 0 a

/-- R121, R124: SEL is a bit-by-bit multiplexer of the low `W` bits, for every mask, proper or not. -/
def Obligations.SelectIsMultiplexer : Prop :=
  ∀ (w : Width) (rd rm rt rf : Reg) (s : State),
    Encodes (.sel w rd rm rt rf) 0x18 (widthCode w) [rd, rm, rt, rf] ∧
    (∃ t, exec (.sel w rd rm rt rf) s = .next t ∧ OnlyReg rd s t ∧
      ∀ k, (getReg t rd).getLsbD k = (decide (k < wBits w) &&
        if (getReg s rm).getLsbD k then (getReg s rt).getLsbD k else (getReg s rf).getLsbD k)) ∧
    accesses Config.std (.sel w rd rm rt rf) s = []

/-- R122, R123: in SEL2 and SEL3 the first mask in argument order whose bit is set decides that bit; none
set takes the last operand. -/
def Obligations.NestedSelectFirstMaskWins : Prop :=
  ∀ (w : Width) (rd rm0 rv0 rm1 rv1 rm2 rv2 ro : Reg) (s : State),
    Encodes (.sel2 w rd rm0 rv0 rm1 rv1 ro) 0x19 (widthCode w) [rd, rm0, rv0, rm1, rv1, ro] ∧
    Encodes (.sel3 w rd rm0 rv0 rm1 rv1 rm2 rv2 ro) 0x1A (widthCode w)
      [rd, rm0, rv0, rm1, rv1, rm2, rv2, ro] ∧
    (∃ t, exec (.sel2 w rd rm0 rv0 rm1 rv1 ro) s = .next t ∧ OnlyReg rd s t ∧
      ∀ k, (getReg t rd).getLsbD k = (decide (k < wBits w) &&
        if (getReg s rm0).getLsbD k then (getReg s rv0).getLsbD k
        else if (getReg s rm1).getLsbD k then (getReg s rv1).getLsbD k
        else (getReg s ro).getLsbD k)) ∧
    (∃ t, exec (.sel3 w rd rm0 rv0 rm1 rv1 rm2 rv2 ro) s = .next t ∧ OnlyReg rd s t ∧
      ∀ k, (getReg t rd).getLsbD k = (decide (k < wBits w) &&
        if (getReg s rm0).getLsbD k then (getReg s rv0).getLsbD k
        else if (getReg s rm1).getLsbD k then (getReg s rv1).getLsbD k
        else if (getReg s rm2).getLsbD k then (getReg s rv2).getLsbD k
        else (getReg s ro).getLsbD k)) ∧
    accesses Config.std (.sel2 w rd rm0 rv0 rm1 rv1 ro) s = [] ∧
    accesses Config.std (.sel3 w rd rm0 rv0 rm1 rv1 rm2 rv2 ro) s = []

/-- R126: CCOPY writes, element by element in ascending order, the element of the source the condition
picks, reading both: this is the result for every overlap of its ranges. Where the upward copy does not run
over its own source, the buffer of that source is copied whole and no other byte changes. -/
def Obligations.ConditionalCopy : Prop :=
  ∀ (w : Width) (rc rto rf0 rf1 rn src : Reg) (s : State),
    src = (if natReg s rc % 2 ^ wBits w = 0 then rf1 else rf0) →
    Encodes (.ccopy w rc rto rf0 rf1 rn) 0x1B (widthCode w) [rc, rto, rf0, rf1, rn] ∧
    (Fits Config.std (natReg s rto) (natReg s rn * wBytes w) →
      Fits Config.std (natReg s rf0) (natReg s rn * wBytes w) →
      Fits Config.std (natReg s rf1) (natReg s rn * wBytes w) →
      ∃ t, exec (.ccopy w rc rto rf0 rf1 rn) s = .next t ∧ OnlyMem s t ∧
        t.mem = (List.range (natReg s rn)).foldl
          (fun m j => memWrite m (natReg s rto + j * wBytes w)
            (memRead m (natReg s src + j * wBytes w) (wBytes w))) s.mem ∧
        (CopySafe (natReg s src) (natReg s rto) (natReg s rn * wBytes w) →
          ∀ a, memGet t.mem a =
            if natReg s rto ≤ a ∧ a < natReg s rto + natReg s rn * wBytes w
            then memGet s.mem (natReg s src + (a - natReg s rto)) else memGet s.mem a) ∧
        accesses Config.std (.ccopy w rc rto rf0 rf1 rn) s =
          listedAccesses (.ccopy w rc rto rf0 rf1 rn) s) ∧
    FailsAsListed (.ccopy w rc rto rf0 rf1 rn) s

/-- R127: CZERO zeroes the buffer when the condition is not zero, and leaves every byte as it was when it
is zero. -/
def Obligations.ConditionalZero : Prop :=
  ∀ (w : Width) (rc ra rn : Reg) (s : State),
    Encodes (.czero w rc ra rn) 0x1C (widthCode w) [rc, ra, rn] ∧
    (Fits Config.std (natReg s ra) (natReg s rn * wBytes w) →
      (∃ t, exec (.czero w rc ra rn) s = .next t ∧ OnlyMem s t ∧
        ∀ a, memGet t.mem a =
          if natReg s rc % 2 ^ wBits w ≠ 0 ∧ natReg s ra ≤ a ∧ a < natReg s ra + natReg s rn * wBytes w
          then 0 else memGet s.mem a) ∧
      accesses Config.std (.czero w rc ra rn) s = listedAccesses (.czero w rc ra rn) s) ∧
    FailsAsListed (.czero w rc ra rn) s

/-- R141: STRIPLZ returns the address and the length of the buffer without its leading zero bytes, reads
every byte whatever it holds, and with `rd = rl` the register ends holding the length. -/
def Obligations.StripLeadingZeros : Prop :=
  ∀ (rd rl ra rn : Reg) (s : State) (lz : Nat),
    lz = ((memRead s.mem (natReg s ra) (natReg s rn)).takeWhile (· == 0#8)).length →
    Encodes (.striplz rd rl ra rn) 0x1D 0 [rd, rl, ra, rn] ∧
    (Fits Config.std (natReg s ra) (natReg s rn) →
      (∃ t, exec (.striplz rd rl ra rn) s = .next t ∧ SameControl s t ∧ t.mem = s.mem ∧
        (rd ≠ rl → natReg t rd = (natReg s ra + lz) % 2 ^ 64) ∧ natReg t rl = natReg s rn - lz ∧
        (∀ q, q ≠ rd → q ≠ rl → getReg t q = getReg s q)) ∧
      accesses Config.std (.striplz rd rl ra rn) s = readsAt (natReg s ra) (natReg s rn)) ∧
    FailsAsListed (.striplz rd rl ra rn) s

/-- R142: with `(p, l)` the pair STRIPLZ returns: `p + l = a + n`, `l <= n`, `l = 0` exactly when all bytes
are zero, `MEM[p] != 0` if `l > 0`, the bytes before `p` are zero, and STRIPLZ of `(p, l)` is `(p, l)`. -/
def Obligations.StripLaws : Prop :=
  ∀ (rd rl ra rn rd' rl' : Reg) (s : State), rd ≠ rl → rd' ≠ rl' →
    Fits Config.std (natReg s ra) (natReg s rn) →
    ∃ t u, exec (.striplz rd rl ra rn) s = .next t ∧ exec (.striplz rd' rl' rd rl) t = .next u ∧
      natReg t rd + natReg t rl = natReg s ra + natReg s rn ∧ natReg t rl ≤ natReg s rn ∧
      (natReg t rl = 0 ↔ ∀ j, j < natReg s rn → memGet s.mem (natReg s ra + j) = 0) ∧
      (0 < natReg t rl → memGet s.mem (natReg t rd) ≠ 0) ∧
      (∀ a, natReg s ra ≤ a → a < natReg t rd → memGet s.mem a = 0) ∧
      natReg u rd' = natReg t rd ∧ natReg u rl' = natReg t rl

/-! ### IDEA (spec/45_idea.md) -/

/-- R153: the branchless datapath of `mul` is multiplication modulo 2^16+1 with 0 for 2^16. -/
def Obligations.BranchlessMultiply : Prop := ∀ a b : Word16, mulBranchless a b = mulMod a b

/-- R154: `inv(a)` is the unique 16-bit `y` with `mul(a, y) = 1`, and `inv(inv(a)) = a`. -/
def Obligations.MultiplicativeInverse : Prop :=
  ∀ a : Word16, mulMod a (invMod a) = 1 ∧ (∀ y, mulMod a y = 1 → y = invMod a) ∧ invMod (invMod a) = a

/-- R152: every bit of `EK[i]` is one key bit, that of word `i mod 8` of the key rotated left `i / 8` times
by 25 bits. -/
def Obligations.KeyExpansionBits : Prop :=
  ∀ (key : BitVec 128) (i : Fin 52) (k : Nat), k < 16 →
    ((ideaExpand key).get i).getLsbD k =
      key.getLsbD ((112 - 16 * (i.val % 8) + k + 2 * 128 - 25 * (i.val / 8)) % 128)

/-- R155: `idea_invert(idea_invert(EK)) = EK`, and the all-zero table is its own inverse. -/
def Obligations.InvertIsInvolution : Prop :=
  (∀ ek : SubkeyTable, ideaInvert (ideaInvert ek) = ek) ∧
  ideaInvert (Vector.replicate 52 0) = Vector.replicate 52 0

/-- R157, R161: the block function under the inverted table undoes it under the table, for every table and
every block, and the reverse. -/
def Obligations.BlockRoundTrip : Prop :=
  ∀ (ek : SubkeyTable) (blk : BitVec 64),
    ideaBlock (ideaBlock blk ek) (ideaInvert ek) = blk ∧ ideaBlock (ideaBlock blk (ideaInvert ek)) ek = blk

/-- R156: IDEAKS loads both tables from the 16 key bytes and sets `IDEA_KEYED`, and changes nothing else;
a length other than 16 is `InvalidKeyLength`, before the range is looked at. -/
def Obligations.IdeaKeySchedule : Prop :=
  ∀ (ra rn : Reg) (s : State) (key : BitVec 128),
    key = BitVec.ofNat 128 (beNat (memRead s.mem (natReg s ra) 16)) →
    Encodes (.ideaks ra rn) 0x20 0 [ra, rn] ∧
    (natReg s rn = 16 → natReg s ra + 16 ≤ Config.std.memSize →
      (∃ t, exec (.ideaks ra rn) s = .next t ∧ t.idea.ek = ideaExpand key ∧
        t.idea.dk = ideaInvert (ideaExpand key) ∧ statusIdeaKeyed t.status = true ∧
        (∀ k, k ≠ 8 → t.status.getLsbD k = s.status.getLsbD k) ∧
        t = { s with pc := s.pc + 1, idea := t.idea, status := t.status }) ∧
      accesses Config.std (.ideaks ra rn) s = readsAt (natReg s ra) 16) ∧
    (natReg s rn ≠ 16 → ∃ t, exec (.ideaks ra rn) s = .next t ∧ Recorded s t 1 (getReg s rn)) ∧
    FailsAsListed (.ideaks ra rn) s

/-- R158, R159: IDEAENC and IDEADEC apply the block function, under `EK` and `DK`, to each 8-byte block in
ascending order; this is the result for every overlap of their ranges. -/
def Obligations.IdeaBlocksByOrder : Prop :=
  ∀ (ri ro rn : Reg) (s : State) (run : SubkeyTable → Memory),
    (∀ K, run K = (List.range (natReg s rn)).foldl
      (fun m b => memWrite m (natReg s ro + 8 * b)
        (beBytes 8 (ideaBlock (BitVec.ofNat 64 (beNat (memRead m (natReg s ri + 8 * b) 8))) K).toNat))
      s.mem) →
    Encodes (.ideaenc ri ro rn) 0x21 0 [ri, ro, rn] ∧ Encodes (.ideadec ri ro rn) 0x22 0 [ri, ro, rn] ∧
    (Fits Config.std (natReg s ri) (8 * natReg s rn) → Fits Config.std (natReg s ro) (8 * natReg s rn) →
      exec (.ideaenc ri ro rn) s = .next { s with pc := s.pc + 1, mem := run s.idea.ek } ∧
      exec (.ideadec ri ro rn) s = .next { s with pc := s.pc + 1, mem := run s.idea.dk } ∧
      accesses Config.std (.ideaenc ri ro rn) s = listedAccesses (.ideaenc ri ro rn) s ∧
      accesses Config.std (.ideadec ri ro rn) s = listedAccesses (.ideadec ri ro rn) s) ∧
    FailsAsListed (.ideaenc ri ro rn) s ∧ FailsAsListed (.ideadec ri ro rn) s

/-- R161: IDEADEC applied to the output of IDEAENC gives the original bytes, and IDEAENC to the output of
IDEADEC, for every key, every block and every count, in every state with `DK = idea_invert(EK)` (the
invariant of R30, stated in StepKeepsInvariant). -/
def Obligations.IdeaRoundTrip : Prop :=
  ∀ (ri ro rb rn : Reg) (s : State), s.idea.dk = ideaInvert s.idea.ek →
    Fits Config.std (natReg s ri) (8 * natReg s rn) → Fits Config.std (natReg s ro) (8 * natReg s rn) →
    Fits Config.std (natReg s rb) (8 * natReg s rn) →
    CopySafe (natReg s ri) (natReg s ro) (8 * natReg s rn) →
    CopySafe (natReg s ro) (natReg s rb) (8 * natReg s rn) →
    (∃ t u, exec (.ideaenc ri ro rn) s = .next t ∧ exec (.ideadec ro rb rn) t = .next u ∧
      memRead u.mem (natReg s rb) (8 * natReg s rn) = memRead s.mem (natReg s ri) (8 * natReg s rn)) ∧
    (∃ t u, exec (.ideadec ri ro rn) s = .next t ∧ exec (.ideaenc ro rb rn) t = .next u ∧
      memRead u.mem (natReg s rb) (8 * natReg s rn) = memRead s.mem (natReg s ri) (8 * natReg s rn))

/-- R160, R183: IDEACLR and WWCLR leave their context all zero, clear its `STATUS` bits, leave everything
else, and are idempotent but for `pc`. -/
def Obligations.ClearCommands : Prop :=
  ∀ s : State,
    Encodes .ideaclr 0x23 0 [] ∧ Encodes .wwclr 0x2D 0 [] ∧
    (∃ t u, exec .ideaclr s = .next t ∧ (∀ j, t.idea.ek.get j = 0) ∧ (∀ j, t.idea.dk.get j = 0) ∧
      statusIdeaKeyed t.status = false ∧ (∀ k, k ≠ 8 → t.status.getLsbD k = s.status.getLsbD k) ∧
      t = { s with pc := s.pc + 1, idea := t.idea, status := t.status } ∧
      exec .ideaclr t = .next u ∧ u = { t with pc := t.pc + 1 }) ∧
    (∃ t u, exec .wwclr s = .next t ∧ (∀ j, t.ww.table.get j = 0) ∧ (∀ j, t.ww.state.get j = 0) ∧
      (∀ j, t.ww.tKey.get j = 0) ∧ t.ww.buffer = List.replicate Config.std.bufLen 0 ∧ t.ww.position = 0 ∧
      statusWwKeyed t.status = false ∧ statusWwIvset t.status = false ∧
      (∀ k, k ≠ 9 → k ≠ 10 → t.status.getLsbD k = s.status.getLsbD k) ∧
      t = { s with pc := s.pc + 1, ww := t.ww, status := t.status } ∧
      exec .wwclr t = .next u ∧ u = { t with pc := t.pc + 1 }) ∧
    accesses Config.std .ideaclr s = [] ∧ accesses Config.std .wwclr s = []

/-! ### WiderWake (spec/46_widerwake.md) -/

/-- R177: WWKS builds the table and `t_key` from the 16 key bytes, runs the zero-IV setup, forces
regeneration, and leaves `buffer` and everything else; a wrong length comes before the range. -/
def Obligations.WakeKeySchedule : Prop :=
  ∀ (ra rn : Reg) (s : State) (key : BitVec 128),
    key = BitVec.ofNat 128 (beNat (memRead s.mem (natReg s ra) 16)) →
    Encodes (.wwks ra rn) 0x28 0 [ra, rn] ∧
    (natReg s rn = 16 → natReg s ra + 16 ≤ Config.std.memSize →
      (∃ t, exec (.wwks ra rn) s = .next t ∧ t.ww.table = Config.std.wwTablegen key ∧
        t.ww.tKey = Config.std.wwTkey key ∧
        t.ww.state = Config.std.wwIvsetup (Config.std.wwTkey key) 0 (Config.std.wwTablegen key) ∧
        t.ww.position = Config.std.bufLen ∧ t.ww.buffer = s.ww.buffer ∧
        statusWwKeyed t.status = true ∧ statusWwIvset t.status = false ∧
        (∀ k, k ≠ 9 → k ≠ 10 → t.status.getLsbD k = s.status.getLsbD k) ∧
        t = { s with pc := s.pc + 1, ww := t.ww, status := t.status }) ∧
      accesses Config.std (.wwks ra rn) s = readsAt (natReg s ra) 16) ∧
    (natReg s rn ≠ 16 → ∃ t, exec (.wwks ra rn) s = .next t ∧ Recorded s t 1 (getReg s rn)) ∧
    FailsAsListed (.wwks ra rn) s

/-- R178: WWSIV derives `state` from the IV with the table and `t_key` it finds, forces regeneration and
sets `WW_IVSET`; a length other than 8 is `InvalidIVLength`, before the range is looked at. -/
def Obligations.WakeSetIv : Prop :=
  ∀ (ra rn : Reg) (s : State) (iv : BitVec 64),
    iv = BitVec.ofNat 64 (beNat (memRead s.mem (natReg s ra) 8)) →
    Encodes (.wwsiv ra rn) 0x29 0 [ra, rn] ∧
    (natReg s rn = 8 → natReg s ra + 8 ≤ Config.std.memSize →
      (∃ t, exec (.wwsiv ra rn) s = .next t ∧
        t.ww = { s.ww with state := Config.std.wwIvsetup s.ww.tKey iv s.ww.table,
                           position := Config.std.bufLen } ∧
        statusWwIvset t.status = true ∧ (∀ k, k ≠ 10 → t.status.getLsbD k = s.status.getLsbD k) ∧
        t = { s with pc := s.pc + 1, ww := t.ww, status := t.status }) ∧
      accesses Config.std (.wwsiv ra rn) s = readsAt (natReg s ra) 8) ∧
    (natReg s rn ≠ 8 → ∃ t, exec (.wwsiv ra rn) s = .next t ∧ Recorded s t 2 (getReg s rn)) ∧
    FailsAsListed (.wwsiv ra rn) s

/-- R179: WWVIV returns the number 1 for the length 8 and 0 for every other 64-bit length. -/
def Obligations.ValidIvLength : Prop :=
  ∀ (rd rs : Reg) (s : State),
    Encodes (.wwviv rd rs) 0x2E 0 [rd, rs] ∧
    Computes (.wwviv rd rs) s rd (if natReg s rs = 8 then 1 else 0)

/-- R180, R181: WWGEN fills the buffer with the bytes of the next `WW_BUF_LEN/4` words and sets `position`
to 0; WWMIX returns one such word and leaves `buffer` and `position`. -/
def Obligations.GenerateAndMix : Prop :=
  ∀ (rd : Reg) (s : State),
    Encodes .wwgen 0x2A 0 [] ∧ Encodes (.wwmix rd) 0x2B 0 [rd] ∧
    (∃ t, exec .wwgen s = .next t ∧
      t.ww.buffer = (List.range Config.std.bufLen).map
        (ksByte Config.std s.ww.tKey s.ww.table s.ww.state) ∧
      t.ww.state = mixState Config.std s.ww.tKey s.ww.table s.ww.state (Config.std.bufLen / 4) ∧
      t.ww.position = 0 ∧ t.ww.table = s.ww.table ∧ t.ww.tKey = s.ww.tKey ∧
      t = { s with pc := s.pc + 1, ww := t.ww }) ∧
    (∃ t, exec (.wwmix rd) s = .next t ∧
      natReg t rd = (mixWord Config.std s.ww.tKey s.ww.table s.ww.state 0).toNat ∧
      (∀ q, q ≠ rd → getReg t q = getReg s q) ∧
      t = { s with
        pc := s.pc + 1
        x := t.x
        ww := { s.ww with state := mixState Config.std s.ww.tKey s.ww.table s.ww.state 1 } }) ∧
    accesses Config.std .wwgen s = [] ∧ accesses Config.std (.wwmix rd) s = []

/-- R182: WWCIPH combines each input byte with the next keystream byte, in ascending order, for every
overlap of its ranges; `position` and `state` move on by the bytes consumed, regenerating lazily. The
premises on `position` and `buffer` are the invariant of R185, stated in StepKeepsInvariant. -/
def Obligations.CipherCombinesKeystream : Prop :=
  ∀ (ri ro rn : Reg) (s : State),
    s.ww.position ≤ Config.std.bufLen → s.ww.buffer.length = Config.std.bufLen →
    Encodes (.wwciph ri ro rn) 0x2C 0 [ri, ro, rn] ∧
    (Fits Config.std (natReg s ri) (natReg s rn) → Fits Config.std (natReg s ro) (natReg s rn) →
      (∃ t, exec (.wwciph ri ro rn) s = .next t ∧
        t = { s with pc := s.pc + 1, mem := t.mem, ww := t.ww } ∧
        t.mem = (List.range (natReg s rn)).foldl
          (fun m k => memSet m (natReg s ro + k)
            (memGet m (natReg s ri + k) ^^^ streamByte Config.std s.ww k)) s.mem ∧
        t.ww.table = s.ww.table ∧ t.ww.tKey = s.ww.tKey ∧
        (natReg s rn = 0 → t.ww = s.ww) ∧
        (0 < natReg s rn →
          t.ww.position = (s.ww.position + natReg s rn - 1) % Config.std.bufLen + 1 ∧
          t.ww.state = mixState Config.std s.ww.tKey s.ww.table s.ww.state
            ((s.ww.position + natReg s rn - 1) / Config.std.bufLen * (Config.std.bufLen / 4))) ∧
        (∀ j, streamByte Config.std t.ww j = streamByte Config.std s.ww (natReg s rn + j))) ∧
      accesses Config.std (.wwciph ri ro rn) s = listedAccesses (.wwciph ri ro rn) s) ∧
    FailsAsListed (.wwciph ri ro rn) s

/-- R182: splitting a length into two commands on consecutive addresses gives the same memory and the same
context as one command, at every configuration and for every overlap. -/
def Obligations.CipherLengthSplits : Prop :=
  ∀ (cfg : Config) (ri ro rn : Reg) (s : State) (x₁ x₂ x₃ : Vector Word64 8) (i o n₁ n₂ : Nat),
    natReg { s with x := x₁ } ri = i → natReg { s with x := x₁ } ro = o →
    natReg { s with x := x₁ } rn = n₁ →
    natReg { s with x := x₂ } ri = i + n₁ → natReg { s with x := x₂ } ro = o + n₁ →
    natReg { s with x := x₂ } rn = n₂ →
    natReg { s with x := x₃ } ri = i → natReg { s with x := x₃ } ro = o →
    natReg { s with x := x₃ } rn = n₁ + n₂ →
    Fits cfg i (n₁ + n₂) → Fits cfg o (n₁ + n₂) →
    ∃ t u v, execIn cfg (.wwciph ri ro rn) { s with x := x₁ } = .next t ∧
      execIn cfg (.wwciph ri ro rn) { t with x := x₂ } = .next u ∧
      execIn cfg (.wwciph ri ro rn) { s with x := x₃ } = .next v ∧ u.mem = v.mem ∧ u.ww = v.ww

/-- R186: after WWKS and WWSIV the output of WWCIPH is `in[k] ^ ks[k]`, the keystream a function of key
and IV only, whatever the block held before; for every instantiation of the parameters. -/
def Obligations.KeystreamOfKeyAndIv : Prop :=
  ∀ (cfg : Config) (rk rl rv rm ri ro rn : Reg) (s : State) (key : BitVec 128) (iv : BitVec 64),
    cfg.wf = true →
    key = BitVec.ofNat 128 (beNat (memRead s.mem (natReg s rk) 16)) →
    iv = BitVec.ofNat 64 (beNat (memRead s.mem (natReg s rv) 8)) →
    natReg s rl = 16 → Fits cfg (natReg s rk) 16 → natReg s rm = 8 → Fits cfg (natReg s rv) 8 →
    Fits cfg (natReg s ri) (natReg s rn) → Fits cfg (natReg s ro) (natReg s rn) →
    CopySafe (natReg s ri) (natReg s ro) (natReg s rn) →
    ∃ t, execSeq cfg [.wwks rk rl, .wwsiv rv rm, .wwciph ri ro rn] s = .next t ∧
      ∀ a, memGet t.mem a =
        if natReg s ro ≤ a ∧ a < natReg s ro + natReg s rn
        then memGet s.mem (natReg s ri + (a - natReg s ro)) ^^^
          ksByte cfg (cfg.wwTkey key) (cfg.wwTablegen key)
            (cfg.wwIvsetup (cfg.wwTkey key) iv (cfg.wwTablegen key)) (a - natReg s ro)
        else memGet s.mem a

/-- R186: the same commands on the output after a fresh WWSIV with the same IV return the input, for every
instantiation of the parameters. -/
def Obligations.CipherIsSelfInverse : Prop :=
  ∀ (cfg : Config) (rk rl rv rm ri ro rb rn : Reg) (s : State),
    cfg.wf = true →
    natReg s rl = 16 → Fits cfg (natReg s rk) 16 → natReg s rm = 8 → Fits cfg (natReg s rv) 8 →
    Fits cfg (natReg s ri) (natReg s rn) → Fits cfg (natReg s ro) (natReg s rn) →
    Fits cfg (natReg s rb) (natReg s rn) →
    CopySafe (natReg s ri) (natReg s ro) (natReg s rn) →
    CopySafe (natReg s ro) (natReg s rb) (natReg s rn) →
    Apart (natReg s ro) (natReg s rn) (natReg s rv) 8 →
    ∃ t, execSeq cfg
        [.wwks rk rl, .wwsiv rv rm, .wwciph ri ro rn, .wwsiv rv rm, .wwciph ro rb rn] s = .next t ∧
      memRead t.mem (natReg s rb) (natReg s rn) = memRead s.mem (natReg s ri) (natReg s rn)

/-- R184: `WW_BUF_LEN` shows only through `position`, `buffer` and the running `state`: from a fresh WWKS
or WWSIV, every sequence of commands other than WWGEN and WWMIX gives the same registers, `MEM`, `STATUS`
and record for two buffer lengths. Where the sequence has a WWCLR, this is stated for every `WW_MIX` that
takes the zero state, key and table to the word 0 and the zero state, as the default does; that this
premise is needed is the model's reading of R183 and R188 (notes/assumptions/19.md). -/
def Obligations.BufferLengthIsHidden : Prop :=
  ∀ (cfg : Config) (len₁ len₂ : Nat) (prog : List Instr) (s : State) (buf₁ buf₂ : List Byte),
    Config.wf { cfg with bufLen := len₁ } = true → Config.wf { cfg with bufLen := len₂ } = true →
    (∀ i, i ∈ prog → i ≠ .wwgen ∧ ∀ rd, i ≠ .wwmix rd) →
    (.wwclr ∈ prog → cfg.wwMix (Vector.replicate 5 0) (Vector.replicate 4 0) (Vector.replicate 256 0) =
      (0, Vector.replicate 5 0)) →
    ∃ t₁ t₂,
      execSeq { cfg with bufLen := len₁ } prog
        { s with ww := { s.ww with buffer := buf₁, position := len₁ } } = .next t₁ ∧
      execSeq { cfg with bufLen := len₂ } prog
        { s with ww := { s.ww with buffer := buf₂, position := len₂ } } = .next t₂ ∧
      t₁.x = t₂.x ∧ t₁.mem = t₂.mem ∧ t₁.pc = t₂.pc ∧ t₁.status = t₂.status ∧ t₁.epc = t₂.epc ∧
      t₁.einfo = t₂.einfo ∧ t₁.idea = t₂.idea ∧ t₁.ww.table = t₂.ww.table ∧ t₁.ww.tKey = t₂.ww.tKey

/-- R188: before keying, WWCIPH copies its input to its output: at every configuration for the first
`WW_BUF_LEN` bytes, and with the default functions for ever, the context staying zero but for
`position`. -/
def Obligations.UnkeyedCipherPassesThrough : Prop :=
  (∀ (cfg : Config) (ri ro rn : Reg) (s : State), s.ww = WakeContext.zero cfg.bufLen →
    Fits cfg (natReg s ri) (natReg s rn) → Fits cfg (natReg s ro) (natReg s rn) →
    CopySafe (natReg s ri) (natReg s ro) (natReg s rn) → natReg s rn ≤ cfg.bufLen →
    ∃ t, execIn cfg (.wwciph ri ro rn) s = .next t ∧
      t.ww = { s.ww with position := natReg s rn } ∧
      ∀ a, memGet t.mem a =
        if natReg s ro ≤ a ∧ a < natReg s ro + natReg s rn
        then memGet s.mem (natReg s ri + (a - natReg s ro)) else memGet s.mem a) ∧
  (∀ (ri ro rn : Reg) (s : State) (p : Nat), p ≤ Config.std.bufLen →
    s.ww = { WakeContext.zero Config.std.bufLen with position := p } →
    Fits Config.std (natReg s ri) (natReg s rn) → Fits Config.std (natReg s ro) (natReg s rn) →
    CopySafe (natReg s ri) (natReg s ro) (natReg s rn) →
    ∃ t, exec (.wwciph ri ro rn) s = .next t ∧
      (∃ q, q ≤ Config.std.bufLen ∧ t.ww = { WakeContext.zero Config.std.bufLen with position := q }) ∧
      ∀ a, memGet t.mem a =
        if natReg s ro ≤ a ∧ a < natReg s ro + natReg s rn
        then memGet s.mem (natReg s ri + (a - natReg s ro)) else memGet s.mem a)

/-! ### The invariant and the assembler -/

/-- Every step keeps the invariant: the memory is canonical and inside `MEM` (R50, R51), `position` stays
at most `WW_BUF_LEN` (R35, R185), reserved `STATUS` bits read 0 and codes 5 to 7 are never produced (R26),
`EPC` and `EINFO` read 0 while no error is recorded (R27, R28), and `DK = idea_invert(EK)` (R30). It
holds from every state that meets it, not only in runs from reset. That the memory list is canonical is
the model's own form (notes/assumptions/11.md). -/
def Obligations.StepKeepsInvariant : Prop :=
  (∀ s t : State, Inv Config.std s → step s = .next t → Inv Config.std t) ∧
  (∀ (cfg : Config) (s t : State), cfg.wf = true → Inv cfg s → stepIn cfg s = .next t → Inv cfg t)

/-- The invariant holds after reset. -/
def Obligations.ResetMeetsInvariant : Prop := Inv Config.std State.reset

/-- R81: the pseudo-commands do what they say: `LI rd, v` leaves `v` in `x[rd]`, `MOV rd, rs` copies,
`ISNZ.W rd, rs` leaves in `x[rd]` the Mask that `EXPMASK.W` gives, and each of the three changes no other
register. -/
def Obligations.PseudoCommands : Prop :=
  ∀ (s : State) (rd rs : Reg) (v : Word64) (w : Width),
    (∃ t, execSeq Config.std (pseudoLi rd v) s = .next t ∧ getReg t rd = v ∧
      ∀ q, q ≠ rd → getReg t q = getReg s q) ∧
    (∃ t, execSeq Config.std (pseudoMov rd rs) s = .next t ∧ getReg t rd = getReg s rs ∧
      ∀ q, q ≠ rd → getReg t q = getReg s q) ∧
    (∃ t, execSeq Config.std (pseudoIsnz w rd rs) s = .next t ∧
      (natReg t rd = if natReg s rs % 2 ^ wBits w = 0 then 0 else 2 ^ wBits w - 1) ∧
      ∀ q, q ≠ rd → getReg t q = getReg s q)

end Statements
end

