-- ==== Sys2Proof/Laws/Dispatch.lean ====
section
/-! SUPPORT. The core is the machine at the default configuration. -/

namespace Sys2Proof.Machine

theorem exec_eq_execIn (i : Instr) (s : State) : exec i s = execIn Config.std i s := by cases i <;> rfl

theorem step_eq_stepIn (s : State) : step s = stepIn Config.std s := by
  have h : exec = execIn Config.std := by funext i s; exact exec_eq_execIn i s
  rw [step, stepIn, h]

theorem takeMove_idle (cfg : Config) (ex : Instr → State → Result) (s : State) (h : s.host = []) :
    takeMove cfg ex s = .next s := by rw [takeMove, h]

theorem takeMove_cons (cfg : Config) (ex : Instr → State → Result) (s : State) (m : HostMove)
    (rest : List HostMove) (h : s.host = m :: rest) :
    takeMove cfg ex s = applyMove cfg ex m { s with host := rest } := by rw [takeMove, h]

theorem acceptWord_ok (ex : Instr → State → Result) (c : Word32) (s : State) (i : Instr)
    (h : decode c = .ok i) : acceptWord ex c s = ex i s := by rw [acceptWord, h]

theorem acceptWord_error (ex : Instr → State → Result) (c : Word32) (s : State) (e : DecodeError)
    (h : decode c = .error e) : acceptWord ex c s = .next (raise .illegalCommand (zext64 c) s) := by
  rw [acceptWord, h]

end Sys2Proof.Machine
end

