-- ==== Sys2Proof/Laws/Loop.lean ====
section
/-! SUPPORT. The laws of the one ascending loop. -/

namespace Sys2Proof.Machine

@[simp] theorem loopUp_zero {σ : Type} (f : Nat → σ → σ) (i : Nat) (s : σ) : loopUp f i 0 s = s := rfl

theorem loopUp_succ {σ : Type} (f : Nat → σ → σ) (i n : Nat) (s : σ) :
    loopUp f i (n + 1) s = loopUp f (i + 1) n (f i s) := rfl

/-- A loop of `m + n` units is `m` units, then `n` units from index `i + m`. -/
theorem loopUp_add {σ : Type} (f : Nat → σ → σ) (i m n : Nat) (s : σ) :
    loopUp f i (m + n) s = loopUp f (i + m) n (loopUp f i m s) := by
  induction m generalizing i s with
  | zero => simp
  | succ m ih =>
    rw [Nat.add_right_comm m 1 n, loopUp_succ, ih, loopUp_succ, Nat.add_assoc, Nat.add_comm 1 m]

/-- The last unit of a loop. -/
theorem loopUp_last {σ : Type} (f : Nat → σ → σ) (i n : Nat) (s : σ) :
    loopUp f i (n + 1) s = f (i + n) (loopUp f i n s) := by
  rw [loopUp_add]; rfl

/-- What every unit keeps, the loop keeps. -/
theorem loopUp_keeps {σ : Type} (f : Nat → σ → σ) (P : Nat → σ → Prop)
    (step : ∀ j s, P j s → P (j + 1) (f j s)) (i n : Nat) (s : σ) (h : P i s) :
    P (i + n) (loopUp f i n s) := by
  induction n with
  | zero => exact h
  | succ n ih => rw [loopUp_last]; exact step _ _ ih

/-- The same for the units `i .. i + n - 1` only. -/
theorem loopUp_keeps_below {σ : Type} (f : Nat → σ → σ) (P : Nat → σ → Prop) (i n : Nat)
    (step : ∀ j s, i ≤ j → j < i + n → P j s → P (j + 1) (f j s)) (s : σ) (h : P i s) :
    P (i + n) (loopUp f i n s) := by
  induction n with
  | zero => exact h
  | succ n ih =>
    rw [loopUp_last]
    exact step (i + n) _ (by omega) (by omega) (ih fun j s hi hj => step j s hi (by omega))

end Sys2Proof.Machine
end

