-- ==== Sys2Proof/Laws/Idea.lean ====
section
/-! SUPPORT. The algebra of IDEA: `mul` is multiplication in the field of 65537 elements
(spec/45_idea.md R153, R154), and the subkeys of an inverted table (R155). -/

namespace Sys2Proof.Machine

theorem prime_65537 : Nat.Prime 65537 := by norm_num

theorem mulOperand_range (a : Word16) : 1 ≤ mulOperand a ∧ mulOperand a ≤ 65536 := by
  have := a.isLt
  unfold mulOperand
  split
  · omega
  · next h =>
    have : a.toNat ≠ 0 := fun e => h (BitVec.eq_of_toNat_eq (by simpa using e))
    omega

/-- The representation of 45 R153: a number from 1 to 65536 is the operand of its low 16 bits. -/
theorem mulOperand_ofNat (p : Nat) (h1 : 1 ≤ p) (h2 : p ≤ 65536) : mulOperand (BitVec.ofNat 16 p) = p := by
  unfold mulOperand
  by_cases hp : p = 65536
  · subst hp; decide
  · have h3 : (BitVec.ofNat 16 p).toNat = p := by
      rw [BitVec.toNat_ofNat]; exact Nat.mod_eq_of_lt (by omega)
    rw [if_neg, h3]
    intro e
    rw [e] at h3
    simp at h3
    omega

theorem mulOperand_inj (a b : Word16) (h : mulOperand a = mulOperand b) : a = b := by
  have ha := a.isLt
  have hb := b.isLt
  unfold mulOperand at h
  apply BitVec.eq_of_toNat_eq
  split at h <;> split at h
  · simp_all
  · omega
  · omega
  · exact h

theorem mulOperand_mulMod (a b : Word16) :
    mulOperand (mulMod a b) = mulOperand a * mulOperand b % 65537 := by
  have ha := mulOperand_range a
  have hb := mulOperand_range b
  have hp : mulOperand a * mulOperand b % 65537 ≠ 0 := by
    intro h
    rcases (Nat.Prime.dvd_mul prime_65537).mp (Nat.dvd_of_mod_eq_zero h) with h | h <;>
      have := Nat.le_of_dvd (by omega) h <;> omega
  have := Nat.mod_lt (mulOperand a * mulOperand b) (show 65537 > 0 by decide)
  exact mulOperand_ofNat _ (by omega) (by omega)

/-- A word as an element of the field of 65537 elements, where `mul` is multiplication. -/
def fieldOf (a : Word16) : ZMod 65537 := (mulOperand a : ZMod 65537)

theorem fieldOf_mulMod (a b : Word16) : fieldOf (mulMod a b) = fieldOf a * fieldOf b := by
  unfold fieldOf
  rw [mulOperand_mulMod, ← Nat.cast_mul]
  exact (ZMod.natCast_mod _ _)

theorem fieldOf_ne_zero (a : Word16) : fieldOf a ≠ 0 := by
  have ha := mulOperand_range a
  unfold fieldOf
  rw [Ne, ZMod.natCast_eq_zero_iff]
  intro h
  have := Nat.le_of_dvd (by omega) h
  omega

theorem fieldOf_inj (a b : Word16) (h : fieldOf a = fieldOf b) : a = b := by
  have ha := mulOperand_range a
  have hb := mulOperand_range b
  unfold fieldOf at h
  rw [ZMod.natCast_eq_natCast_iff'] at h
  apply mulOperand_inj
  omega

theorem fieldOf_one : fieldOf 1#16 = 1 := by
  have : mulOperand 1#16 = 1 := by decide
  simp [fieldOf, this]

theorem fieldOf_invMod_pow (a : Word16) : fieldOf (invMod a) = fieldOf a ^ 65535 := by
  have key : ∀ n i y e, fieldOf y = fieldOf a ^ e →
      fieldOf (loopUp (fun _ y => mulMod (mulMod y y) a) i n y) = fieldOf a ^ (2 ^ n * e + (2 ^ n - 1)) := by
    intro n
    induction n with
    | zero => intro i y e h; simpa using h
    | succ n ih =>
      intro i y e h
      rw [loopUp_succ, ih _ _ (2 * e + 1)]
      · congr 1
        have := Nat.two_pow_pos n
        rw [Nat.pow_succ, Nat.mul_add, Nat.mul_one, ← Nat.mul_assoc]
        omega
      · rw [fieldOf_mulMod, fieldOf_mulMod, h]; ring
  have := key 15 0 a 1 (by simp)
  exact this

theorem subkey_get (K : SubkeyTable) (i : Nat) (h : i < 52) : subkey K i = K.get ⟨i, h⟩ := by
  unfold subkey; congr 1; apply Fin.ext; simp [Fin.ofNat, Nat.mod_eq_of_lt h]

theorem subkey_invert (ek : SubkeyTable) (i : Nat) (h : i < 52) : subkey (ideaInvert ek) i = invertWord ek i := by
  rw [subkey_get _ _ h, ideaInvert, Vector.get_eq_getElem, Vector.getElem_ofFn]

theorem vector_ext_subkey (K K' : SubkeyTable) (h : ∀ i, i < 52 → subkey K i = subkey K' i) : K = K' := by
  apply Vector.ext
  intro i hi
  have := h i hi
  rwa [subkey_get _ _ hi, subkey_get _ _ hi, Vector.get_eq_getElem, Vector.get_eq_getElem] at this

end Sys2Proof.Machine
end

