-- ==== Sys2Proof/Laws/Kernel.lean ====
section
/-! SUPPORT. One spec lemma per function of the constant-time kernel: the contract each formula meets
(spec/00_scope.md R10), and the fold of spec/41_constant_time_mask_gen.md R101. -/

namespace Sys2Proof.Machine

variable {n : Nat}

theorem expandMask_toNat (v : BitVec n) : (expandMask v).toNat = if v.toNat = 0 then 0 else 2 ^ n - 1 := by
  unfold expandMask
  by_cases h : v = 0#n
  · simp [h]
  · have : v.toNat ≠ 0 := fun e => h (BitVec.eq_of_toNat_eq (by simpa using e))
    simp [h, this]

theorem expandTopBit_toNat (v : BitVec n) :
    (expandTopBit v).toNat = if v.msb then 2 ^ n - 1 else 0 := by
  unfold expandTopBit
  split <;> simp

theorem isZeroMask_eq (v : BitVec n) : isZeroMask v = if v = 0#n then BitVec.allOnes n else 0#n := by
  unfold isZeroMask expandMask
  split <;> simp

theorem isEqualMask_eq (a b : BitVec n) : isEqualMask a b = if a = b then BitVec.allOnes n else 0#n := by
  unfold isEqualMask
  rw [isZeroMask_eq]
  simp [BitVec.xor_eq_zero_iff]

/-- The carry-bit trick (42 R112). -/
theorem isLess_msb (a b : BitVec n) (hn : 0 < n) :
    (a ^^^ ((a ^^^ b) ||| ((a - b) ^^^ a))).msb = decide (a.toNat < b.toNat) := by
  have h2 : 2 ^ n = 2 * 2 ^ (n - 1) := by
    rw [← Nat.pow_succ']; congr 1; omega
  have ha := a.isLt
  have hb := b.isLt
  simp only [BitVec.msb_xor, BitVec.msb_or]
  simp only [BitVec.msb_eq_decide, BitVec.toNat_sub]
  have hm : (2 ^ n - b.toNat + a.toNat) % 2 ^ n =
      if a.toNat < b.toNat then 2 ^ n - b.toNat + a.toNat else a.toNat - b.toNat := by
    split
    · exact Nat.mod_eq_of_lt (by omega)
    · rw [Nat.mod_eq_sub_mod (by omega), Nat.mod_eq_of_lt (by omega)]; omega
  simp only [hm]
  by_cases h1 : 2 ^ (n - 1) ≤ a.toNat <;> by_cases h3 : 2 ^ (n - 1) ≤ b.toNat <;>
    by_cases h : a.toNat < b.toNat <;> simp [h1, h3, h] <;> omega

theorem isLessMask_eq (a b : BitVec n) (hn : 0 < n) :
    isLessMask a b = if a.toNat < b.toNat then BitVec.allOnes n else 0#n := by
  unfold isLessMask expandTopBit
  rw [isLess_msb a b hn]
  simp

theorem isLteMask_eq (a b : BitVec n) (hn : 0 < n) :
    isLteMask a b = if a.toNat ≤ b.toNat then BitVec.allOnes n else 0#n := by
  unfold isLteMask
  rw [isLessMask_eq a b hn, isEqualMask_eq]
  have : a = b ↔ a.toNat = b.toNat := BitVec.toNat_inj.symm
  by_cases h : a.toNat < b.toNat
  · have h' : ¬ a = b := by rw [this]; omega
    simp [h, h', Nat.le_of_lt h]
  · by_cases h' : a = b
    · simp [h']
    · have : ¬ a.toNat ≤ b.toNat := by rw [this] at h'; omega
      simp [h, h', this]

theorem allOnes_mask_toNat (c : Prop) [Decidable c] :
    (if c then BitVec.allOnes n else 0#n).toNat = if c then 2 ^ n - 1 else 0 := by
  split <;> simp

/-- The selection formula is a bitwise multiplexer, for every mask (43 R124). -/
theorem selectMask_getLsbD (m t f : BitVec n) (k : Nat) :
    (selectMask m t f).getLsbD k = if m.getLsbD k then t.getLsbD k else f.getLsbD k := by
  unfold selectMask
  simp only [BitVec.getLsbD_xor, BitVec.getLsbD_and]
  cases m.getLsbD k <;> cases t.getLsbD k <;> cases f.getLsbD k <;> rfl

@[simp] theorem selectMask_zero (t f : BitVec n) : selectMask 0#n t f = f := by
  simp [selectMask]

@[simp] theorem selectMask_allOnes (t f : BitVec n) : selectMask (BitVec.allOnes n) t f = t := by
  apply BitVec.eq_of_getLsbD_eq
  intro k hk
  rw [selectMask_getLsbD]
  simp [hk]

/-- A condition picks its true value or its false value (43 R125). -/
theorem selectMask_expandMask (c t f : BitVec n) :
    selectMask (expandMask c) t f = if c = 0#n then f else t := by
  unfold expandMask; split <;> simp

/-- Bit `k` of `r` is the OR of the `len` bits of `v` from `k` down. -/
def Folded (v r : BitVec n) (len : Nat) : Prop :=
  ∀ k, k < n → (r.getLsbD k = true ↔ ∃ j, j ≤ k ∧ k < j + len ∧ v.getLsbD j = true)

theorem folded_one (v : BitVec n) : Folded v v 1 := fun k _ =>
  ⟨fun h => ⟨k, by omega, by omega, h⟩, fun ⟨j, h1, h2, h3⟩ => by
    obtain rfl : j = k := by omega
    exact h3⟩

theorem folded_double (v r : BitVec n) (len : Nat) (h : Folded v r len) :
    Folded v (r ||| (r <<< len)) (2 * len) := fun k hk => by
  rw [BitVec.getLsbD_or, Bool.or_eq_true, h k hk, BitVec.getLsbD_shiftLeft]
  simp only [hk, decide_true, Bool.true_and, Bool.and_eq_true, Bool.not_eq_eq_eq_not, Bool.not_true,
    decide_eq_false_iff_not, Nat.not_lt]
  constructor
  · rintro (⟨j, h1, h2, h3⟩ | ⟨h0, h1⟩)
    · exact ⟨j, h1, by omega, h3⟩
    · obtain ⟨j, h2, h3, h4⟩ := (h (k - len) (by omega)).mp h1
      exact ⟨j, by omega, by omega, h4⟩
  · rintro ⟨j, h1, h2, h3⟩
    by_cases hj : k < j + len
    · exact .inl ⟨j, h1, hj, h3⟩
    · exact .inr ⟨by omega, (h (k - len) (by omega)).mpr ⟨j, by omega, by omega, h3⟩⟩

/-- The fold of 41 R101 moves every bit up into the top bit. -/
theorem folded_shifts (w : Width) (v : BitVec (wBits w)) :
    Folded v (foldUp (foldShifts w) v) (wBits w) := by
  cases w
  · exact folded_double _ _ _ (folded_double _ _ _ (folded_double _ _ _ (folded_one v)))
  · exact folded_double _ _ _ (folded_double _ _ _ (folded_double _ _ _ (folded_double _ _ _ (folded_one v))))
  · exact folded_double _ _ _ (folded_double _ _ _ (folded_double _ _ _ (folded_double _ _ _
      (folded_double _ _ _ (folded_one v)))))
  · exact folded_double _ _ _ (folded_double _ _ _ (folded_double _ _ _ (folded_double _ _ _
      (folded_double _ _ _ (folded_double _ _ _ (folded_one v))))))

end Sys2Proof.Machine
end

