-- ==== Sys2Proof/Laws/Memory.lean ====
section
/-! SUPPORT. The laws of `MEM`: a read after a write, the canonical form, and the access primitives. -/

namespace Sys2Proof.Machine

theorem memGet_filter (m : Memory) (a c : Nat) :
    memGet (m.filter (fun e => e.1 != a)) c = if c = a then 0 else memGet m c := by
  induction m with
  | nil => simp [memGet]
  | cons e m ih =>
    obtain ⟨k, v⟩ := e
    by_cases hk : k = a
    · subst hk
      simp only [List.filter_cons, bne_self_eq_false, Bool.false_eq_true, ↓reduceIte, ih, memGet]
      split <;> simp_all
    · simp only [List.filter_cons, bne_iff_ne, ne_eq, hk, not_false_eq_true, ↓reduceIte, memGet, ih]
      by_cases hc : c = k
      · subst hc; simp [hk]
      · simp [hc]

theorem memGet_memInsert (m : Memory) (a : Nat) (b : Byte) (c : Nat) :
    memGet (memInsert m a b) c = if c = a then b else memGet m c := by
  induction m with
  | nil => simp [memInsert, memGet]
  | cons e m ih =>
    obtain ⟨k, v⟩ := e
    unfold memInsert
    split
    · simp [memGet]
    · split
      · next h => subst h; simp only [memGet]; split <;> simp_all
      · next h1 h2 =>
        simp only [memGet, ih]
        by_cases hc : c = k
        · subst hc; simp [Ne.symm h2]
        · simp [hc]

/-- Read after write, at every address, in every memory. -/
theorem memGet_memSet (m : Memory) (a : Nat) (b : Byte) (c : Nat) :
    memGet (memSet m a b) c = if c = a then b else memGet m c := by
  unfold memSet
  split
  · next h => subst h; exact memGet_filter m a c
  · exact memGet_memInsert m a b c

@[simp] theorem memGet_memSet_same (m : Memory) (a : Nat) (b : Byte) : memGet (memSet m a b) a = b := by
  simp [memGet_memSet]

theorem memGet_memSet_other (m : Memory) (a : Nat) (b : Byte) (c : Nat) (h : c ≠ a) :
    memGet (memSet m a b) c = memGet m c := by simp [memGet_memSet, h]

/-! ### `MemRead` and `MemWrite` -/

@[simp] theorem memRead_length (m : Memory) (a n : Nat) : (memRead m a n).length = n := by
  induction n generalizing a with
  | zero => rfl
  | succ n ih => simp [memRead, ih]

theorem memRead_getD (m : Memory) (a n j : Nat) (h : j < n) : (memRead m a n).getD j 0 = memGet m (a + j) := by
  induction n generalizing a j with
  | zero => omega
  | succ n ih =>
    cases j with
    | zero => rfl
    | succ j =>
      have := ih (a + 1) j (by omega)
      simpa [memRead, Nat.add_assoc, Nat.add_comm 1 j] using this

theorem memRead_congr (m m' : Memory) (a n : Nat) (h : ∀ c, a ≤ c → c < a + n → memGet m c = memGet m' c) :
    memRead m a n = memRead m' a n := by
  induction n generalizing a with
  | zero => rfl
  | succ n ih =>
    simp only [memRead]
    rw [h a (by omega) (by omega), ih (a + 1) fun c h1 h2 => h c (by omega) (by omega)]

/-- What a `MemWrite` leaves at every address. -/
theorem memGet_memWrite (m : Memory) (a : Nat) (bs : List Byte) (c : Nat) :
    memGet (memWrite m a bs) c = if a ≤ c ∧ c < a + bs.length then bs.getD (c - a) 0 else memGet m c := by
  induction bs generalizing m a with
  | nil => simp [memWrite]
  | cons b bs ih =>
    simp only [memWrite, ih, memGet_memSet, List.length_cons]
    by_cases h1 : c = a
    · subst h1; simp
    · by_cases h2 : a + 1 ≤ c ∧ c < a + 1 + bs.length
      · have h3 : a ≤ c ∧ c < a + (bs.length + 1) := by omega
        rw [if_pos h2, if_pos h3]
        have : c - a = (c - (a + 1)) + 1 := by omega
        rw [this, List.getD_cons_succ]
      · have h3 : ¬ (a ≤ c ∧ c < a + (bs.length + 1)) := by omega
        rw [if_neg h2, if_neg h3, if_neg h1]

theorem memGet_memWrite_outside (m : Memory) (a : Nat) (bs : List Byte) (c : Nat)
    (h : c < a ∨ a + bs.length ≤ c) : memGet (memWrite m a bs) c = memGet m c := by
  rw [memGet_memWrite, if_neg (by omega)]

theorem memGet_memWrite_inside (m : Memory) (a : Nat) (bs : List Byte) (j : Nat) (h : j < bs.length) :
    memGet (memWrite m a bs) (a + j) = bs.getD j 0 := by
  rw [memGet_memWrite, if_pos (by omega), Nat.add_sub_cancel_left]

/-- Reading back the bytes just written. -/
theorem memRead_memWrite (m : Memory) (a : Nat) (bs : List Byte) :
    memRead (memWrite m a bs) a bs.length = bs := by
  induction bs generalizing m a with
  | nil => rfl
  | cons b bs ih =>
    simp only [memWrite, List.length_cons, memRead, ih]
    rw [memGet_memWrite_outside _ _ _ _ (by omega)]
    simp

/-! ### The canonical form -/

/-- Every listed address is at least `lo`, and the list is canonical. -/
def WfFrom : Nat → Memory → Prop
  | _, [] => True
  | lo, (k, v) :: rest => lo ≤ k ∧ v ≠ 0 ∧ WfFrom (k + 1) rest

theorem memWf_iff_aux (k : Nat) (v : Byte) (rest : Memory) :
    Memory.wf ((k, v) :: rest) = true ↔ v ≠ 0 ∧ WfFrom (k + 1) rest := by
  induction rest generalizing k v with
  | nil => simp [Memory.wf, WfFrom]
  | cons e rest ih =>
    obtain ⟨k', v'⟩ := e
    have h := ih k' v'
    simp only [Memory.wf, Bool.and_eq_true, bne_iff_ne, ne_eq, decide_eq_true_eq, WfFrom]
    constructor
    · rintro ⟨⟨h1, h2⟩, h3⟩; exact ⟨h1, h2, h.mp h3⟩
    · rintro ⟨h1, h2, h3⟩; exact ⟨⟨h1, h2⟩, h.mpr h3⟩

theorem memWf_iff (m : Memory) : Memory.wf m = true ↔ WfFrom 0 m := by
  cases m with
  | nil => simp [Memory.wf, WfFrom]
  | cons e rest => obtain ⟨k, v⟩ := e; simp [memWf_iff_aux, WfFrom]

theorem WfFrom.weaken {lo lo' : Nat} {m : Memory} (h : WfFrom lo m) (hl : lo' ≤ lo) : WfFrom lo' m := by
  cases m with
  | nil => trivial
  | cons e rest => obtain ⟨k, v⟩ := e; exact ⟨by have := h.1; omega, h.2⟩

theorem wfFrom_filter {lo : Nat} {m : Memory} (h : WfFrom lo m) (a : Nat) :
    WfFrom lo (m.filter (fun e => e.1 != a)) := by
  induction m generalizing lo with
  | nil => trivial
  | cons e rest ih =>
    obtain ⟨k, v⟩ := e
    obtain ⟨h1, h2, h3⟩ := h
    rw [List.filter_cons]
    split
    · exact ⟨h1, h2, ih h3⟩
    · exact (ih h3).weaken (by omega)

theorem wfFrom_memInsert {lo : Nat} {m : Memory} (h : WfFrom lo m) (a : Nat) (b : Byte) (hb : b ≠ 0)
    (ha : lo ≤ a) : WfFrom lo (memInsert m a b) := by
  induction m generalizing lo with
  | nil => exact ⟨ha, hb, trivial⟩
  | cons e rest ih =>
    obtain ⟨k, v⟩ := e
    obtain ⟨h1, h2, h3⟩ := h
    unfold memInsert
    split
    · exact ⟨ha, hb, by omega, h2, h3⟩
    · split
      · next _ h5 => subst h5; exact ⟨h1, hb, h3⟩
      · exact ⟨h1, h2, ih h3 (by omega)⟩

/-- Every memory operation keeps the canonical form: one byte. -/
theorem memWf_memSet (m : Memory) (a : Nat) (b : Byte) (h : Memory.wf m = true) :
    Memory.wf (memSet m a b) = true := by
  rw [memWf_iff] at h ⊢
  unfold memSet
  split
  · exact wfFrom_filter h a
  · next hb => exact wfFrom_memInsert h a b hb (Nat.zero_le a)

/-- The memory after reset is in its canonical form. -/
theorem memWf_reset : Memory.wf State.reset.mem = true := rfl

/-- Every memory operation keeps the canonical form: a range. -/
theorem memWf_memWrite (m : Memory) (a : Nat) (bs : List Byte) (h : Memory.wf m = true) :
    Memory.wf (memWrite m a bs) = true := by
  induction bs generalizing m a with
  | nil => exact h
  | cons b bs ih => exact ih _ _ (memWf_memSet m a b h)

@[simp] theorem memWf_nil : Memory.wf [] = true := rfl

theorem memGet_of_wfFrom_below {lo : Nat} {m : Memory} (h : WfFrom lo m) (c : Nat) (hc : c < lo) :
    memGet m c = 0 := by
  induction m generalizing lo with
  | nil => rfl
  | cons e rest ih =>
    obtain ⟨k, v⟩ := e
    obtain ⟨h1, _, h3⟩ := h
    simp only [memGet]
    rw [if_neg (by omega)]
    exact ih h3 (by omega)

/-- Two canonical memories that read alike are the same list. -/
theorem memory_ext (m m' : Memory) (h : Memory.wf m = true) (h' : Memory.wf m' = true)
    (heq : ∀ c, memGet m c = memGet m' c) : m = m' := by
  rw [memWf_iff] at h h'
  suffices ∀ lo lo', WfFrom lo m → WfFrom lo' m' → m = m' from this 0 0 h h'
  clear h h'
  induction m generalizing m' with
  | nil =>
    intro lo lo' _ h'
    cases m' with
    | nil => rfl
    | cons e' rest' =>
      obtain ⟨k', v'⟩ := e'
      have := heq k'
      simp only [memGet, if_true] at this
      exact absurd this.symm h'.2.1
  | cons e rest ih =>
    intro lo lo' h h'
    obtain ⟨k, v⟩ := e
    cases m' with
    | nil =>
      have := heq k
      simp only [memGet, if_true] at this
      exact absurd this h.2.1
    | cons e' rest' =>
      obtain ⟨k', v'⟩ := e'
      obtain ⟨_, hv, hr⟩ := h
      obtain ⟨_, hv', hr'⟩ := h'
      have hk : k = k' := by
        rcases Nat.lt_trichotomy k k' with hlt | he | hgt
        · have := heq k
          simp only [memGet, if_true] at this
          rw [if_neg (by omega), memGet_of_wfFrom_below hr' k (by omega)] at this
          exact absurd this hv
        · exact he
        · have := heq k'
          simp only [memGet, if_true] at this
          rw [if_neg (by omega), memGet_of_wfFrom_below hr k' (by omega)] at this
          exact absurd this.symm hv'
      subst hk
      have hvv : v = v' := by have := heq k; simpa [memGet] using this
      subst hvv
      congr 1
      refine ih rest' (fun c => ?_) _ _ hr hr'
      by_cases hc : c = k
      · subst hc
        rw [memGet_of_wfFrom_below hr c (by omega), memGet_of_wfFrom_below hr' c (by omega)]
      · have := heq c
        simpa [memGet, hc] using this

/-! ### Addresses inside `MEM` -/

theorem memInside_memSet (size : Nat) (m : Memory) (a : Nat) (b : Byte) (h : memInside size m = true)
    (ha : a < size) : memInside size (memSet m a b) = true := by
  unfold memSet
  split
  · simp only [memInside, List.all_eq_true, List.mem_filter, decide_eq_true_eq] at h ⊢
    exact fun c hc => h c hc.1
  · clear * - h ha
    induction m with
    | nil => simp [memInsert, memInside, ha]
    | cons e rest ih =>
      obtain ⟨k, v⟩ := e
      simp only [memInside, List.all_cons, Bool.and_eq_true, decide_eq_true_eq] at h ih ⊢
      unfold memInsert
      split
      · simp [h, ha]
      · split
        · simp [h, ha]
        · simp only [List.all_cons, Bool.and_eq_true, decide_eq_true_eq]
          exact ⟨h.1, ih h.2⟩

theorem memInside_memWrite (size : Nat) (m : Memory) (a : Nat) (bs : List Byte)
    (h : memInside size m = true) (ha : a + bs.length ≤ size) : memInside size (memWrite m a bs) = true := by
  induction bs generalizing m a with
  | nil => exact h
  | cons b bs ih =>
    simp only [List.length_cons] at ha
    exact ih _ _ (memInside_memSet size m a b h (by omega)) (by omega)

/-! ### Byte order -/

@[simp] theorem beBytes_length (k v : Nat) : (beBytes k v).length = k := by
  induction k generalizing v with
  | zero => rfl
  | succ k ih => simp [beBytes, ih]

theorem beNat_lt (bs : List Byte) : beNat bs < 256 ^ bs.length := by
  induction bs with
  | nil => simp [beNat]
  | cons b bs ih =>
    have hb := b.isLt
    simp only [beNat, List.length_cons, Nat.pow_succ]
    nlinarith [Nat.pow_pos (n := bs.length) (show 0 < 256 by decide)]

/-- `BE(BE_k(v)) = v` modulo `2^(8k)`. -/
theorem beNat_beBytes (k v : Nat) : beNat (beBytes k v) = v % 256 ^ k := by
  induction k with
  | zero => simp [beBytes, beNat, Nat.mod_one]
  | succ k ih =>
    simp only [beBytes, beNat, beBytes_length, ih, BitVec.toNat_ofNat]
    have h2 : (2 : Nat) ^ 8 = 256 := by decide
    rw [h2, Nat.pow_succ, Nat.mod_mul, Nat.mul_comm (256 ^ k), Nat.add_comm]

/-- `BE_k(BE(bytes)) = bytes`. -/
theorem beBytes_beNat (bs : List Byte) : beBytes bs.length (beNat bs) = bs := by
  have key : ∀ (bs : List Byte) (q : Nat), beBytes bs.length (q * 256 ^ bs.length + beNat bs) = bs := by
    intro bs
    induction bs with
    | nil => intro q; rfl
    | cons b bs ih =>
      intro q
      have hlt := beNat_lt bs
      have hpos : 0 < 256 ^ bs.length := Nat.pow_pos (by decide)
      simp only [List.length_cons, beBytes, beNat]
      have e : q * 256 ^ (bs.length + 1) + (b.toNat * 256 ^ bs.length + beNat bs)
          = (q * 256 + b.toNat) * 256 ^ bs.length + beNat bs := by
        rw [Nat.pow_succ]; ring
      rw [e, ih]
      congr 1
      rw [Nat.add_comm, Nat.add_mul_div_right _ _ hpos, Nat.div_eq_of_lt hlt, Nat.zero_add]
      apply BitVec.eq_of_toNat_eq
      have := b.isLt
      simp only [BitVec.toNat_ofNat]
      omega
  simpa using key bs 0

theorem beBytes_getD (k v j : Nat) (h : j < k) : (beBytes k v).getD j 0 = BitVec.ofNat 8 (v / 256 ^ (k - 1 - j)) := by
  induction k generalizing j with
  | zero => omega
  | succ k ih =>
    cases j with
    | zero => simp [beBytes]
    | succ j => simp only [beBytes, List.getD_cons_succ]; rw [ih j (by omega)]; congr 3; omega

/-- A read inside a longer read. -/
theorem memRead_prefix (m : Memory) (a n j k : Nat) (h : j + k ≤ n) : memRead m (a + j) k = ((memRead m a n).drop j).take k := by
  apply List.ext_getElem?
  intro i
  rw [List.getElem?_take]
  by_cases hi : i < k
  · rw [if_pos hi, List.getElem?_drop]
    have h1 := memRead_getD m (a + j) k i hi
    have h2 := memRead_getD m a n (j + i) (by omega)
    rw [List.getD_eq_getElem?_getD] at h1 h2
    rw [List.getElem?_eq_getElem (by simpa using hi)] at h1 ⊢
    rw [List.getElem?_eq_getElem (by simp; omega)] at h2 ⊢
    simp at h1 h2 ⊢; rw [h1, h2, Nat.add_assoc]
  · rw [if_neg hi, List.getElem?_eq_none (by simp; omega)]

theorem beNat_append (x y : List Byte) : beNat (x ++ y) = beNat x * 256 ^ y.length + beNat y := by
  induction x with
  | nil => simp [beNat]
  | cons b x ih => simp only [List.cons_append, beNat, ih, List.length_append, Nat.pow_add]; ring

/-- A slice of the bytes of a big-endian number. -/
theorem beNat_slice (bs : List Byte) (j k : Nat) (h : j + k ≤ bs.length) :
    beNat ((bs.drop j).take k) = beNat bs / 256 ^ (bs.length - j - k) % 256 ^ k := by
  have e1 : bs = bs.take j ++ ((bs.drop j).take k ++ (bs.drop j).drop k) := by simp
  have l2 : ((bs.drop j).take k).length = k := by simp; omega
  have l3 : ((bs.drop j).drop k).length = bs.length - j - k := by simp; omega
  have b2 := beNat_lt ((bs.drop j).take k)
  have b3 := beNat_lt ((bs.drop j).drop k)
  have e2 : beNat bs = beNat (bs.take j ++ ((bs.drop j).take k ++ (bs.drop j).drop k)) := by rw [← e1]
  rw [e2, beNat_append, beNat_append, List.length_append, l2, l3]
  rw [l2] at b2; rw [l3] at b3
  generalize beNat ((bs.drop j).take k) = y at *
  generalize beNat ((bs.drop j).drop k) = z at *
  generalize beNat (bs.take j) = x
  generalize bs.length - j - k = m at *
  have hp : 0 < 256 ^ m := Nat.pow_pos (by decide)
  have : x * 256 ^ (k + m) + (y * 256 ^ m + z) = (x * 256 ^ k + y) * 256 ^ m + z := by rw [Nat.pow_add]; ring
  rw [this, Nat.add_comm _ z, Nat.add_mul_div_right _ _ hp, Nat.div_eq_of_lt b3, Nat.zero_add, Nat.add_comm, Nat.add_mul_mod_self_right, Nat.mod_eq_of_lt b2]

end Sys2Proof.Machine
end

