-- ==== Sys2Proof/Laws/State.lean ====
section
/-! SUPPORT. One lemma per field per update of State: what each named update leaves, and what it writes.
Later proofs cite these and unfold no record update. -/

namespace Sys2Proof.Machine

@[simp] theorem setReg_pc (s : State) (r : Reg) (v : Word64) : (setReg s r v).pc = s.pc := rfl
@[simp] theorem setReg_status (s : State) (r : Reg) (v : Word64) : (setReg s r v).status = s.status := rfl
@[simp] theorem setReg_epc (s : State) (r : Reg) (v : Word64) : (setReg s r v).epc = s.epc := rfl
@[simp] theorem setReg_einfo (s : State) (r : Reg) (v : Word64) : (setReg s r v).einfo = s.einfo := rfl
@[simp] theorem setReg_idea (s : State) (r : Reg) (v : Word64) : (setReg s r v).idea = s.idea := rfl
@[simp] theorem setReg_ww (s : State) (r : Reg) (v : Word64) : (setReg s r v).ww = s.ww := rfl
@[simp] theorem setReg_mem (s : State) (r : Reg) (v : Word64) : (setReg s r v).mem = s.mem := rfl
@[simp] theorem setReg_host (s : State) (r : Reg) (v : Word64) : (setReg s r v).host = s.host := rfl

@[simp] theorem advance_x (s : State) : (advance s).x = s.x := rfl
@[simp] theorem advance_pc (s : State) : (advance s).pc = s.pc + 1 := rfl
@[simp] theorem advance_status (s : State) : (advance s).status = s.status := rfl
@[simp] theorem advance_epc (s : State) : (advance s).epc = s.epc := rfl
@[simp] theorem advance_einfo (s : State) : (advance s).einfo = s.einfo := rfl
@[simp] theorem advance_idea (s : State) : (advance s).idea = s.idea := rfl
@[simp] theorem advance_ww (s : State) : (advance s).ww = s.ww := rfl
@[simp] theorem advance_mem (s : State) : (advance s).mem = s.mem := rfl
@[simp] theorem advance_host (s : State) : (advance s).host = s.host := rfl

@[simp] theorem clearError_x (s : State) : (clearError s).x = s.x := rfl
@[simp] theorem clearError_pc (s : State) : (clearError s).pc = s.pc := rfl
@[simp] theorem clearError_status (s : State) : (clearError s).status = setStatusErr s.status 0 := rfl
@[simp] theorem clearError_epc (s : State) : (clearError s).epc = 0 := rfl
@[simp] theorem clearError_einfo (s : State) : (clearError s).einfo = 0 := rfl
@[simp] theorem clearError_idea (s : State) : (clearError s).idea = s.idea := rfl
@[simp] theorem clearError_ww (s : State) : (clearError s).ww = s.ww := rfl
@[simp] theorem clearError_mem (s : State) : (clearError s).mem = s.mem := rfl
@[simp] theorem clearError_host (s : State) : (clearError s).host = s.host := rfl

theorem raise_of_no_error (e : ErrCode) (info : Word64) (s : State) (h : statusErr s.status = 0) :
    raise e info s =
      { s with status := setStatusErr s.status (errNumber e), epc := s.pc, einfo := info, pc := s.pc + 1 } := by
  simp [raise, h, advance]

theorem raise_of_error (e : ErrCode) (info : Word64) (s : State) (h : statusErr s.status ≠ 0) :
    raise e info s = { s with pc := s.pc + 1 } := by
  rw [raise, if_neg h]; rfl

@[simp] theorem raise_x (e : ErrCode) (info : Word64) (s : State) : (raise e info s).x = s.x := by
  unfold raise; split <;> rfl
@[simp] theorem raise_idea (e : ErrCode) (info : Word64) (s : State) : (raise e info s).idea = s.idea := by
  unfold raise; split <;> rfl
@[simp] theorem raise_ww (e : ErrCode) (info : Word64) (s : State) : (raise e info s).ww = s.ww := by
  unfold raise; split <;> rfl
@[simp] theorem raise_mem (e : ErrCode) (info : Word64) (s : State) : (raise e info s).mem = s.mem := by
  unfold raise; split <;> rfl
@[simp] theorem raise_host (e : ErrCode) (info : Word64) (s : State) : (raise e info s).host = s.host := by
  unfold raise; split <;> rfl
@[simp] theorem raise_pc (e : ErrCode) (info : Word64) (s : State) : (raise e info s).pc = s.pc + 1 := by
  unfold raise; split <;> rfl

@[simp] theorem storeEffect_x (w : Width) (rs ra : Reg) (s : State) : (storeEffect w rs ra s).x = s.x := rfl
@[simp] theorem storeEffect_pc (w : Width) (rs ra : Reg) (s : State) : (storeEffect w rs ra s).pc = s.pc := rfl
@[simp] theorem storeEffect_status (w : Width) (rs ra : Reg) (s : State) : (storeEffect w rs ra s).status = s.status := rfl
@[simp] theorem storeEffect_epc (w : Width) (rs ra : Reg) (s : State) : (storeEffect w rs ra s).epc = s.epc := rfl
@[simp] theorem storeEffect_einfo (w : Width) (rs ra : Reg) (s : State) : (storeEffect w rs ra s).einfo = s.einfo := rfl
@[simp] theorem storeEffect_idea (w : Width) (rs ra : Reg) (s : State) : (storeEffect w rs ra s).idea = s.idea := rfl
@[simp] theorem storeEffect_ww (w : Width) (rs ra : Reg) (s : State) : (storeEffect w rs ra s).ww = s.ww := rfl
@[simp] theorem storeEffect_host (w : Width) (rs ra : Reg) (s : State) : (storeEffect w rs ra s).host = s.host := rfl

@[simp] theorem ccopyEffect_x (w : Width) (rc rto rf0 rf1 rn : Reg) (s : State) : (ccopyEffect w rc rto rf0 rf1 rn s).x = s.x := rfl
@[simp] theorem ccopyEffect_pc (w : Width) (rc rto rf0 rf1 rn : Reg) (s : State) : (ccopyEffect w rc rto rf0 rf1 rn s).pc = s.pc := rfl
@[simp] theorem ccopyEffect_status (w : Width) (rc rto rf0 rf1 rn : Reg) (s : State) : (ccopyEffect w rc rto rf0 rf1 rn s).status = s.status := rfl
@[simp] theorem ccopyEffect_epc (w : Width) (rc rto rf0 rf1 rn : Reg) (s : State) : (ccopyEffect w rc rto rf0 rf1 rn s).epc = s.epc := rfl
@[simp] theorem ccopyEffect_einfo (w : Width) (rc rto rf0 rf1 rn : Reg) (s : State) : (ccopyEffect w rc rto rf0 rf1 rn s).einfo = s.einfo := rfl
@[simp] theorem ccopyEffect_idea (w : Width) (rc rto rf0 rf1 rn : Reg) (s : State) : (ccopyEffect w rc rto rf0 rf1 rn s).idea = s.idea := rfl
@[simp] theorem ccopyEffect_ww (w : Width) (rc rto rf0 rf1 rn : Reg) (s : State) : (ccopyEffect w rc rto rf0 rf1 rn s).ww = s.ww := rfl
@[simp] theorem ccopyEffect_host (w : Width) (rc rto rf0 rf1 rn : Reg) (s : State) : (ccopyEffect w rc rto rf0 rf1 rn s).host = s.host := rfl

@[simp] theorem czeroEffect_x (w : Width) (rc ra rn : Reg) (s : State) : (czeroEffect w rc ra rn s).x = s.x := rfl
@[simp] theorem czeroEffect_pc (w : Width) (rc ra rn : Reg) (s : State) : (czeroEffect w rc ra rn s).pc = s.pc := rfl
@[simp] theorem czeroEffect_status (w : Width) (rc ra rn : Reg) (s : State) : (czeroEffect w rc ra rn s).status = s.status := rfl
@[simp] theorem czeroEffect_epc (w : Width) (rc ra rn : Reg) (s : State) : (czeroEffect w rc ra rn s).epc = s.epc := rfl
@[simp] theorem czeroEffect_einfo (w : Width) (rc ra rn : Reg) (s : State) : (czeroEffect w rc ra rn s).einfo = s.einfo := rfl
@[simp] theorem czeroEffect_idea (w : Width) (rc ra rn : Reg) (s : State) : (czeroEffect w rc ra rn s).idea = s.idea := rfl
@[simp] theorem czeroEffect_ww (w : Width) (rc ra rn : Reg) (s : State) : (czeroEffect w rc ra rn s).ww = s.ww := rfl
@[simp] theorem czeroEffect_host (w : Width) (rc ra rn : Reg) (s : State) : (czeroEffect w rc ra rn s).host = s.host := rfl

@[simp] theorem ideaksEffect_x (ra : Reg) (s : State) : (ideaksEffect ra s).x = s.x := rfl
@[simp] theorem ideaksEffect_pc (ra : Reg) (s : State) : (ideaksEffect ra s).pc = s.pc := rfl
@[simp] theorem ideaksEffect_epc (ra : Reg) (s : State) : (ideaksEffect ra s).epc = s.epc := rfl
@[simp] theorem ideaksEffect_einfo (ra : Reg) (s : State) : (ideaksEffect ra s).einfo = s.einfo := rfl
@[simp] theorem ideaksEffect_ww (ra : Reg) (s : State) : (ideaksEffect ra s).ww = s.ww := rfl
@[simp] theorem ideaksEffect_mem (ra : Reg) (s : State) : (ideaksEffect ra s).mem = s.mem := rfl
@[simp] theorem ideaksEffect_host (ra : Reg) (s : State) : (ideaksEffect ra s).host = s.host := rfl

@[simp] theorem ideaencEffect_x (ri ro rn : Reg) (s : State) : (ideaencEffect ri ro rn s).x = s.x := rfl
@[simp] theorem ideaencEffect_pc (ri ro rn : Reg) (s : State) : (ideaencEffect ri ro rn s).pc = s.pc := rfl
@[simp] theorem ideaencEffect_status (ri ro rn : Reg) (s : State) : (ideaencEffect ri ro rn s).status = s.status := rfl
@[simp] theorem ideaencEffect_epc (ri ro rn : Reg) (s : State) : (ideaencEffect ri ro rn s).epc = s.epc := rfl
@[simp] theorem ideaencEffect_einfo (ri ro rn : Reg) (s : State) : (ideaencEffect ri ro rn s).einfo = s.einfo := rfl
@[simp] theorem ideaencEffect_idea (ri ro rn : Reg) (s : State) : (ideaencEffect ri ro rn s).idea = s.idea := rfl
@[simp] theorem ideaencEffect_ww (ri ro rn : Reg) (s : State) : (ideaencEffect ri ro rn s).ww = s.ww := rfl
@[simp] theorem ideaencEffect_host (ri ro rn : Reg) (s : State) : (ideaencEffect ri ro rn s).host = s.host := rfl

@[simp] theorem ideadecEffect_x (ri ro rn : Reg) (s : State) : (ideadecEffect ri ro rn s).x = s.x := rfl
@[simp] theorem ideadecEffect_pc (ri ro rn : Reg) (s : State) : (ideadecEffect ri ro rn s).pc = s.pc := rfl
@[simp] theorem ideadecEffect_status (ri ro rn : Reg) (s : State) : (ideadecEffect ri ro rn s).status = s.status := rfl
@[simp] theorem ideadecEffect_epc (ri ro rn : Reg) (s : State) : (ideadecEffect ri ro rn s).epc = s.epc := rfl
@[simp] theorem ideadecEffect_einfo (ri ro rn : Reg) (s : State) : (ideadecEffect ri ro rn s).einfo = s.einfo := rfl
@[simp] theorem ideadecEffect_idea (ri ro rn : Reg) (s : State) : (ideadecEffect ri ro rn s).idea = s.idea := rfl
@[simp] theorem ideadecEffect_ww (ri ro rn : Reg) (s : State) : (ideadecEffect ri ro rn s).ww = s.ww := rfl
@[simp] theorem ideadecEffect_host (ri ro rn : Reg) (s : State) : (ideadecEffect ri ro rn s).host = s.host := rfl

@[simp] theorem wwksEffect_x (cfg : Config) (ra : Reg) (s : State) : (wwksEffect cfg ra s).x = s.x := rfl
@[simp] theorem wwksEffect_pc (cfg : Config) (ra : Reg) (s : State) : (wwksEffect cfg ra s).pc = s.pc := rfl
@[simp] theorem wwksEffect_epc (cfg : Config) (ra : Reg) (s : State) : (wwksEffect cfg ra s).epc = s.epc := rfl
@[simp] theorem wwksEffect_einfo (cfg : Config) (ra : Reg) (s : State) : (wwksEffect cfg ra s).einfo = s.einfo := rfl
@[simp] theorem wwksEffect_idea (cfg : Config) (ra : Reg) (s : State) : (wwksEffect cfg ra s).idea = s.idea := rfl
@[simp] theorem wwksEffect_mem (cfg : Config) (ra : Reg) (s : State) : (wwksEffect cfg ra s).mem = s.mem := rfl
@[simp] theorem wwksEffect_host (cfg : Config) (ra : Reg) (s : State) : (wwksEffect cfg ra s).host = s.host := rfl

@[simp] theorem wwsivEffect_x (cfg : Config) (ra : Reg) (s : State) : (wwsivEffect cfg ra s).x = s.x := rfl
@[simp] theorem wwsivEffect_pc (cfg : Config) (ra : Reg) (s : State) : (wwsivEffect cfg ra s).pc = s.pc := rfl
@[simp] theorem wwsivEffect_epc (cfg : Config) (ra : Reg) (s : State) : (wwsivEffect cfg ra s).epc = s.epc := rfl
@[simp] theorem wwsivEffect_einfo (cfg : Config) (ra : Reg) (s : State) : (wwsivEffect cfg ra s).einfo = s.einfo := rfl
@[simp] theorem wwsivEffect_idea (cfg : Config) (ra : Reg) (s : State) : (wwsivEffect cfg ra s).idea = s.idea := rfl
@[simp] theorem wwsivEffect_mem (cfg : Config) (ra : Reg) (s : State) : (wwsivEffect cfg ra s).mem = s.mem := rfl
@[simp] theorem wwsivEffect_host (cfg : Config) (ra : Reg) (s : State) : (wwsivEffect cfg ra s).host = s.host := rfl

@[simp] theorem cipherEffect_x (cfg : Config) (ri ro rn : Reg) (s : State) : (cipherEffect cfg ri ro rn s).x = s.x := rfl
@[simp] theorem cipherEffect_pc (cfg : Config) (ri ro rn : Reg) (s : State) : (cipherEffect cfg ri ro rn s).pc = s.pc := rfl
@[simp] theorem cipherEffect_status (cfg : Config) (ri ro rn : Reg) (s : State) : (cipherEffect cfg ri ro rn s).status = s.status := rfl
@[simp] theorem cipherEffect_epc (cfg : Config) (ri ro rn : Reg) (s : State) : (cipherEffect cfg ri ro rn s).epc = s.epc := rfl
@[simp] theorem cipherEffect_einfo (cfg : Config) (ri ro rn : Reg) (s : State) : (cipherEffect cfg ri ro rn s).einfo = s.einfo := rfl
@[simp] theorem cipherEffect_idea (cfg : Config) (ri ro rn : Reg) (s : State) : (cipherEffect cfg ri ro rn s).idea = s.idea := rfl
@[simp] theorem cipherEffect_host (cfg : Config) (ri ro rn : Reg) (s : State) : (cipherEffect cfg ri ro rn s).host = s.host := rfl

@[simp] theorem loadEffect_pc (w : Width) (rd ra : Reg) (s : State) : (loadEffect w rd ra s).pc = s.pc := rfl
@[simp] theorem loadEffect_status (w : Width) (rd ra : Reg) (s : State) : (loadEffect w rd ra s).status = s.status := rfl
@[simp] theorem loadEffect_epc (w : Width) (rd ra : Reg) (s : State) : (loadEffect w rd ra s).epc = s.epc := rfl
@[simp] theorem loadEffect_einfo (w : Width) (rd ra : Reg) (s : State) : (loadEffect w rd ra s).einfo = s.einfo := rfl
@[simp] theorem loadEffect_idea (w : Width) (rd ra : Reg) (s : State) : (loadEffect w rd ra s).idea = s.idea := rfl
@[simp] theorem loadEffect_ww (w : Width) (rd ra : Reg) (s : State) : (loadEffect w rd ra s).ww = s.ww := rfl
@[simp] theorem loadEffect_mem (w : Width) (rd ra : Reg) (s : State) : (loadEffect w rd ra s).mem = s.mem := rfl
@[simp] theorem loadEffect_host (w : Width) (rd ra : Reg) (s : State) : (loadEffect w rd ra s).host = s.host := rfl

@[simp] theorem stripEffect_pc (rd rl ra rn : Reg) (s : State) : (stripEffect rd rl ra rn s).pc = s.pc := rfl
@[simp] theorem stripEffect_status (rd rl ra rn : Reg) (s : State) : (stripEffect rd rl ra rn s).status = s.status := rfl
@[simp] theorem stripEffect_epc (rd rl ra rn : Reg) (s : State) : (stripEffect rd rl ra rn s).epc = s.epc := rfl
@[simp] theorem stripEffect_einfo (rd rl ra rn : Reg) (s : State) : (stripEffect rd rl ra rn s).einfo = s.einfo := rfl
@[simp] theorem stripEffect_idea (rd rl ra rn : Reg) (s : State) : (stripEffect rd rl ra rn s).idea = s.idea := rfl
@[simp] theorem stripEffect_ww (rd rl ra rn : Reg) (s : State) : (stripEffect rd rl ra rn s).ww = s.ww := rfl
@[simp] theorem stripEffect_mem (rd rl ra rn : Reg) (s : State) : (stripEffect rd rl ra rn s).mem = s.mem := rfl
@[simp] theorem stripEffect_host (rd rl ra rn : Reg) (s : State) : (stripEffect rd rl ra rn s).host = s.host := rfl

@[simp] theorem applyReset_host (cfg : Config) (s : State) : (applyReset cfg s).host = s.host := rfl
@[simp] theorem presentWord_host (c : Word32) (s : State) : (presentWord c s).host = .command c :: s.host := rfl

/-! ### Registers -/

@[simp] theorem getReg_advance (s : State) (r : Reg) : getReg (advance s) r = getReg s r := rfl
@[simp] theorem getReg_raise (e : ErrCode) (info : Word64) (s : State) (r : Reg) :
    getReg (raise e info s) r = getReg s r := by simp [getReg]

@[simp] theorem getReg_setReg_same (s : State) (r : Reg) (v : Word64) : getReg (setReg s r v) r = v := by
  simp [getReg, setReg, Vector.get_eq_getElem]

theorem getReg_setReg_other (s : State) (r q : Reg) (v : Word64) (h : q ≠ r) :
    getReg (setReg s r v) q = getReg s q := by
  have hv : r.val ≠ q.val := fun e => h (Fin.ext e.symm)
  have h1 := Vector.getElem_set_ne (xs := s.x) (x := v) r.isLt q.isLt hv
  simpa [getReg, setReg, Vector.get_eq_getElem] using h1

theorem getReg_setReg (s : State) (r q : Reg) (v : Word64) :
    getReg (setReg s r v) q = if q = r then v else getReg s q := by
  split
  · next h => subst h; simp
  · next h => exact getReg_setReg_other s r q v h

end Sys2Proof.Machine
end

