-- ==== Sys2Proof/Laws/Ops.lean ====
section
/-! SUPPORT. One lemma per shared operation: everything it can do. -/

namespace Sys2Proof.Machine

/-! ### Checks -/

@[simp] theorem firstFailing_nil : firstFailing [] = none := rfl

theorem firstFailing_cons_ok (c : Check) (cs : List Check) (h : c.ok = true) :
    firstFailing (c :: cs) = firstFailing cs := by simp [firstFailing, h]

theorem firstFailing_cons_bad (c : Check) (cs : List Check) (h : c.ok = false) :
    firstFailing (c :: cs) = some c := by simp [firstFailing, h]

theorem firstFailing_eq_none (cs : List Check) : firstFailing cs = none ↔ ∀ c ∈ cs, c.ok = true := by
  induction cs with
  | nil => simp
  | cons c cs ih => by_cases h : c.ok = true <;> simp [firstFailing, h, ih]

theorem firstFailing_some_mem (cs : List Check) (c : Check) (h : firstFailing cs = some c) :
    c ∈ cs ∧ c.ok = false := by
  induction cs with
  | nil => simp at h
  | cons d ds ih =>
    by_cases hd : d.ok = true
    · rw [firstFailing_cons_ok d ds hd] at h
      exact ⟨List.mem_cons_of_mem _ (ih h).1, (ih h).2⟩
    · rw [firstFailing_cons_bad d ds (by simpa using hd)] at h
      cases h
      exact ⟨List.mem_cons_self, by simpa using hd⟩

/-- A checking command either records its first failing check or acts. -/
theorem guarded_cases (cs : List Check) (f : State → State) (s : State) :
    (∃ c, firstFailing cs = some c ∧ guarded cs f s = .next (raise c.err c.info s)) ∨
    (firstFailing cs = none ∧ guarded cs f s = .next (advance (f s))) := by
  unfold guarded complete
  cases h : firstFailing cs with
  | none => exact .inr ⟨rfl, rfl⟩
  | some c => exact .inl ⟨c, rfl, rfl⟩

theorem guarded_ok (cs : List Check) (f : State → State) (s : State) (h : firstFailing cs = none) :
    guarded cs f s = .next (advance (f s)) := by simp [guarded, h, complete]

theorem guarded_fail (cs : List Check) (f : State → State) (s : State) (c : Check)
    (h : firstFailing cs = some c) : guarded cs f s = .next (raise c.err c.info s) := by simp [guarded, h]

theorem guardedLog_ok (cs : List Check) (f : Unit → List Access) (h : firstFailing cs = none) :
    guardedLog cs f = f () := by simp [guardedLog, h]

theorem guardedLog_fail (cs : List Check) (f : Unit → List Access) (c : Check)
    (h : firstFailing cs = some c) : guardedLog cs f = [] := by simp [guardedLog, h]

/-- `InRange` (20_memory.md R53). -/
theorem inRange_iff (cfg : Config) (a n : Nat) :
    inRange cfg a n = true ↔ n = 0 ∨ a + n ≤ cfg.memSize := by simp [inRange]

/-! ### The bus -/

@[simp] theorem busStart_mem (m : Memory) : (busStart m).mem = m := rfl
@[simp] theorem busStart_log (m : Memory) : (busStart m).log = [] := rfl
@[simp] theorem busRead_bytes (b : Bus) (a n : Nat) : (busRead b a n).1 = memRead b.mem a n := rfl
@[simp] theorem busRead_mem (b : Bus) (a n : Nat) : (busRead b a n).2.mem = b.mem := rfl
@[simp] theorem busRead_log (b : Bus) (a n : Nat) : (busRead b a n).2.log = b.log ++ readsAt a n := rfl
@[simp] theorem busWrite_mem (b : Bus) (a : Nat) (bs : List Byte) :
    (busWrite b a bs).mem = memWrite b.mem a bs := rfl
@[simp] theorem busWrite_log (b : Bus) (a : Nat) (bs : List Byte) :
    (busWrite b a bs).log = b.log ++ writesAt a bs.length := rfl
@[simp] theorem busReadByte_byte (b : Bus) (a : Nat) : (busReadByte b a).1 = memGet b.mem a := rfl
@[simp] theorem busReadByte_mem (b : Bus) (a : Nat) : (busReadByte b a).2.mem = b.mem := rfl
@[simp] theorem busReadByte_log (b : Bus) (a : Nat) : (busReadByte b a).2.log = b.log ++ [.read a] := rfl
@[simp] theorem busWriteByte_mem (b : Bus) (a : Nat) (v : Byte) :
    (busWriteByte b a v).mem = memSet b.mem a v := rfl
@[simp] theorem busWriteByte_log (b : Bus) (a : Nat) (v : Byte) :
    (busWriteByte b a v).log = b.log ++ [.write a] := rfl

theorem mem_readsAt (a n : Nat) (x : Access) : x ∈ readsAt a n ↔ ∃ j, j < n ∧ x = .read (a + j) := by
  induction n generalizing a with
  | zero => simp [readsAt]
  | succ n ih =>
    simp only [readsAt, List.mem_cons, ih]
    constructor
    · rintro (rfl | ⟨j, hj, rfl⟩)
      · exact ⟨0, by omega, rfl⟩
      · exact ⟨j + 1, by omega, by rw [Nat.add_assoc, Nat.add_comm 1 j]⟩
    · rintro ⟨j, hj, rfl⟩
      cases j with
      | zero => exact .inl rfl
      | succ j => exact .inr ⟨j, by omega, by rw [Nat.add_assoc, Nat.add_comm 1 j]⟩

theorem mem_writesAt (a n : Nat) (x : Access) : x ∈ writesAt a n ↔ ∃ j, j < n ∧ x = .write (a + j) := by
  induction n generalizing a with
  | zero => simp [writesAt]
  | succ n ih =>
    simp only [writesAt, List.mem_cons, ih]
    constructor
    · rintro (rfl | ⟨j, hj, rfl⟩)
      · exact ⟨0, by omega, rfl⟩
      · exact ⟨j + 1, by omega, by rw [Nat.add_assoc, Nat.add_comm 1 j]⟩
    · rintro ⟨j, hj, rfl⟩
      cases j with
      | zero => exact .inl rfl
      | succ j => exact .inr ⟨j, by omega, by rw [Nat.add_assoc, Nat.add_comm 1 j]⟩

/-! ### Operands -/

theorem wBits_eq (w : Width) : wBits w = 8 * wBytes w := by cases w <;> rfl

theorem wBytes_pos (w : Width) : 0 < wBytes w := by cases w <;> decide

theorem wBits_le (w : Width) : wBits w ≤ 64 := by cases w <;> decide

theorem xw_toNat (w : Width) (s : State) (r : Reg) : (xw w s r).toNat = (getReg s r).toNat % 2 ^ wBits w := by
  simp [xw]

theorem zext64_toNat (w : Width) (v : BitVec (wBits w)) : (zext64 v).toNat = v.toNat := by
  have hv := v.isLt
  have : 2 ^ wBits w ≤ 2 ^ 64 := Nat.pow_le_pow_right (by decide) (wBits_le w)
  simp only [zext64, BitVec.toNat_setWidth]
  exact Nat.mod_eq_of_lt (by omega)

theorem xw_bit (w : Width) (s : State) (r : Reg) (k : Nat) :
    (xw w s r).getLsbD k = (decide (k < wBits w) && (getReg s r).getLsbD k) := by
  simp [xw, BitVec.getLsbD_setWidth]
theorem zext_bit (w : Width) (v : BitVec (wBits w)) (k : Nat) : (zext64 v).getLsbD k = v.getLsbD k := by
  simp only [zext64, BitVec.getLsbD_setWidth]
  by_cases h : k < 64
  · simp [h]
  · have := wBits_le w
    rw [BitVec.getLsbD_of_ge v k (by omega)]; simp

/-! ### The machine at any configuration -/

/-- Every command is either an unconditional effect or a checked one (60_exceptions.md R203): whatever the
state, it records one error or completes, and `pc` advances. -/
theorem execIn_cases (cfg : Config) (i : Instr) (s : State) :
    (∃ e info, execIn cfg i s = .next (raise e info s)) ∨ (∃ t, execIn cfg i s = .next (advance t)) := by
  have g : ∀ cs f, (∃ e info, guarded cs f s = .next (raise e info s)) ∨
      (∃ t, guarded cs f s = .next (advance t)) := fun cs f => by
    rcases guarded_cases cs f s with ⟨c, _, h⟩ | ⟨_, h⟩
    · exact .inl ⟨_, _, h⟩
    · exact .inr ⟨_, h⟩
  cases i <;> first
    | exact g _ _
    | exact .inr ⟨_, rfl⟩

end Sys2Proof.Machine
end

