-- ==== Sys2Proof/Laws/PerInstr.lean ====
section
/-! SUPPORT. The family `EncodingFitsRow`: the word of every command fits its row of the opcode map,
`encode i & mask = match` (spec/30_encoding.md R75), one lemma per command. -/

namespace Sys2Proof

/-- On numbers: a mask of `h` ones, `m` zeros and `l` ones picks the top field of a word whose low field
is zero. -/
theorem nat_and_mask (h m l A B : Nat) (hA : A < 2 ^ h) (hB : B < 2 ^ m) :
    (2 ^ l * (2 ^ m * A + B)) &&& (2 ^ l * (2 ^ m * (2 ^ h - 1)) + (2 ^ l - 1)) = 2 ^ l * (2 ^ m * A) := by
  apply Nat.eq_of_testBit_eq
  intro j
  have e0 : 2 ^ l * (2 ^ m * A) = 2 ^ l * (2 ^ m * A + 0) := by simp
  have e1 : 2 ^ l * (2 ^ m * (2 ^ h - 1)) = 2 ^ l * (2 ^ m * (2 ^ h - 1) + 0) := by simp
  have e2 : 2 ^ l * (2 ^ m * A + B) = 2 ^ l * (2 ^ m * A + B) + 0 := by simp
  have e3 : 2 ^ l * (2 ^ m * A) = 2 ^ l * (2 ^ m * A + 0) + 0 := by simp
  have hl : 2 ^ l - 1 < 2 ^ l := by have := Nat.two_pow_pos l; omega
  rw [Nat.testBit_and, e1, e2, e3, Nat.testBit_two_pow_mul_add _ hl,
    Nat.testBit_two_pow_mul_add _ (Nat.two_pow_pos l), Nat.testBit_two_pow_mul_add _ (Nat.two_pow_pos l)]
  by_cases h1 : j < l
  · simp [h1]
  · simp only [h1, if_false]
    rw [Nat.testBit_two_pow_mul_add _ hB, Nat.testBit_two_pow_mul_add _ (Nat.two_pow_pos m),
      Nat.testBit_two_pow_mul_add _ (Nat.two_pow_pos m)]
    by_cases h2 : j - l < m
    · simp [h2]
    · simp only [h2, if_false, Nat.testBit_two_pow_sub_one]
      by_cases h3 : j - l - m < h
      · simp [h3]
      · have : A.testBit (j - l - m) = false := Nat.testBit_lt_two_pow
          (Nat.lt_of_lt_of_le hA (Nat.pow_le_pow_right (by decide) (by omega)))
        simp [this]

/-- The same on words, the word, mask and match given as numbers. -/
theorem word_and_mask (h m l A B : Nat) (hA : A < 2 ^ h) (hB : B < 2 ^ m) (hs : l + m + h = 32)
    (N : Nat) (M R : Word32) (hN : N = 2 ^ l * (2 ^ m * A + B))
    (hM : M.toNat = 2 ^ l * (2 ^ m * (2 ^ h - 1)) + (2 ^ l - 1)) (hR : R.toNat = 2 ^ l * (2 ^ m * A)) :
    BitVec.ofNat 32 N &&& M = R := by
  apply BitVec.eq_of_toNat_eq
  have hlt : N < 2 ^ 32 := by
    have h1 : 2 ^ m * A + B < 2 ^ (m + h) := by
      have : 2 ^ m * (A + 1) ≤ 2 ^ m * 2 ^ h := Nat.mul_le_mul_left _ hA
      rw [Nat.pow_add]
      rw [Nat.mul_add] at this
      omega
    rw [hN, ← hs, Nat.add_assoc, Nat.pow_add 2 l]
    exact Nat.mul_lt_mul_of_pos_left h1 (Nat.two_pow_pos l)
  rw [BitVec.toNat_and, BitVec.toNat_ofNat, Nat.mod_eq_of_lt hlt, hM, hR, hN, nat_and_mask h m l A B hA hB]

/-- A mask with a zero low field clears the low field. -/
theorem nat_and_high (l A B C : Nat) (hB : B < 2 ^ l) :
    (2 ^ l * A + B) &&& (2 ^ l * C + 0) = 2 ^ l * (A &&& C) := by
  apply Nat.eq_of_testBit_eq
  intro j
  have e : 2 ^ l * (A &&& C) = 2 ^ l * (A &&& C) + 0 := rfl
  rw [e, Nat.testBit_and, Nat.testBit_two_pow_mul_add _ hB,
    Nat.testBit_two_pow_mul_add _ (Nat.two_pow_pos l), Nat.testBit_two_pow_mul_add _ (Nat.two_pow_pos l)]
  by_cases hj : j < l
  · simp [hj]
  · simp only [hj, if_false, Nat.testBit_and]

/-- The same for a word in format I: its low 16 bits are the immediate. -/
theorem imm_fits (op : Nat) (hop : op < 64) (rd : Reg) (imm : Word16) (r : Row)
    (hm : r.matchBits.toNat = op * 2 ^ 26) (hk : r.mask = 0xFF1F0000#32) :
    packImm r rd imm &&& r.mask = r.matchBits := by
  have h_rd := rd.isLt
  have h_imm := imm.isLt
  apply BitVec.eq_of_toNat_eq
  have hW : r.matchBits.toNat + packRegs 0 [rd] + imm.toNat
      = 2 ^ 16 * (2 ^ 5 * (2 ^ 3 * (op * 4) + rd.val)) + imm.toNat := by
    rw [hm]; simp only [packRegs]; omega
  have hM : (0xFF1F0000#32).toNat = 2 ^ 16 * (2 ^ 5 * (2 ^ 3 * (2 ^ 8 - 1)) + (2 ^ 5 - 1)) + 0 := by decide
  rw [hk, BitVec.toNat_and, packImm, BitVec.toNat_ofNat, hW, Nat.mod_eq_of_lt (by omega), hM, hm]
  have key := nat_and_mask 8 3 5 (op * 4) rd.val (by omega) (by omega)
  have e : op * 2 ^ 26 = 2 ^ 16 * (2 ^ 5 * (2 ^ 3 * (op * 4))) := by omega
  rw [nat_and_high 16 _ _ _ h_imm, key, e]

theorem widthCode_lt (w : Width) : widthCode w < 4 := by cases w <;> decide

end Sys2Proof

namespace Sys2Proof.Laws

/-- `encode i & mask = match` for the row of `i`. -/
def EncodingFitsRow.Statement (i : Instr) : Prop := encode i &&& i.row.mask = i.row.matchBits

theorem EncodingFitsRow.nop : EncodingFitsRow.Statement (.nop) := by
  unfold EncodingFitsRow.Statement; decide

theorem EncodingFitsRow.ldi (rd : Reg) (imm : Word16) : EncodingFitsRow.Statement (.ldi rd imm) := by
  exact imm_fits 1 (by decide) rd imm _ rfl rfl

theorem EncodingFitsRow.ldis (rd : Reg) (imm : Word16) : EncodingFitsRow.Statement (.ldis rd imm) := by
  exact imm_fits 2 (by decide) rd imm _ rfl rfl

theorem EncodingFitsRow.ld (w : Width) (rd ra : Reg) : EncodingFitsRow.Statement (.ld w rd ra) := by
  have h_rd := rd.isLt
  have h_ra := ra.isLt
  have h_w := widthCode_lt w
  refine word_and_mask 6 8 18 3 (widthCode w * 2 ^ 6 + rd.val * 2 ^ 3 + ra.val * 2 ^ 0) (by decide) (by omega) rfl _ _ _ ?_ rfl rfl
  change 201326592 + widthCode w * 2 ^ 24 + packRegs 0 _ = _
  simp only [packRegs]; omega

theorem EncodingFitsRow.st (w : Width) (rs ra : Reg) : EncodingFitsRow.Statement (.st w rs ra) := by
  have h_rs := rs.isLt
  have h_ra := ra.isLt
  have h_w := widthCode_lt w
  refine word_and_mask 6 8 18 4 (widthCode w * 2 ^ 6 + rs.val * 2 ^ 3 + ra.val * 2 ^ 0) (by decide) (by omega) rfl _ _ _ ?_ rfl rfl
  change 268435456 + widthCode w * 2 ^ 24 + packRegs 0 _ = _
  simp only [packRegs]; omega

theorem EncodingFitsRow.clrerr : EncodingFitsRow.Statement (.clrerr) := by
  unfold EncodingFitsRow.Statement; decide

theorem EncodingFitsRow.expmask (w : Width) (rd rs : Reg) : EncodingFitsRow.Statement (.expmask w rd rs) := by
  have h_rd := rd.isLt
  have h_rs := rs.isLt
  have h_w := widthCode_lt w
  refine word_and_mask 6 8 18 16 (widthCode w * 2 ^ 6 + rd.val * 2 ^ 3 + rs.val * 2 ^ 0) (by decide) (by omega) rfl _ _ _ ?_ rfl rfl
  change 1073741824 + widthCode w * 2 ^ 24 + packRegs 0 _ = _
  simp only [packRegs]; omega

theorem EncodingFitsRow.exptop (w : Width) (rd rs : Reg) : EncodingFitsRow.Statement (.exptop w rd rs) := by
  have h_rd := rd.isLt
  have h_rs := rs.isLt
  have h_w := widthCode_lt w
  refine word_and_mask 6 8 18 17 (widthCode w * 2 ^ 6 + rd.val * 2 ^ 3 + rs.val * 2 ^ 0) (by decide) (by omega) rfl _ _ _ ?_ rfl rfl
  change 1140850688 + widthCode w * 2 ^ 24 + packRegs 0 _ = _
  simp only [packRegs]; omega

theorem EncodingFitsRow.iszero (w : Width) (rd rs : Reg) : EncodingFitsRow.Statement (.iszero w rd rs) := by
  have h_rd := rd.isLt
  have h_rs := rs.isLt
  have h_w := widthCode_lt w
  refine word_and_mask 6 8 18 18 (widthCode w * 2 ^ 6 + rd.val * 2 ^ 3 + rs.val * 2 ^ 0) (by decide) (by omega) rfl _ _ _ ?_ rfl rfl
  change 1207959552 + widthCode w * 2 ^ 24 + packRegs 0 _ = _
  simp only [packRegs]; omega

theorem EncodingFitsRow.iseq (w : Width) (rd ra rb : Reg) : EncodingFitsRow.Statement (.iseq w rd ra rb) := by
  have h_rd := rd.isLt
  have h_ra := ra.isLt
  have h_rb := rb.isLt
  have h_w := widthCode_lt w
  refine word_and_mask 6 11 15 20 (widthCode w * 2 ^ 9 + rd.val * 2 ^ 6 + ra.val * 2 ^ 3 + rb.val * 2 ^ 0) (by decide) (by omega) rfl _ _ _ ?_ rfl rfl
  change 1342177280 + widthCode w * 2 ^ 24 + packRegs 0 _ = _
  simp only [packRegs]; omega

theorem EncodingFitsRow.islt (w : Width) (rd ra rb : Reg) : EncodingFitsRow.Statement (.islt w rd ra rb) := by
  have h_rd := rd.isLt
  have h_ra := ra.isLt
  have h_rb := rb.isLt
  have h_w := widthCode_lt w
  refine word_and_mask 6 11 15 21 (widthCode w * 2 ^ 9 + rd.val * 2 ^ 6 + ra.val * 2 ^ 3 + rb.val * 2 ^ 0) (by decide) (by omega) rfl _ _ _ ?_ rfl rfl
  change 1409286144 + widthCode w * 2 ^ 24 + packRegs 0 _ = _
  simp only [packRegs]; omega

theorem EncodingFitsRow.islte (w : Width) (rd ra rb : Reg) : EncodingFitsRow.Statement (.islte w rd ra rb) := by
  have h_rd := rd.isLt
  have h_ra := ra.isLt
  have h_rb := rb.isLt
  have h_w := widthCode_lt w
  refine word_and_mask 6 11 15 22 (widthCode w * 2 ^ 9 + rd.val * 2 ^ 6 + ra.val * 2 ^ 3 + rb.val * 2 ^ 0) (by decide) (by omega) rfl _ _ _ ?_ rfl rfl
  change 1476395008 + widthCode w * 2 ^ 24 + packRegs 0 _ = _
  simp only [packRegs]; omega

theorem EncodingFitsRow.sel (w : Width) (rd rm rt rf : Reg) : EncodingFitsRow.Statement (.sel w rd rm rt rf) := by
  have h_rd := rd.isLt
  have h_rm := rm.isLt
  have h_rt := rt.isLt
  have h_rf := rf.isLt
  have h_w := widthCode_lt w
  refine word_and_mask 6 14 12 24 (widthCode w * 2 ^ 12 + rd.val * 2 ^ 9 + rm.val * 2 ^ 6 + rt.val * 2 ^ 3 + rf.val * 2 ^ 0) (by decide) (by omega) rfl _ _ _ ?_ rfl rfl
  change 1610612736 + widthCode w * 2 ^ 24 + packRegs 0 _ = _
  simp only [packRegs]; omega

theorem EncodingFitsRow.sel2 (w : Width) (rd rm0 rv0 rm1 rv1 ro : Reg) : EncodingFitsRow.Statement (.sel2 w rd rm0 rv0 rm1 rv1 ro) := by
  have h_rd := rd.isLt
  have h_rm0 := rm0.isLt
  have h_rv0 := rv0.isLt
  have h_rm1 := rm1.isLt
  have h_rv1 := rv1.isLt
  have h_ro := ro.isLt
  have h_w := widthCode_lt w
  refine word_and_mask 6 20 6 25 (widthCode w * 2 ^ 18 + rd.val * 2 ^ 15 + rm0.val * 2 ^ 12 + rv0.val * 2 ^ 9 + rm1.val * 2 ^ 6 + rv1.val * 2 ^ 3 + ro.val * 2 ^ 0) (by decide) (by omega) rfl _ _ _ ?_ rfl rfl
  change 1677721600 + widthCode w * 2 ^ 24 + packRegs 0 _ = _
  simp only [packRegs]; omega

theorem EncodingFitsRow.sel3 (w : Width) (rd rm0 rv0 rm1 rv1 rm2 rv2 ro : Reg) : EncodingFitsRow.Statement (.sel3 w rd rm0 rv0 rm1 rv1 rm2 rv2 ro) := by
  have h_rd := rd.isLt
  have h_rm0 := rm0.isLt
  have h_rv0 := rv0.isLt
  have h_rm1 := rm1.isLt
  have h_rv1 := rv1.isLt
  have h_rm2 := rm2.isLt
  have h_rv2 := rv2.isLt
  have h_ro := ro.isLt
  have h_w := widthCode_lt w
  refine word_and_mask 6 26 0 26 (widthCode w * 2 ^ 24 + rd.val * 2 ^ 21 + rm0.val * 2 ^ 18 + rv0.val * 2 ^ 15 + rm1.val * 2 ^ 12 + rv1.val * 2 ^ 9 + rm2.val * 2 ^ 6 + rv2.val * 2 ^ 3 + ro.val * 2 ^ 0) (by decide) (by omega) rfl _ _ _ ?_ rfl rfl
  change 1744830464 + widthCode w * 2 ^ 24 + packRegs 0 _ = _
  simp only [packRegs]; omega

theorem EncodingFitsRow.ccopy (w : Width) (rc rto rf0 rf1 rn : Reg) : EncodingFitsRow.Statement (.ccopy w rc rto rf0 rf1 rn) := by
  have h_rc := rc.isLt
  have h_rto := rto.isLt
  have h_rf0 := rf0.isLt
  have h_rf1 := rf1.isLt
  have h_rn := rn.isLt
  have h_w := widthCode_lt w
  refine word_and_mask 6 17 9 27 (widthCode w * 2 ^ 15 + rc.val * 2 ^ 12 + rto.val * 2 ^ 9 + rf0.val * 2 ^ 6 + rf1.val * 2 ^ 3 + rn.val * 2 ^ 0) (by decide) (by omega) rfl _ _ _ ?_ rfl rfl
  change 1811939328 + widthCode w * 2 ^ 24 + packRegs 0 _ = _
  simp only [packRegs]; omega

theorem EncodingFitsRow.czero (w : Width) (rc ra rn : Reg) : EncodingFitsRow.Statement (.czero w rc ra rn) := by
  have h_rc := rc.isLt
  have h_ra := ra.isLt
  have h_rn := rn.isLt
  have h_w := widthCode_lt w
  refine word_and_mask 6 11 15 28 (widthCode w * 2 ^ 9 + rc.val * 2 ^ 6 + ra.val * 2 ^ 3 + rn.val * 2 ^ 0) (by decide) (by omega) rfl _ _ _ ?_ rfl rfl
  change 1879048192 + widthCode w * 2 ^ 24 + packRegs 0 _ = _
  simp only [packRegs]; omega

theorem EncodingFitsRow.striplz (rd rl ra rn : Reg) : EncodingFitsRow.Statement (.striplz rd rl ra rn) := by
  have h_rd := rd.isLt
  have h_rl := rl.isLt
  have h_ra := ra.isLt
  have h_rn := rn.isLt
  refine word_and_mask 8 12 12 116 (rd.val * 2 ^ 9 + rl.val * 2 ^ 6 + ra.val * 2 ^ 3 + rn.val * 2 ^ 0) (by decide) (by omega) rfl _ _ _ ?_ rfl rfl
  change 1946157056 + 0 * 2 ^ 24 + packRegs 0 _ = _
  simp only [packRegs]; omega

theorem EncodingFitsRow.poison (ra rn : Reg) : EncodingFitsRow.Statement (.poison ra rn) := by
  have h_ra := ra.isLt
  have h_rn := rn.isLt
  refine word_and_mask 8 6 18 120 (ra.val * 2 ^ 3 + rn.val * 2 ^ 0) (by decide) (by omega) rfl _ _ _ ?_ rfl rfl
  change 2013265920 + 0 * 2 ^ 24 + packRegs 0 _ = _
  simp only [packRegs]; omega

theorem EncodingFitsRow.unpoison (ra rn : Reg) : EncodingFitsRow.Statement (.unpoison ra rn) := by
  have h_ra := ra.isLt
  have h_rn := rn.isLt
  refine word_and_mask 8 6 18 124 (ra.val * 2 ^ 3 + rn.val * 2 ^ 0) (by decide) (by omega) rfl _ _ _ ?_ rfl rfl
  change 2080374784 + 0 * 2 ^ 24 + packRegs 0 _ = _
  simp only [packRegs]; omega

theorem EncodingFitsRow.ideaks (ra rn : Reg) : EncodingFitsRow.Statement (.ideaks ra rn) := by
  have h_ra := ra.isLt
  have h_rn := rn.isLt
  refine word_and_mask 8 6 18 128 (ra.val * 2 ^ 3 + rn.val * 2 ^ 0) (by decide) (by omega) rfl _ _ _ ?_ rfl rfl
  change 2147483648 + 0 * 2 ^ 24 + packRegs 0 _ = _
  simp only [packRegs]; omega

theorem EncodingFitsRow.ideaenc (ri ro rn : Reg) : EncodingFitsRow.Statement (.ideaenc ri ro rn) := by
  have h_ri := ri.isLt
  have h_ro := ro.isLt
  have h_rn := rn.isLt
  refine word_and_mask 8 9 15 132 (ri.val * 2 ^ 6 + ro.val * 2 ^ 3 + rn.val * 2 ^ 0) (by decide) (by omega) rfl _ _ _ ?_ rfl rfl
  change 2214592512 + 0 * 2 ^ 24 + packRegs 0 _ = _
  simp only [packRegs]; omega

theorem EncodingFitsRow.ideadec (ri ro rn : Reg) : EncodingFitsRow.Statement (.ideadec ri ro rn) := by
  have h_ri := ri.isLt
  have h_ro := ro.isLt
  have h_rn := rn.isLt
  refine word_and_mask 8 9 15 136 (ri.val * 2 ^ 6 + ro.val * 2 ^ 3 + rn.val * 2 ^ 0) (by decide) (by omega) rfl _ _ _ ?_ rfl rfl
  change 2281701376 + 0 * 2 ^ 24 + packRegs 0 _ = _
  simp only [packRegs]; omega

theorem EncodingFitsRow.ideaclr : EncodingFitsRow.Statement (.ideaclr) := by
  unfold EncodingFitsRow.Statement; decide

theorem EncodingFitsRow.wwks (ra rn : Reg) : EncodingFitsRow.Statement (.wwks ra rn) := by
  have h_ra := ra.isLt
  have h_rn := rn.isLt
  refine word_and_mask 8 6 18 160 (ra.val * 2 ^ 3 + rn.val * 2 ^ 0) (by decide) (by omega) rfl _ _ _ ?_ rfl rfl
  change 2684354560 + 0 * 2 ^ 24 + packRegs 0 _ = _
  simp only [packRegs]; omega

theorem EncodingFitsRow.wwsiv (ra rn : Reg) : EncodingFitsRow.Statement (.wwsiv ra rn) := by
  have h_ra := ra.isLt
  have h_rn := rn.isLt
  refine word_and_mask 8 6 18 164 (ra.val * 2 ^ 3 + rn.val * 2 ^ 0) (by decide) (by omega) rfl _ _ _ ?_ rfl rfl
  change 2751463424 + 0 * 2 ^ 24 + packRegs 0 _ = _
  simp only [packRegs]; omega

theorem EncodingFitsRow.wwgen : EncodingFitsRow.Statement (.wwgen) := by
  unfold EncodingFitsRow.Statement; decide

theorem EncodingFitsRow.wwmix (rd : Reg) : EncodingFitsRow.Statement (.wwmix rd) := by
  have h_rd := rd.isLt
  refine word_and_mask 8 3 21 172 (rd.val * 2 ^ 0) (by decide) (by omega) rfl _ _ _ ?_ rfl rfl
  change 2885681152 + 0 * 2 ^ 24 + packRegs 0 _ = _
  simp only [packRegs]; omega

theorem EncodingFitsRow.wwciph (ri ro rn : Reg) : EncodingFitsRow.Statement (.wwciph ri ro rn) := by
  have h_ri := ri.isLt
  have h_ro := ro.isLt
  have h_rn := rn.isLt
  refine word_and_mask 8 9 15 176 (ri.val * 2 ^ 6 + ro.val * 2 ^ 3 + rn.val * 2 ^ 0) (by decide) (by omega) rfl _ _ _ ?_ rfl rfl
  change 2952790016 + 0 * 2 ^ 24 + packRegs 0 _ = _
  simp only [packRegs]; omega

theorem EncodingFitsRow.wwclr : EncodingFitsRow.Statement (.wwclr) := by
  unfold EncodingFitsRow.Statement; decide

theorem EncodingFitsRow.wwviv (rd rs : Reg) : EncodingFitsRow.Statement (.wwviv rd rs) := by
  have h_rd := rd.isLt
  have h_rs := rs.isLt
  refine word_and_mask 8 6 18 184 (rd.val * 2 ^ 3 + rs.val * 2 ^ 0) (by decide) (by omega) rfl _ _ _ ?_ rfl rfl
  change 3087007744 + 0 * 2 ^ 24 + packRegs 0 _ = _
  simp only [packRegs]; omega

end Sys2Proof.Laws
end

