-- ==== Sys2Proof/Laws/Status.lean ====
section
/-! SUPPORT. The laws of the `STATUS` fields (spec/10_state.md R26), bit by bit. -/

namespace Sys2Proof.Machine

theorem getLsbD_seven (k : Nat) : (7#64).getLsbD k = decide (k < 3) := by
  by_cases h : k < 3
  · interval_cases k <;> rfl
  · have : (7#64).getLsbD k = false := by
      rw [BitVec.getLsbD_ofNat]
      have h7 : Nat.testBit 7 k = false := Nat.testBit_lt_two_pow
        (Nat.lt_of_lt_of_le (by decide : 7 < 2 ^ 3) (Nat.pow_le_pow_right (by decide) (by omega)))
      simp [h7]
    rw [this]; simp [h]

theorem setStatusErr_getLsbD (st : Word64) (e : BitVec 3) (k : Nat) :
    (setStatusErr st e).getLsbD k = if k < 3 then e.getLsbD k else st.getLsbD k := by
  unfold setStatusErr
  rw [BitVec.getLsbD_or, BitVec.getLsbD_and, BitVec.getLsbD_not, getLsbD_seven, BitVec.getLsbD_setWidth]
  by_cases h : k < 3
  · have : k < 64 := by omega
    simp [h, this]
  · by_cases h' : k < 64
    · have : e.getLsbD k = false := BitVec.getLsbD_of_ge e k (by omega)
      simp [h, h', this]
    · have : st.getLsbD k = false := BitVec.getLsbD_of_ge st k (by omega)
      simp [h, h', this]

@[simp] theorem statusErr_setStatusErr (st : Word64) (e : BitVec 3) : statusErr (setStatusErr st e) = e := by
  apply BitVec.eq_of_getLsbD_eq
  intro k hk
  rw [statusErr, BitVec.getLsbD_extractLsb', setStatusErr_getLsbD]
  simp [hk]

theorem setStatusErr_high (st : Word64) (e : BitVec 3) (k : Nat) (h : 3 ≤ k) :
    (setStatusErr st e).getLsbD k = st.getLsbD k := by
  rw [setStatusErr_getLsbD, if_neg (by omega)]

theorem setStatusBit_getLsbD (st : Word64) (k : Nat) (b : Bool) (hk : k < 64) (j : Nat) :
    (setStatusBit st k b).getLsbD j = if j = k then b else st.getLsbD j := by
  unfold setStatusBit
  by_cases hj : j < 64
  · cases b
    · simp only [Bool.false_eq_true, ↓reduceIte, BitVec.getLsbD_and, BitVec.getLsbD_not,
        BitVec.getLsbD_twoPow]
      by_cases h : j = k
      · simp [h, hk]
      · simp [h, Ne.symm h, hj]
    · simp only [↓reduceIte, BitVec.getLsbD_or, BitVec.getLsbD_twoPow]
      by_cases h : j = k
      · simp [h, hk]
      · simp [h, Ne.symm h]
  · have h1 : ∀ v : Word64, v.getLsbD j = false := fun v => BitVec.getLsbD_of_ge v j (by omega)
    rw [h1, h1, if_neg (by omega)]

@[simp] theorem statusErr_setStatusBit (st : Word64) (k : Nat) (b : Bool) (h : 3 ≤ k) (hk : k < 64) :
    statusErr (setStatusBit st k b) = statusErr st := by
  apply BitVec.eq_of_getLsbD_eq
  intro j hj
  simp only [statusErr, BitVec.getLsbD_extractLsb', setStatusBit_getLsbD _ _ _ hk]
  rw [if_neg (by omega)]

@[simp] theorem statusErr_setIdeaKeyed (st : Word64) (b : Bool) :
    statusErr (setIdeaKeyed st b) = statusErr st := statusErr_setStatusBit st 8 b (by decide) (by decide)
@[simp] theorem statusErr_setWwKeyed (st : Word64) (b : Bool) :
    statusErr (setWwKeyed st b) = statusErr st := statusErr_setStatusBit st 9 b (by decide) (by decide)
@[simp] theorem statusErr_setWwIvset (st : Word64) (b : Bool) :
    statusErr (setWwIvset st b) = statusErr st := statusErr_setStatusBit st 10 b (by decide) (by decide)

theorem setIdeaKeyed_getLsbD (st : Word64) (b : Bool) (j : Nat) :
    (setIdeaKeyed st b).getLsbD j = if j = 8 then b else st.getLsbD j :=
  setStatusBit_getLsbD st 8 b (by decide) j
theorem setWwKeyed_getLsbD (st : Word64) (b : Bool) (j : Nat) :
    (setWwKeyed st b).getLsbD j = if j = 9 then b else st.getLsbD j :=
  setStatusBit_getLsbD st 9 b (by decide) j
theorem setWwIvset_getLsbD (st : Word64) (b : Bool) (j : Nat) :
    (setWwIvset st b).getLsbD j = if j = 10 then b else st.getLsbD j :=
  setStatusBit_getLsbD st 10 b (by decide) j

/-- No error number is 0 (60_exceptions.md R200). -/
theorem errNumber_ne_zero (e : ErrCode) : errNumber e ≠ 0 := by cases e <;> decide

/-- The reserved bits of `STATUS` are those outside the four fields (R26). -/
theorem statusReserved_getLsbD (k : Nat) (hk : k < 64) :
    statusReserved.getLsbD k = decide ((3 ≤ k ∧ k ≤ 7) ∨ 11 ≤ k) := by
  interval_cases k <;> rfl

end Sys2Proof.Machine
end

