-- ==== Sys2Proof/Laws/Uniform.lean ====
section
/-! SUPPORT. The one shape of every command: its checks, its effect, its accesses. Whatever holds of every
command is proved over `effectOf` and `logOf`, with no meaning unfolded. -/

namespace Sys2Proof.Machine

theorem rangeCheck_ok_iff (cfg : Config) (a : Word64) (n : Nat) :
    (rangeCheck cfg a n).ok = true ↔ Fits cfg a.toNat n := by
  simp [rangeCheck, inRange_iff, Fits]

theorem rangeError_none (cfg : Config) (a : Word64) (n : Nat) :
    rangeError cfg a n = none ↔ Fits cfg a.toNat n := by
  unfold rangeError Fits; split <;> simp <;> omega

theorem firstFailing_range (cfg : Config) (a : Word64) (n : Nat) (cs : List Check) :
    (firstFailing (rangeCheck cfg a n :: cs)).map (fun c => (errNumber c.err, c.info)) =
    (rangeError cfg a n).or ((firstFailing cs).map (fun c => (errNumber c.err, c.info))) := by
  unfold rangeError
  by_cases h : Fits cfg a.toNat n
  · have h1 := (rangeCheck_ok_iff cfg a n).mpr h
    rw [firstFailing_cons_ok _ _ h1, if_neg (by unfold Fits at h; omega)]
    rfl
  · have h1 : (rangeCheck cfg a n).ok = false := by
      rw [← Bool.not_eq_true, rangeCheck_ok_iff]; exact h
    rw [firstFailing_cons_bad _ _ h1, if_pos (by unfold Fits at h; omega)]
    rfl

theorem recorded_raise (e : ErrCode) (info : Word64) (s : State) :
    Recorded s (raise e info s) (errNumber e) info where
  pc := raise_pc e info s
  first h := by rw [raise_of_no_error e info s h]; exact ⟨statusErr_setStatusErr _ _, rfl, rfl⟩
  sticky h := by rw [raise_of_error e info s h]; exact ⟨rfl, rfl, rfl⟩
  otherStatus k hk := by
    by_cases h : statusErr s.status = 0
    · rw [raise_of_no_error e info s h]; exact setStatusErr_high _ _ k hk
    · rw [raise_of_error e info s h]
  regs := raise_x e info s
  mem := raise_mem e info s
  idea := raise_idea e info s
  ww := raise_ww e info s
  host := raise_host e info s

/-- The checks of each command, as one list -/
def checksOf (cfg : Config) (i : Instr) (s : State) : List Check :=
  match i with
  | .ld w _ ra | .st w _ ra => loadStoreChecks cfg w ra s
  | .ccopy w _ rto rf0 rf1 rn => ccopyChecks cfg w rto rf0 rf1 rn s
  | .czero w _ ra rn => czeroChecks cfg w ra rn s
  | .striplz _ _ ra rn => striplzChecks cfg ra rn s
  | .ideaks ra rn | .wwks ra rn => keyChecks cfg ra rn s
  | .wwsiv ra rn => ivChecks cfg ra rn s
  | .ideaenc ri ro rn | .ideadec ri ro rn => blockChecks cfg ri ro rn s
  | .wwciph ri ro rn => cipherChecks cfg ri ro rn s
  | .nop | .ldi _ _ | .ldis _ _ | .clrerr | .poison _ _ | .unpoison _ _ => []
  | .expmask _ _ _ | .exptop _ _ _ | .iszero _ _ _ => []
  | .iseq _ _ _ _ | .islt _ _ _ _ | .islte _ _ _ _ => []
  | .sel _ _ _ _ _ | .sel2 _ _ _ _ _ _ _ | .sel3 _ _ _ _ _ _ _ _ _ => []
  | .ideaclr | .wwgen | .wwmix _ | .wwclr | .wwviv _ _ => []

/-- The effect of each command when its checks pass -/
def effectOf (cfg : Config) (i : Instr) (s : State) : State :=
  match i with
  | .ld w rd ra => loadEffect w rd ra s
  | .st w rs ra => storeEffect w rs ra s
  | .ccopy w rc rto rf0 rf1 rn => ccopyEffect w rc rto rf0 rf1 rn s
  | .czero w rc ra rn => czeroEffect w rc ra rn s
  | .striplz rd rl ra rn => stripEffect rd rl ra rn s
  | .ideaks ra _ => ideaksEffect ra s
  | .wwks ra _ => wwksEffect cfg ra s
  | .wwsiv ra _ => wwsivEffect cfg ra s
  | .ideaenc ri ro rn => ideaencEffect ri ro rn s
  | .ideadec ri ro rn => ideadecEffect ri ro rn s
  | .wwciph ri ro rn => cipherEffect cfg ri ro rn s
  | .clrerr => clearError s
  | .ldi rd imm => setReg s rd (zext64 imm)
  | .ldis rd imm => setReg s rd (zext64 (shiftIn (getReg s rd) imm))
  | .expmask w rd rs => setReg s rd (zext64 (expandMask (xw w s rs)))
  | .exptop w rd rs => setReg s rd (zext64 (expandTopBit (xw w s rs)))
  | .iszero w rd rs => setReg s rd (zext64 (isZeroMask (xw w s rs)))
  | .iseq w rd ra rb => setReg s rd (zext64 (isEqualMask (xw w s ra) (xw w s rb)))
  | .islt w rd ra rb => setReg s rd (zext64 (isLessMask (xw w s ra) (xw w s rb)))
  | .islte w rd ra rb => setReg s rd (zext64 (isLteMask (xw w s ra) (xw w s rb)))
  | .sel w rd rm rt rf => setReg s rd (zext64 (selectMask (xw w s rm) (xw w s rt) (xw w s rf)))
  | .sel2 w rd rm0 rv0 rm1 rv1 ro => setReg s rd (zext64
      (selectMask (xw w s rm0) (xw w s rv0) (selectMask (xw w s rm1) (xw w s rv1) (xw w s ro))))
  | .sel3 w rd rm0 rv0 rm1 rv1 rm2 rv2 ro => setReg s rd (zext64
      (selectMask (xw w s rm0) (xw w s rv0) (selectMask (xw w s rm1) (xw w s rv1)
        (selectMask (xw w s rm2) (xw w s rv2) (xw w s ro)))))
  | .ideaclr => { s with idea := IdeaContext.zero, status := setIdeaKeyed s.status false }
  | .wwclr => { s with ww := WakeContext.zero cfg.bufLen, status := setWwIvset (setWwKeyed s.status false) false }
  | .wwgen => { s with ww := wakeGenerate cfg s.ww }
  | .wwmix rd => setReg { s with ww := { s.ww with state := (cfg.wwMix s.ww.state s.ww.tKey s.ww.table).2 } } rd
      (zext64 (cfg.wwMix s.ww.state s.ww.tKey s.ww.table).1)
  | .wwviv rd rs => setReg s rd (zext64 (if getReg s rs = ivLength then 1#64 else 0#64))
  | .nop | .poison _ _ | .unpoison _ _ => s

/-- Every command is its checks, then its effect, then the counter. -/
theorem execIn_eq_guarded (cfg : Config) (i : Instr) (s : State) :
    execIn cfg i s = guarded (checksOf cfg i s) (effectOf cfg i) s := by
  cases i <;> rfl

theorem firstFailing_key (n : Word64) (cs : List Check) :
    (firstFailing (keyLengthCheck n :: cs)).map (fun c => (errNumber c.err, c.info)) =
    if n ≠ 16 then some (1, n) else (firstFailing cs).map (fun c => (errNumber c.err, c.info)) := by
  rw [firstFailing]
  by_cases h : n = 16
  · subst h; rfl
  · rw [if_pos h, if_neg]; · rfl
    simpa [keyLengthCheck, keyLength] using h

theorem firstFailing_iv (n : Word64) (cs : List Check) :
    (firstFailing (ivLengthCheck n :: cs)).map (fun c => (errNumber c.err, c.info)) =
    if n ≠ 8 then some (2, n) else (firstFailing cs).map (fun c => (errNumber c.err, c.info)) := by
  rw [firstFailing]
  by_cases h : n = 8
  · subst h; rfl
  · rw [if_pos h, if_neg]; · rfl
    simpa [ivLengthCheck, ivLength] using h

/-- The error the spec lists is the first failing check. -/
theorem errorOf_eq (cfg : Config) (i : Instr) (s : State) :
    errorOf cfg i s = (firstFailing (checksOf cfg i s)).map (fun c => (errNumber c.err, c.info)) := by
  cases i <;> simp only [errorOf, checksOf, loadStoreChecks, ccopyChecks, czeroChecks, striplzChecks, keyChecks,
    ivChecks, blockChecks, cipherChecks, firstFailing_nil, Option.map_none, firstFailing_range, Option.or_none,
    Option.or_assoc, natReg, firstFailing_key, firstFailing_iv]

theorem execIn_ok (cfg : Config) (i : Instr) (s : State) (h : errorOf cfg i s = none) :
    execIn cfg i s = .next (advance (effectOf cfg i s)) := by
  rw [execIn_eq_guarded]
  rw [errorOf_eq, Option.map_eq_none_iff] at h
  exact guarded_ok _ _ _ h

theorem execIn_error (cfg : Config) (i : Instr) (s : State) (code info)
    (h : errorOf cfg i s = some (code, info)) : ∃ t, execIn cfg i s = .next t ∧ Recorded s t code info := by
  rw [execIn_eq_guarded]
  rw [errorOf_eq, Option.map_eq_some_iff] at h
  obtain ⟨c, hc, he⟩ := h
  cases he
  exact ⟨_, guarded_fail _ _ _ c hc, recorded_raise _ _ _⟩

/-- The accesses of each command when its checks pass. -/
def logOf (cfg : Config) (i : Instr) (s : State) : List Access :=
  match i with
  | .ld w _ ra => (loadBus w (natReg s ra) (busStart s.mem)).2.log
  | .st w rs ra => (storeBus w (xw w s rs) (natReg s ra) (busStart s.mem)).log
  | .ccopy w rc rto rf0 rf1 rn => (ccopyEnd w rc rto rf0 rf1 rn s).log
  | .czero w rc ra rn => (czeroEnd w rc ra rn s).log
  | .striplz _ _ ra rn => (stripEnd ra rn s).bus.log
  | .ideaks ra _ | .wwks ra _ => (keyBus (natReg s ra) (busStart s.mem)).2.log
  | .ideaenc ri ro rn => (blocksEnd s.idea.ek ri ro rn s).log
  | .ideadec ri ro rn => (blocksEnd s.idea.dk ri ro rn s).log
  | .wwsiv ra _ => (ivBus (natReg s ra) (busStart s.mem)).2.log
  | .wwciph ri ro rn => (cipherEnd cfg ri ro rn s).1.log
  | .nop | .ldi _ _ | .ldis _ _ | .clrerr | .poison _ _ | .unpoison _ _ => []
  | .expmask _ _ _ | .exptop _ _ _ | .iszero _ _ _ => []
  | .iseq _ _ _ _ | .islt _ _ _ _ | .islte _ _ _ _ => []
  | .sel _ _ _ _ _ | .sel2 _ _ _ _ _ _ _ | .sel3 _ _ _ _ _ _ _ _ _ => []
  | .ideaclr | .wwgen | .wwmix _ | .wwclr | .wwviv _ _ => []

theorem accesses_eq (cfg : Config) (i : Instr) (s : State) :
    accesses cfg i s = if errorOf cfg i s = none then logOf cfg i s else [] := by
  have key : accesses cfg i s = guardedLog (checksOf cfg i s) (fun _ => logOf cfg i s) := by cases i <;> rfl
  rw [key, errorOf_eq]
  unfold guardedLog
  cases firstFailing (checksOf cfg i s) <;> simp

/-- A command that writes one register leaves everything else. -/
theorem onlyReg_setReg (rd : Reg) (s : State) (v : Word64) : OnlyReg rd s (advance (setReg s rd v)) :=
  ⟨⟨rfl, rfl, rfl, rfl, rfl, rfl, rfl⟩, fun _ h => getReg_setReg_other _ _ _ _ h, rfl⟩

theorem natReg_result (w : Width) (v : BitVec (wBits w)) (s : State) (rd : Reg) :
    natReg (advance (setReg s rd (zext64 v))) rd = v.toNat := by
  simp [natReg, zext64_toNat]

/-- Errors are a function of the public operands. -/
theorem errorOf_congr (cfg : Config) (i : Instr) (s t : State) (h : SamePublic i s t) :
    errorOf cfg i s = errorOf cfg i t := by
  cases i <;>
    simp only [SamePublic, publicRegs, List.mem_cons, List.not_mem_nil, or_false, forall_eq_or_imp, forall_eq] at h <;>
    simp_all [errorOf, natReg]

theorem listed_congr (i : Instr) (s t : State) (h : SamePublic i s t) :
    listedAccesses i s = listedAccesses i t := by
  cases i <;>
    simp only [SamePublic, publicRegs, List.mem_cons, List.not_mem_nil, or_false, forall_eq_or_imp, forall_eq] at h <;>
    simp_all [listedAccesses, natReg]

end Sys2Proof.Machine
end

