-- ==== Sys2Proof/Laws/Units.lean ====
section
/-! SUPPORT. The loops of the memory commands: what each unit does to `MEM` and to the access record, and
what a whole loop leaves when its upward copy does not run over its source. -/

namespace Sys2Proof.Machine

theorem loopUp_eq_foldl {σ : Type} (f : Nat → σ → σ) (n : Nat) (s : σ) :
    loopUp f 0 n s = (List.range n).foldl (fun s j => f j s) s := by
  induction n with
  | zero => rfl
  | succ n ih => rw [loopUp_last, List.range_succ, List.foldl_append, ih]; simp

/-- A loop whose unit `j` makes the accesses `g j` makes them all in order. -/
theorem loopUp_log {σ : Type} (f : Nat → σ → σ) (log : σ → List Access) (g : Nat → List Access)
    (h : ∀ j s, log (f j s) = log s ++ g j) (n : Nat) (s : σ) :
    log (loopUp f 0 n s) = log s ++ (List.range n).flatMap g := by
  induction n with
  | zero => simp
  | succ n ih => rw [loopUp_last, h, ih, List.range_succ]; simp

/-- A loop on the bus whose units act on the memory by `g` acts by `g` all along. -/
theorem loopUp_mem {σ : Type} (f : Nat → σ → σ) (mem : σ → Memory) (g : Nat → Memory → Memory)
    (h : ∀ j s, mem (f j s) = g j (mem s)) (n : Nat) (s : σ) :
    mem (loopUp f 0 n s) = (List.range n).foldl (fun m j => g j m) (mem s) := by
  induction n with
  | zero => rfl
  | succ n ih => rw [loopUp_last, h, ih, List.range_succ, List.foldl_append]; simp

theorem be_toNat (n : Nat) (bs : List Byte) (h : 8 * bs.length ≤ n) : (be n bs).toNat = beNat bs := by
  have h1 := beNat_lt bs
  have h2 : (256 : Nat) ^ bs.length = 2 ^ (8 * bs.length) := by
    rw [Nat.pow_mul]
  have h3 : (2 : Nat) ^ (8 * bs.length) ≤ 2 ^ n := Nat.pow_le_pow_right (by decide) h
  simp only [be, BitVec.toNat_ofNat]
  exact Nat.mod_eq_of_lt (by omega)

theorem beBytes_be (w : Width) (bs : List Byte) (h : bs.length = wBytes w) :
    beBytes (wBytes w) (be (wBits w) bs).toNat = bs := by
  rw [be_toNat _ _ (by rw [h, wBits_eq]), ← h, beBytes_beNat]

/-- Element `j` of CCOPY moves the bytes of the source the condition picks (43 R126). -/
theorem ccopyElement_mem (w : Width) (c : BitVec (wBits w)) (dst p0 p1 j : Nat) (b : Bus) :
    (ccopyElement w (expandMask c) dst p0 p1 j b).mem =
      memWrite b.mem (dst + j * wBytes w)
        (memRead b.mem ((if c = 0#_ then p1 else p0) + j * wBytes w) (wBytes w)) := by
  simp only [ccopyElement, busWrite_mem, busRead_mem, busRead_bytes, selectMask_expandMask]
  split <;> rw [beBytes_be _ _ (memRead_length _ _ _)]

theorem ccopyElement_log (w : Width) (m : BitVec (wBits w)) (dst p0 p1 j : Nat) (b : Bus) :
    (ccopyElement w m dst p0 p1 j b).log = b.log ++ (readsAt (p0 + j * wBytes w) (wBytes w) ++
      readsAt (p1 + j * wBytes w) (wBytes w) ++ writesAt (dst + j * wBytes w) (wBytes w)) := by
  simp [ccopyElement, List.append_assoc]

theorem czeroElement_mem (w : Width) (c : BitVec (wBits w)) (p j : Nat) (b : Bus) :
    (czeroElement w (expandMask c) p j b).mem =
      memWrite b.mem (p + j * wBytes w)
        (if c = 0#_ then memRead b.mem (p + j * wBytes w) (wBytes w) else List.replicate (wBytes w) 0) := by
  simp only [czeroElement, busWrite_mem, busRead_mem, busRead_bytes, selectMask_expandMask]
  split
  · rw [beBytes_be _ _ (memRead_length _ _ _)]
  · congr 1
    cases w <;> decide

theorem czeroElement_log (w : Width) (m : BitVec (wBits w)) (p j : Nat) (b : Bus) :
    (czeroElement w m p j b).log = b.log ++ (readsAt (p + j * wBytes w) (wBytes w) ++
      writesAt (p + j * wBytes w) (wBytes w)) := by
  simp [czeroElement, List.append_assoc]

theorem blockUnit_mem (K : SubkeyTable) (i o j : Nat) (b : Bus) :
    (blockUnit K i o j b).mem = memWrite b.mem (o + 8 * j)
      (beBytes 8 (ideaBlock (be 64 (memRead b.mem (i + 8 * j) 8)) K).toNat) := rfl

theorem blockUnit_log (K : SubkeyTable) (i o j : Nat) (b : Bus) :
    (blockUnit K i o j b).log = b.log ++ (readsAt (i + 8 * j) 8 ++ writesAt (o + 8 * j) 8) := by
  simp [blockUnit, List.append_assoc]

theorem stripByte_mem (a j : Nat) (p : StripScan) : (stripByte a j p).bus.mem = p.bus.mem := rfl

theorem stripByte_log (a j : Nat) (p : StripScan) :
    (stripByte a j p).bus.log = p.bus.log ++ [.read (a + j)] := rfl

theorem cipherByte_log (cfg : Config) (i o j : Nat) (p : Bus × WakeContext) :
    (cipherByte cfg i o j p).1.log = p.1.log ++ [.read (i + j), .write (o + j)] := by
  simp [cipherByte]

theorem readsAt_eq (a n : Nat) : readsAt a n = (List.range n).flatMap fun j => [Access.read (a + j)] := by
  induction n generalizing a with
  | zero => rfl
  | succ n ih =>
    rw [readsAt, ih, List.range_succ_eq_map]
    simp [List.flatMap_map, Nat.add_assoc, Nat.add_comm 1]

/-- The accesses of a command that passes its checks are those of 20_memory.md R56 and R65. -/
theorem logOf_eq (cfg : Config) (i : Instr) (s : State) : logOf cfg i s = listedAccesses i s := by
  cases i <;> simp only [logOf, listedAccesses]
  case ld => simp [loadBus]
  case st => simp [storeBus]
  case ccopy => exact (loopUp_log _ Bus.log _ (fun j b => ccopyElement_log _ _ _ _ _ j b) _ _).trans (by simp)
  case czero => exact (loopUp_log _ Bus.log _ (fun j b => czeroElement_log _ _ _ j b) _ _).trans (by simp)
  case striplz =>
    rw [readsAt_eq]
    exact (loopUp_log _ (fun p : StripScan => p.bus.log) _ (fun j p => stripByte_log _ j p) _ _).trans (by simp)
  case ideaks => simp [keyBus]
  case wwks => simp [keyBus]
  case wwsiv => simp [ivBus]
  case ideaenc => exact (loopUp_log _ Bus.log _ (fun j b => blockUnit_log _ _ _ j b) _ _).trans (by simp)
  case ideadec => exact (loopUp_log _ Bus.log _ (fun j b => blockUnit_log _ _ _ j b) _ _).trans (by simp)
  case wwciph =>
    exact (loopUp_log _ (fun p : Bus × WakeContext => p.1.log) _ (fun j p => cipherByte_log _ _ _ j p) _ _).trans
      (by simp)

/-- A loop that writes one unit of `k` bytes at `dst + j * k` for each `j`, each computed from the unit of
`k` bytes at `src + j * k`: where the copy is safe, every written byte is that of the memory at the start,
and every other byte is as before (20_memory.md R66). -/
theorem units_memGet (k : Nat) (hk : 0 < k) (src dst : Nat) (g : Nat → Memory → List Byte)
    (hlen : ∀ j m, (g j m).length = k)
    (hdep : ∀ j m m', (∀ c, src + j * k ≤ c → c < src + j * k + k → memGet m c = memGet m' c) →
      g j m = g j m')
    (n : Nat) (m : Memory) (hs : CopySafe src dst (n * k)) (a : Nat) :
    memGet ((List.range n).foldl (fun m j => memWrite m (dst + j * k) (g j m)) m) a =
      if dst ≤ a ∧ a < dst + n * k then (g ((a - dst) / k) m).getD ((a - dst) % k) 0 else memGet m a := by
  induction n generalizing a with
  | zero => simp
  | succ n ih =>
    have e : (n + 1) * k = n * k + k := by rw [Nat.add_mul, Nat.one_mul]
    have hs' : CopySafe src dst (n * k) := by unfold CopySafe at hs ⊢; omega
    have ih := ih hs'
    rw [List.range_succ, List.foldl_append, List.foldl_cons, List.foldl_nil, memGet_memWrite, hlen, ih a]
    by_cases h1 : dst + n * k ≤ a ∧ a < dst + n * k + k
    · rw [if_pos h1, if_pos (by omega)]
      have h2 : a - dst = (a - (dst + n * k)) + n * k := by omega
      have h3 : (a - dst) / k = n := by
        rw [h2, Nat.add_mul_div_right _ _ hk, Nat.div_eq_of_lt (by omega), Nat.zero_add]
      have h4 : (a - dst) % k = a - (dst + n * k) := by
        rw [h2, Nat.add_mul_mod_self_right, Nat.mod_eq_of_lt (by omega)]
      rw [h3, h4]
      rw [hdep n _ m fun c hc1 hc2 => ?_]
      rw [ih c, if_neg]
      unfold CopySafe at hs; omega
    · rw [if_neg h1]
      by_cases h2 : dst ≤ a ∧ a < dst + n * k
      · rw [if_pos h2, if_pos (by omega)]
      · rw [if_neg h2, if_neg (by omega)]

/-- The same for a plain copy of units. -/
theorem copyUnits_memGet (k : Nat) (hk : 0 < k) (src dst n : Nat) (m : Memory)
    (hs : CopySafe src dst (n * k)) (a : Nat) :
    memGet ((List.range n).foldl (fun m j => memWrite m (dst + j * k) (memRead m (src + j * k) k)) m) a =
      if dst ≤ a ∧ a < dst + n * k then memGet m (src + (a - dst)) else memGet m a := by
  rw [units_memGet k hk src dst (fun j m => memRead m (src + j * k) k) (fun _ _ => memRead_length _ _ _)
    (fun j m m' h => memRead_congr m m' _ _ h) n m hs a]
  split
  · rw [memRead_getD _ _ _ _ (Nat.mod_lt _ hk)]
    congr 1
    have := Nat.div_add_mod (a - dst) k
    rw [Nat.mul_comm] at this
    omega
  · rfl

theorem xw_eq_zero (w : Width) (s : State) (r : Reg) : xw w s r = 0#_ ↔ natReg s r % 2 ^ wBits w = 0 := by
  rw [← BitVec.toNat_inj, xw_toNat]; rfl

/-- What CCOPY leaves in `MEM`, by the order of its elements (43 R126). -/
theorem ccopyEnd_mem (w : Width) (rc rto rf0 rf1 rn : Reg) (s : State) :
    (ccopyEnd w rc rto rf0 rf1 rn s).mem = (List.range (natReg s rn)).foldl
      (fun m j => memWrite m (natReg s rto + j * wBytes w)
        (memRead m ((if natReg s rc % 2 ^ wBits w = 0 then natReg s rf1 else natReg s rf0)
          + j * wBytes w) (wBytes w))) s.mem := by
  simp only [← xw_eq_zero]
  exact loopUp_mem _ Bus.mem _ (fun j b => ccopyElement_mem w (xw w s rc) _ _ _ j b) _ _

/-- What CZERO leaves at every address (43 R127). -/
theorem czeroEnd_memGet (w : Width) (rc ra rn : Reg) (s : State) (a : Nat) :
    memGet (czeroEnd w rc ra rn s).mem a =
      if natReg s rc % 2 ^ wBits w ≠ 0 ∧ natReg s ra ≤ a ∧ a < natReg s ra + natReg s rn * wBytes w
      then 0 else memGet s.mem a := by
  have hk := wBytes_pos w
  have key : (czeroEnd w rc ra rn s).mem = (List.range (natReg s rn)).foldl
      (fun m j => memWrite m (natReg s ra + j * wBytes w)
        (if xw w s rc = 0#_ then memRead m (natReg s ra + j * wBytes w) (wBytes w)
          else List.replicate (wBytes w) 0)) s.mem :=
    loopUp_mem _ Bus.mem _ (fun j b => czeroElement_mem w (xw w s rc) _ j b) _ _
  rw [key, units_memGet (wBytes w) hk (natReg s ra) (natReg s ra)
    (fun j m => if xw w s rc = 0#_ then memRead m (natReg s ra + j * wBytes w) (wBytes w)
      else List.replicate (wBytes w) 0)
    (fun j m => by split <;> simp)
    (fun j m m' h => by split; · exact memRead_congr m m' _ _ h
                        · rfl)
    _ _ (.inl (Nat.le_refl _)) a]
  simp only [xw_eq_zero]
  by_cases hc : natReg s rc % 2 ^ wBits w = 0
  · simp only [hc, if_true, ne_eq, not_true, false_and, if_false]
    split
    · rw [memRead_getD _ _ _ _ (Nat.mod_lt _ hk)]
      congr 1
      have := Nat.div_add_mod (a - natReg s ra) (wBytes w)
      rw [Nat.mul_comm] at this
      omega
    · rfl
  · simp only [hc, if_false, ne_eq, not_false_eq_true, true_and]
    split
    · simp [List.getD_eq_getElem?_getD, List.getElem?_replicate]
      split <;> rfl
    · rfl

/-- What the block loop leaves in `MEM`, by the order of its blocks (45 R158). -/
theorem blocksEnd_mem (K : SubkeyTable) (ri ro rn : Reg) (s : State) :
    (blocksEnd K ri ro rn s).mem = (List.range (natReg s rn)).foldl
      (fun m j => memWrite m (natReg s ro + 8 * j)
        (beBytes 8 (ideaBlock (be 64 (memRead m (natReg s ri + 8 * j) 8)) K).toNat)) s.mem :=
  loopUp_mem _ Bus.mem _ (fun j b => blockUnit_mem K _ _ j b) _ _

/-- The same at every address, where the copy is safe. -/
theorem blocksEnd_memGet (K : SubkeyTable) (ri ro rn : Reg) (s : State)
    (hs : CopySafe (natReg s ri) (natReg s ro) (8 * natReg s rn)) (a : Nat) :
    memGet (blocksEnd K ri ro rn s).mem a =
      if natReg s ro ≤ a ∧ a < natReg s ro + 8 * natReg s rn then
        (beBytes 8 (ideaBlock (be 64 (memRead s.mem (natReg s ri + 8 * ((a - natReg s ro) / 8)) 8)) K).toNat).getD
          ((a - natReg s ro) % 8) 0
      else memGet s.mem a := by
  rw [blocksEnd_mem]
  have h := units_memGet 8 (by decide) (natReg s ri) (natReg s ro)
    (fun j m => beBytes 8 (ideaBlock (be 64 (memRead m (natReg s ri + 8 * j) 8)) K).toNat)
    (fun _ _ => beBytes_length _ _)
    (fun j m m' h => by rw [memRead_congr m m' _ _ fun c h1 h2 => h c (by omega) (by omega)])
    (natReg s rn) s.mem (by rw [Nat.mul_comm]; exact hs) a
  simp only [Nat.mul_comm _ 8] at h
  exact h

/-- The scan of STRIPLZ counts the leading zero bytes (44 R141). -/
theorem stripScan_lz (a n : Nat) (b : Bus) :
    (stripScan a n b).lz = ((memRead b.mem a n).takeWhile (· == 0#8)).length := by
  have key : ∀ n (i : Nat) (p : StripScan), (p.onlyZeros = 0xFF#8 ∨ p.onlyZeros = 0#8) →
      (loopUp (stripByte a) i n p).lz = p.lz + if p.onlyZeros = 0xFF#8 then
        ((memRead p.bus.mem (a + i) n).takeWhile (· == 0#8)).length else 0 := by
    intro n
    induction n with
    | zero => intro i p _; simp [memRead]
    | succ n ih =>
      intro i p hp
      have hb : (stripByte a i p).onlyZeros = (if p.onlyZeros = 0xFF#8 ∧ memGet p.bus.mem (a + i) = 0#8
          then 0xFF#8 else 0#8) := by
        simp only [stripByte, busReadByte_byte, isZeroMask_eq]
        rcases hp with hp | hp <;> rw [hp] <;> by_cases hz : memGet p.bus.mem (a + i) = 0#8 <;> simp [hz]
      have hl : (stripByte a i p).lz = p.lz + (if p.onlyZeros = 0xFF#8 ∧ memGet p.bus.mem (a + i) = 0#8
          then 1 else 0) := by
        simp only [stripByte, busReadByte_byte, isZeroMask_eq]
        rcases hp with hp | hp <;> rw [hp] <;> by_cases hz : memGet p.bus.mem (a + i) = 0#8 <;> (simp [hz]; try decide)
      rw [loopUp_succ, ih _ _ (by rw [hb]; split <;> simp), hl, hb, stripByte_mem]
      by_cases h1 : p.onlyZeros = 0xFF#8 <;> by_cases h2 : memGet p.bus.mem (a + i) = 0#8
      · simp [h1, h2, memRead, Nat.add_assoc, Nat.add_comm 1]
      · simp [h1, h2, memRead]
      · simp [h1]
      · simp [h1]
  have := key n 0 { bus := b, onlyZeros := 0xFF, lz := 0 } (.inl rfl)
  simpa [stripScan] using this

end Sys2Proof.Machine
end

