-- ==== Sys2Proof/Laws/Stream.lean ====
section
/-! SUPPORT. The WiderWake keystream: the buffer is a window on the words of successive `WW_MIX` steps, so
regeneration does not change the bytes to come, and the loop of WWCIPH moves along one stream
(spec/46_widerwake.md R176, R182, R184, R186). -/

namespace Sys2Proof.Machine

theorem mixState_shift (cfg : Config) (k : WakeKey) (T : WakeTable) (st : WakeState) (n : Nat) :
    mixState cfg k T (cfg.wwMix st k T).2 n = mixState cfg k T st (n + 1) := by
  induction n with
  | zero => rfl
  | succ n ih => rw [mixState, ih]; rfl

theorem mixState_add (cfg : Config) (k : WakeKey) (T : WakeTable) (st : WakeState) (m n : Nat) :
    mixState cfg k T (mixState cfg k T st m) n = mixState cfg k T st (m + n) := by
  induction n with
  | zero => rfl
  | succ n ih => rw [mixState, ih]; rfl

/-- The keystream continues where `m` words end. -/
theorem ksByte_add (cfg : Config) (k : WakeKey) (T : WakeTable) (st : WakeState) (m j : Nat) :
    ksByte cfg k T (mixState cfg k T st m) j = ksByte cfg k T st (4 * m + j) := by
  have h1 : (4 * m + j) / 4 = m + j / 4 := by omega
  have h2 : (4 * m + j) % 4 = j % 4 := by omega
  simp only [ksByte, mixWord, mixState_add, h1, h2]

/-- The words of successive steps do not depend on `WW_BUF_LEN` (R184). -/
theorem mixState_bufLen (cfg : Config) (l₁ l₂ : Nat) (k : WakeKey) (T : WakeTable) (st : WakeState) (n : Nat) :
    mixState { cfg with bufLen := l₁ } k T st n = mixState { cfg with bufLen := l₂ } k T st n := by
  induction n with
  | zero => rfl
  | succ n ih => rw [mixState, ih, mixState]

/-- The keystream does not depend on `WW_BUF_LEN` (R184). -/
theorem ksByte_bufLen (cfg : Config) (l₁ l₂ : Nat) (k : WakeKey) (T : WakeTable) (st : WakeState) (j : Nat) :
    ksByte { cfg with bufLen := l₁ } k T st j = ksByte { cfg with bufLen := l₂ } k T st j := by
  simp only [ksByte, mixWord, mixState_bufLen cfg l₁ l₂]

/-- A `WW_MIX` that takes zeros to zeros keeps the running state zero (R188). -/
theorem mixState_zero (cfg : Config)
    (h : cfg.wwMix (Vector.replicate 5 0) (Vector.replicate 4 0) (Vector.replicate 256 0) =
      (0, Vector.replicate 5 0)) (n : Nat) :
    mixState cfg (Vector.replicate 4 0) (Vector.replicate 256 0) (Vector.replicate 5 0) n =
      Vector.replicate 5 0 := by
  induction n with
  | zero => rfl
  | succ n ih => rw [mixState, ih, h]

/-- The keystream of the cleared context is zero for such a `WW_MIX` (R188). -/
theorem streamByte_zero (cfg : Config)
    (h : cfg.wwMix (Vector.replicate 5 0) (Vector.replicate 4 0) (Vector.replicate 256 0) =
      (0, Vector.replicate 5 0)) (j : Nat) :
    streamByte cfg (WakeContext.zero cfg.bufLen) j = 0 := by
  unfold streamByte WakeContext.zero
  split
  · simp
  · simp only [ksByte, mixWord, mixState_zero cfg h, h]; simp

theorem beBytes_four (v : Word32) (j : Nat) (h : j < 4) :
    (beBytes 4 v.toNat).getD j 0 = v.extractLsb' (24 - 8 * j) 8 := by
  have hv := v.isLt
  apply BitVec.eq_of_toNat_eq
  have : j = 0 ∨ j = 1 ∨ j = 2 ∨ j = 3 := by omega
  rcases this with rfl | rfl | rfl | rfl <;>
    simp [beBytes, BitVec.extractLsb'_toNat, Nat.shiftRight_eq_div_pow]

theorem keystreamBytes_state (cfg : Config) (k : WakeKey) (T : WakeTable) (n : Nat) (st : WakeState) :
    (keystreamBytes cfg k T n st).2 = mixState cfg k T st n := by
  induction n generalizing st with
  | zero => rfl
  | succ n ih => rw [keystreamBytes, ih, mixState_shift]

theorem keystreamBytes_length (cfg : Config) (k : WakeKey) (T : WakeTable) (n : Nat) (st : WakeState) :
    (keystreamBytes cfg k T n st).1.length = 4 * n := by
  induction n generalizing st with
  | zero => rfl
  | succ n ih => simp only [keystreamBytes, List.length_append, beBytes_length, ih]; omega

theorem keystreamBytes_getD (cfg : Config) (k : WakeKey) (T : WakeTable) (n : Nat) (st : WakeState) (j : Nat)
    (h : j < 4 * n) : (keystreamBytes cfg k T n st).1.getD j 0 = ksByte cfg k T st j := by
  induction n generalizing st j with
  | zero => omega
  | succ n ih =>
    simp only [keystreamBytes]
    by_cases hj : j < 4
    · rw [List.getD_append _ _ _ _ (by simpa using hj), beBytes_four _ _ hj]
      have h1 : j / 4 = 0 := by omega
      have h2 : j % 4 = j := by omega
      rw [ksByte, h1, h2]; rfl
    · rw [List.getD_append_right _ _ _ _ (by simpa using hj), beBytes_length, ih _ _ (by omega)]
      have := ksByte_add cfg k T st 1 (j - 4)
      rw [show 4 * 1 + (j - 4) = j by omega] at this
      exact this

theorem bufLen_four (cfg : Config) (h : cfg.bufLenOk = true) : 0 < cfg.bufLen ∧ 4 * (cfg.bufLen / 4) = cfg.bufLen := by
  simp only [Config.bufLenOk, Bool.and_eq_true, decide_eq_true_eq, beq_iff_eq] at h
  omega

theorem wf_bufLen (cfg : Config) (h : cfg.wf = true) : cfg.bufLenOk = true := by
  simp only [Config.wf, Bool.and_eq_true] at h; exact h.2

section Cipher
variable (cfg : Config) (hb : cfg.bufLenOk = true)
include hb

theorem wakeRefill_position (c : WakeContext) (h : c.position ≤ cfg.bufLen) :
    (wakeRefill cfg c).position < cfg.bufLen := by
  have := bufLen_four cfg hb
  unfold wakeRefill
  split
  · exact this.1
  · omega

/-- Regeneration does not change the bytes to come. -/
theorem streamByte_wakeRefill (c : WakeContext) (j : Nat) :
    streamByte cfg (wakeRefill cfg c) j = streamByte cfg c j := by
  have hL := bufLen_four cfg hb
  unfold wakeRefill
  split
  · next hp =>
    simp only [streamByte, wakeGenerate, hp, Nat.zero_add, keystreamBytes_state]
    rw [if_neg (show ¬ cfg.bufLen + j < cfg.bufLen by omega), Nat.add_sub_cancel_left]
    split
    · next hj => rw [keystreamBytes_getD _ _ _ _ _ _ (by omega)]
    · next hj => rw [ksByte_add]; congr 1; omega
  · rfl

omit hb in
theorem streamByte_advance (c : WakeContext) (j : Nat) :
    streamByte cfg { c with position := c.position + 1 } j = streamByte cfg c (j + 1) := by
  simp only [streamByte, Nat.add_assoc, Nat.add_comm 1 j]

theorem cipherByte_mem (i o k : Nat) (p : Bus × WakeContext) (h : p.2.position ≤ cfg.bufLen) :
    (cipherByte cfg i o k p).1.mem =
      memSet p.1.mem (o + k) (memGet p.1.mem (i + k) ^^^ streamByte cfg p.2 0) := by
  have hp := wakeRefill_position cfg hb p.2 h
  have : streamByte cfg p.2 0 = (wakeRefill cfg p.2).buffer.getD (wakeRefill cfg p.2).position 0 := by
    rw [← streamByte_wakeRefill cfg hb, streamByte, Nat.add_zero, if_pos hp]
  rw [this]; rfl

theorem cipherByte_position_le (i o k : Nat) (p : Bus × WakeContext) (h : p.2.position ≤ cfg.bufLen) :
    (cipherByte cfg i o k p).2.position ≤ cfg.bufLen := wakeRefill_position cfg hb p.2 h

theorem cipherByte_stream (i o k : Nat) (p : Bus × WakeContext) (j : Nat) :
    streamByte cfg (cipherByte cfg i o k p).2 j = streamByte cfg p.2 (j + 1) := by
  rw [show (cipherByte cfg i o k p).2 = { wakeRefill cfg p.2 with position := (wakeRefill cfg p.2).position + 1 }
    from rfl, streamByte_advance, streamByte_wakeRefill cfg hb]

/-- The whole loop of WWCIPH: memory by the order of its bytes, and the stream moved on by `n` (46 R182). -/
theorem cipherBus_spec (i o : Nat) (b : Bus) (c : WakeContext) (h : c.position ≤ cfg.bufLen) (n : Nat) :
    (cipherBus cfg i o n (b, c)).1.mem = (List.range n).foldl
      (fun m k => memSet m (o + k) (memGet m (i + k) ^^^ streamByte cfg c k)) b.mem ∧
    (∀ j, streamByte cfg (cipherBus cfg i o n (b, c)).2 j = streamByte cfg c (n + j)) ∧
    (cipherBus cfg i o n (b, c)).2.position ≤ cfg.bufLen := by
  unfold cipherBus
  induction n with
  | zero => exact ⟨rfl, fun j => by simp, h⟩
  | succ n ih =>
    obtain ⟨h1, h2, h3⟩ := ih
    rw [loopUp_last, Nat.zero_add]
    refine ⟨?_, fun j => ?_, cipherByte_position_le cfg hb _ _ _ _ h3⟩
    · rw [cipherByte_mem cfg hb _ _ _ _ h3, h1, h2, List.range_succ, List.foldl_append]; rfl
    · rw [cipherByte_stream cfg hb, h2]; congr 1; omega

omit hb in
theorem cipherBus_keyed (i o : Nat) (b : Bus) (c : WakeContext) (n : Nat) :
    (cipherBus cfg i o n (b, c)).2.table = c.table ∧ (cipherBus cfg i o n (b, c)).2.tKey = c.tKey := by
  unfold cipherBus
  induction n with
  | zero => exact ⟨rfl, rfl⟩
  | succ n ih =>
    rw [loopUp_last]
    simp only [cipherByte, wakeRefill]
    split <;> exact ih

/-- The cursor and the running state after `n > 0` bytes (46 R182: regeneration is lazy). -/
theorem cipherBus_cursor (i o : Nat) (b : Bus) (c : WakeContext) (h : c.position ≤ cfg.bufLen) (n : Nat)
    (hn : 0 < n) :
    (cipherBus cfg i o n (b, c)).2.position = (c.position + n - 1) % cfg.bufLen + 1 ∧
    (cipherBus cfg i o n (b, c)).2.state = mixState cfg c.tKey c.table c.state
      ((c.position + n - 1) / cfg.bufLen * (cfg.bufLen / 4)) := by
  have hL := bufLen_four cfg hb
  obtain ⟨n, rfl⟩ : ∃ m, n = m + 1 := ⟨n - 1, by omega⟩
  clear hn
  induction n with
  | zero =>
    simp only [cipherBus, loopUp, cipherByte, wakeRefill]
    split
    · next hp =>
      simp only [wakeGenerate, hp, keystreamBytes_state]
      have h1 : cfg.bufLen + (0 + 1) - 1 = cfg.bufLen := by omega
      rw [h1, Nat.mod_self, Nat.div_self hL.1, Nat.one_mul]
      exact ⟨rfl, rfl⟩
    · next hp =>
      have h1 : c.position + (0 + 1) - 1 = c.position := by omega
      rw [h1, Nat.mod_eq_of_lt (by omega), Nat.div_eq_of_lt (by omega), Nat.zero_mul]
      exact ⟨rfl, rfl⟩
  | succ n ih =>
    have hk := cipherBus_keyed cfg i o b c (n + 1)
    have e1 : c.position + (n + 1) - 1 = c.position + n := by omega
    have e2 : c.position + (n + 1 + 1) - 1 = c.position + n + 1 := by omega
    rw [e1] at ih
    rw [e2]
    unfold cipherBus at ih hk ⊢
    rw [loopUp_last]
    simp only [cipherByte, wakeRefill]
    have hlt := Nat.mod_lt (c.position + n) hL.1
    have hdm := Nat.div_add_mod (c.position + n) cfg.bufLen
    split
    · next hp =>
      rw [ih.1] at hp
      simp only [wakeGenerate, keystreamBytes_state, ih.2, hk.1, hk.2, mixState_add]
      have e : c.position + n + 1 = cfg.bufLen * ((c.position + n) / cfg.bufLen + 1) := by
        rw [Nat.mul_add]; omega
      rw [e, Nat.mul_mod_right, Nat.mul_div_cancel_left _ hL.1, Nat.add_mul, Nat.one_mul]
      exact ⟨rfl, rfl⟩
    · next hp =>
      rw [ih.1] at hp
      have e : c.position + n + 1 = ((c.position + n) % cfg.bufLen + 1) + cfg.bufLen * ((c.position + n) / cfg.bufLen) := by
        omega
      rw [e, Nat.add_mul_mod_self_left, Nat.add_mul_div_left _ _ hL.1, Nat.mod_eq_of_lt (by omega),
        Nat.div_eq_of_lt (by omega), Nat.zero_add]
      exact ⟨by rw [ih.1], ih.2⟩

/-- What WWCIPH leaves at every address, where the copy is safe. -/
theorem cipherEffect_memGet (ri ro rn : Reg) (s : State)
    (hp : s.ww.position ≤ cfg.bufLen)
    (hs : CopySafe (natReg s ri) (natReg s ro) (natReg s rn)) (a : Nat) :
    memGet (cipherEffect cfg ri ro rn s).mem a =
      if natReg s ro ≤ a ∧ a < natReg s ro + natReg s rn then
        memGet s.mem (natReg s ri + (a - natReg s ro)) ^^^ streamByte cfg s.ww (a - natReg s ro)
      else memGet s.mem a := by
  have sp := (cipherBus_spec cfg hb (natReg s ri) (natReg s ro) (busStart s.mem) s.ww hp (natReg s rn)).1
  show memGet (cipherBus cfg _ _ _ _).1.mem a = _
  rw [sp]
  have := units_memGet 1 (by decide) (natReg s ri) (natReg s ro)
    (fun j m => [memGet m (natReg s ri + j) ^^^ streamByte cfg s.ww j])
    (fun _ _ => rfl) (fun j m m' h => by rw [h _ (by omega) (by omega)]) (natReg s rn) s.mem
    (by rw [Nat.mul_one]; exact hs) a
  simp only [Nat.mul_one, Nat.div_one, Nat.mod_one] at this
  exact this

omit hb in
/-- After WWKS or WWSIV the stream starts at `w_0`. -/
theorem streamByte_fresh (c : WakeContext) (h : c.position = cfg.bufLen) (j : Nat) :
    streamByte cfg c j = ksByte cfg c.tKey c.table c.state j := by
  unfold streamByte; rw [if_neg (by omega), h]; congr 1; omega

end Cipher
end Sys2Proof.Machine
end

