-- ==== Sys2Proof/Tests/Slice0.lean ====
section
/-! SUPPORT. The author's own tests: expected values are the spec's worked examples (rule numbers in the
comments), and one witness for every statement that has hypotheses. -/

namespace Sys2Proof.Tests

open Sys2Proof.Machine

/-! ### Helpers -/

/-- A small state: reset with some registers and some bytes of `MEM` written. -/
def small (regs : List (Reg × Word64)) (at_ : Nat) (bytes : List Byte) : State :=
  let s := regs.foldl (fun s p => setReg s p.1 p.2) State.reset
  { s with mem := memWrite s.mem at_ bytes }

/-- Something read off the next state. -/
def after {α : Type} (r : Result) (f : State → α) : Option α :=
  match r with
  | .next t => some (f t)
  | .fault _ => none
  | .refused _ => none

/-- The error record: `STATUS`, `EPC`, `EINFO`. -/
def record (s : State) : Word64 × Word64 × Word64 := (s.status, s.epc, s.einfo)

/-! ### Decoding: words written out bit by bit from 30_encoding.md R71, R72, R75 -/

-- op 0x01, w 00, f0 = 1, bits 20:16 zero, imm16 = 0x1234
theorem test_decode_ldi : decode 0b000001_00_001_00000_0001001000110100 = .ok (.ldi 1 0x1234) := by decide
-- op 0x03, w 11, f0 = 7, f1 = 4
theorem test_decode_ld : decode 0b000011_11_111_100_000000000000000000 = .ok (.ld .w64 7 4) := by decide
-- op 0x04, w 10, f0 = 1, f1 = 2
theorem test_decode_st : decode 0b000100_10_001_010_000000000000000000 = .ok (.st .w32 1 2) := by decide
-- op 0x11, w 00, f0 = 7, f1 = 6
theorem test_decode_exptop : decode 0b010001_00_111_110_000000000000000000 = .ok (.exptop .w8 7 6) := by decide
-- op 0x15, w 01, f0 = 3, f1 = 1, f2 = 2 (the hand check of R82)
theorem test_decode_islt : decode 0b010101_01_011_001_010_000000000000000 = .ok (.islt .w16 3 1 2) := by decide
-- op 0x1A, w 10, f0 .. f7 = 0 .. 7
theorem test_decode_sel3 :
    decode 0b011010_10_000_001_010_011_100_101_110_111 = .ok (.sel3 .w32 0 1 2 3 4 5 6 7) := by decide
-- op 0x1B, w 00, f0 .. f4 = 1 .. 5
theorem test_decode_ccopy :
    decode 0b011011_00_001_010_011_100_101_000000000 = .ok (.ccopy .w8 1 2 3 4 5) := by decide
-- op 0x1D, w 00, f0 .. f3 = 1 .. 4
theorem test_decode_striplz :
    decode 0b011101_00_001_010_011_100_000000000000 = .ok (.striplz 1 2 3 4) := by decide
-- op 0x21, f0 .. f2 = 3, 4, 5
theorem test_decode_ideaenc :
    decode 0b100001_00_011_100_101_000000000000000 = .ok (.ideaenc 3 4 5) := by decide
-- op 0x2B, f0 = 3
theorem test_decode_wwmix : decode 0b101011_00_011_000000000000000000000 = .ok (.wwmix 3) := by decide
-- STRIPLZ with w = 01, and LDI with bit 16 set (R77)
theorem test_decode_striplz_width : decode 0x75000000 = .error .mustBeZeroBit := by decide
theorem test_decode_ldi_bit16 : decode 0x04010000 = .error .mustBeZeroBit := by decide
-- the unassigned opcodes at the edges of their ranges (R77)
theorem test_decode_unassigned :
    [0x06, 0x0F, 0x13, 0x17, 0x24, 0x27, 0x2F, 0x3F].map (fun op => decode (BitVec.ofNat 32 (op * 2 ^ 26))) =
      List.replicate 8 (.error .unassignedOpcode) := by decide
theorem test_decodeTableWord : decodeTableWord 32 0xB0298000 = some (.wwciph 1 2 3) := by decide

/-! ### Well-formedness: an ill-formed term for each check -/

theorem test_wf_memSize_small : { Config.std with memSize := 63 }.wf = false := by decide
theorem test_wf_memSize_large : { Config.std with memSize := 2 ^ 32 + 1 }.wf = false := by decide
theorem test_wf_bufLen_zero : { Config.std with bufLen := 0 }.wf = false := by decide
theorem test_wf_bufLen_six : { Config.std with bufLen := 6 }.wf = false := by decide
theorem test_wf_std : Config.std.wf = true := by decide
theorem test_wf_hostWrite_outside : (HostMove.writeMem 65536 1).wf Config.std = false := by decide
theorem test_wf_hostWrite_last : (HostMove.writeMem 65535 1).wf Config.std = true := by decide

/-! ### One step of each command -/

-- R90
theorem test_nop : after (exec .nop { State.reset with pc := 4 }) (·.pc) = some 5 := by decide
-- R23: pc wraps
theorem test_nop_wraps : after (exec .nop { State.reset with pc := BitVec.allOnes 64 }) (·.pc) = some 0 := by
  decide
-- R91
theorem test_ldi : after (exec (.ldi 1 0x1234) (small [(1, BitVec.allOnes 64)] 0 [])) (getReg · 1) =
    some 0x1234 := by decide
-- R92
theorem test_ldis : after (exec (.ldis 4 0xFFF9) (small [(4, 0xFFFF)] 0 [])) (getReg · 4) =
    some 0xFFFFFFF9 := by decide
-- R93
theorem test_ld : after (exec (.ld .w64 7 4)
    (small [(4, 0x208)] 0x208 [0x11, 0xFB, 0xED, 0x2B, 0x01, 0x98, 0x6D, 0xE5])) (getReg · 7) =
    some 0x11FBED2B01986DE5 := by decide
-- R93: the first address at which LD.64 fails
theorem test_ld_fault : after (exec (.ld .w64 5 4) (small [(4, 0xFFF9), (5, 1)] 0 []))
    (fun t => (record t, getReg t 5)) = some ((4, 0, 0xFFF9), 1) := by decide
-- R94
theorem test_st : after (exec (.st .w32 1 2) (small [(1, 0xAABBCCDD11223344), (2, 0x10)] 0 []))
    (fun t => memRead t.mem 0x0F 6) = some [0, 0x11, 0x22, 0x33, 0x44, 0] := by decide
-- R94 at the end of MEM, and the address sum does not wrap
theorem test_st_fault : after (exec (.st .w8 1 2) (small [(1, 7), (2, BitVec.allOnes 64)] 0 []))
    (fun t => (record t, t.mem)) = some ((4, 0, BitVec.allOnes 64), []) := by decide
-- R95
theorem test_clrerr : after (exec .clrerr { State.reset with status := 0x101, epc := 2, einfo := 15 }) record =
    some (0x100, 0, 0) := by decide
-- R101
theorem test_expmask : after (exec (.expmask .w8 0 2) (small [(2, 0xABCD)] 0 [])) (getReg · 0) =
    some 0xFF := by decide
theorem test_expmask_high_bit : after (exec (.expmask .w8 0 2) (small [(0, 9), (2, 0x100)] 0 [])) (getReg · 0) =
    some 0 := by decide
-- R102
theorem test_exptop : after (exec (.exptop .w8 7 7) (small [(7, 0x80)] 0 [])) (getReg · 7) = some 0xFF := by
  decide
theorem test_exptop_below : after (exec (.exptop .w8 7 7) (small [(7, 0x7F)] 0 [])) (getReg · 7) = some 0 := by
  decide
-- R103
theorem test_iszero : after (exec (.iszero .w64 5 5) State.reset) (getReg · 5) =
    some 0xFFFFFFFFFFFFFFFF := by decide
theorem test_iszero_one : after (exec (.iszero .w16 0 1) (small [(0, 5), (1, 1)] 0 [])) (getReg · 0) =
    some 0 := by decide
-- R111: values that differ only above bit W-1
theorem test_iseq : after (exec (.iseq .w8 0 1 2) (small [(1, 0x1FF), (2, 0x2FF)] 0 [])) (getReg · 0) =
    some 0xFF := by decide
-- R112
theorem test_islt : after (exec (.islt .w16 3 1 2) (small [(1, 0x1234), (2, 0xABCD)] 0 [])) (getReg · 3) =
    some 0xFFFF := by decide
theorem test_islt_across_top : after (exec (.islt .w8 3 2 1) (small [(1, 0x7F), (2, 0x80), (3, 1)] 0 []))
    (getReg · 3) = some 0 := by decide
-- R113
theorem test_islte : after (exec (.islte .w16 5 2 1) (small [(1, 0x1234), (2, 0xABCD), (5, 1)] 0 []))
    (getReg · 5) = some 0 := by decide
theorem test_islte_equal : after (exec (.islte .w32 5 2 2) (small [(2, 0xABCD)] 0 [])) (getReg · 5) =
    some 0xFFFFFFFF := by decide
-- R121
theorem test_sel : after (exec (.sel .w16 4 3 1 2) (small [(3, 0xFFFF), (1, 0x1234), (2, 0xABCD)] 0 []))
    (getReg · 4) = some 0x1234 := by decide
-- R124
theorem test_sel_improper : after (exec (.sel .w8 4 3 1 2) (small [(3, 0x0F), (1, 0xAA), (2, 0x55)] 0 []))
    (getReg · 4) = some 0x5A := by decide
-- R122
theorem test_sel2 : after (exec (.sel2 .w16 7 5 2 6 1 0) (small [(2, 0xABCD), (6, 0xFFFF), (1, 0x1234)] 0 []))
    (getReg · 7) = some 0x1234 := by decide
theorem test_sel2_first : after (exec (.sel2 .w16 7 5 2 6 1 0)
    (small [(5, 0xFFFF), (2, 0xABCD), (6, 0xFFFF), (1, 0x1234)] 0 [])) (getReg · 7) = some 0xABCD := by decide
-- R123
theorem test_sel3 : after (exec (.sel3 .w32 0 1 2 3 4 5 6 7)
    (small [(2, 0xAAAAAAAA), (4, 0xBBBBBBBB), (5, 0xFFFFFFFF), (6, 0xCCCCCCCC), (7, 0xDDDDDDDD)] 0 []))
    (getReg · 0) = some 0xCCCCCCCC := by decide
theorem test_sel3_none : after (exec (.sel3 .w32 0 1 2 3 4 5 6 7)
    (small [(2, 0xAAAAAAAA), (4, 0xBBBBBBBB), (6, 0xCCCCCCCC), (7, 0xDDDDDDDD)] 0 []))
    (getReg · 0) = some 0xDDDDDDDD := by decide
-- R126
theorem test_ccopy : after (exec (.ccopy .w8 4 0 3 7 4)
    (small [(4, 5), (0, 0x60), (3, 0x43), (7, 0x50)] 0x43 [0x5A, 0x00, 0x7F, 0x01, 0x00]))
    (fun t => memRead t.mem 0x60 6) = some [0x5A, 0x00, 0x7F, 0x01, 0x00, 0x00] := by decide
-- 95_test_vectors.md P4, command 8: a false condition with the destination as its false source
theorem test_ccopy_false : after (exec (.ccopy .w16 5 7 1 7 2)
    (small [(7, 0x50), (1, 0x40), (2, 2)] 0x50 [0xEE, 0xEE, 0xEE, 0xEE])) (fun t => memRead t.mem 0x50 4) =
    some [0xEE, 0xEE, 0xEE, 0xEE] := by decide
-- R127: x6 is both the condition and the count
theorem test_czero : after (exec (.czero .w32 6 1 6)
    (small [(6, 2), (1, 0x40)] 0x3F [9, 0, 0, 0, 0x5A, 0, 0x7F, 1, 0, 9])) (fun t => memRead t.mem 0x3F 10) =
    some [9, 0, 0, 0, 0, 0, 0, 0, 0, 9] := by decide
-- R141, third and second rows of its table
theorem test_striplz : after (exec (.striplz 3 4 1 2)
    (small [(1, 0x40), (2, 8)] 0x40 [0, 0, 0, 0x5A, 0, 0x7F, 1, 0])) (fun t => (getReg t 3, getReg t 4)) =
    some (0x43, 5) := by decide
theorem test_striplz_all_zero : after (exec (.striplz 1 2 1 2) (small [(1, 0x40), (2, 4)] 0 []))
    (fun t => (getReg t 1, getReg t 2)) = some (0x44, 0) := by decide
-- R128: no range check, whatever the registers hold
theorem test_poison : after (exec (.poison 1 2) (small [(1, BitVec.allOnes 64), (2, BitVec.allOnes 64)] 0 []))
    record = some (0, 0, 0) := by decide
-- R156 and 95_test_vectors.md P2
theorem test_ideaks : after (exec (.ideaks 1 2) (small [(1, 0x100), (2, 16)] 0x100
    [0, 1, 0, 2, 0, 3, 0, 4, 0, 5, 0, 6, 0, 7, 0, 8]))
    (fun t => (t.idea.ek.get 51, t.idea.dk.get 0, t.idea.dk.get 51, t.status)) =
    some (0x0140, 0xFE01, 0xC001, 0x100) := by decide +kernel
theorem test_ideaks_length : after (exec (.ideaks 1 2) (small [(1, 0x100), (2, 15)] 0 []))
    record = some (1, 0, 15) := by decide
/-- The key of the source's vector (R162). -/
def vectorKey : IdeaContext := ideaKeyed 0x00010002000300040005000600070008
-- R162
theorem test_ideaenc : after (exec (.ideaenc 3 4 5)
    { small [(3, 0x200), (4, 0x208), (5, 1)] 0x200 [0, 0, 0, 1, 0, 2, 0, 3] with idea := vectorKey })
    (fun t => memRead t.mem 0x208 8) = some [0x11, 0xFB, 0xED, 0x2B, 0x01, 0x98, 0x6D, 0xE5] := by
  decide +kernel
-- R157, corner case: the all-zero table
theorem test_ideaenc_unkeyed : after (exec (.ideaenc 3 3 5)
    (small [(3, 0x200), (5, 1)] 0x200 [0, 0, 0, 1, 0, 2, 0, 3])) (fun t => memRead t.mem 0x200 8) =
    some [0x00, 0xC1, 0x00, 0x38, 0x00, 0xD7, 0xFF, 0xAE] := by decide +kernel
-- R162
theorem test_ideadec : after (exec (.ideadec 3 4 5)
    { small [(3, 0x200), (4, 0x208), (5, 1)] 0x200 [0x11, 0xFB, 0xED, 0x2B, 0x01, 0x98, 0x6D, 0xE5] with
      idea := vectorKey })
    (fun t => memRead t.mem 0x208 8) = some [0, 0, 0, 1, 0, 2, 0, 3] := by decide +kernel
-- R160
theorem test_ideaclr : after (exec .ideaclr { State.reset with idea := vectorKey, status := 0x700 })
    (fun t => (t.idea.ek.get 0, t.idea.dk.get 0, t.status)) = some (0, 0, 0x600) := by decide +kernel
-- R153: the values of its properties
theorem test_mul : [mulMod 0 0, mulMod 0 1, mulMod 0 2, mulMod 0xFFFF 0xFFFF, mulMod 0x8000 2,
    mulMod 0x1234 0x5678] = [1, 0, 0xFFFF, 4, 0, 0xFA3B] := by decide
-- R154
theorem test_inv : [invMod 0, invMod 1, invMod 2, invMod 0x1234] = [0, 1, 0x8001, 0x9E9A] := by decide +kernel
/-- The bytes `00 01 .. 0F` (R172, R189). -/
def keyA : List Byte := [0, 1, 2, 3, 4, 5, 6, 7, 8, 9, 10, 11, 12, 13, 14, 15]
-- R172, R177: `t_key`, `position`, and both status bits
theorem test_wwks : after (exec (.wwks 1 2) { small [(1, 0x100), (2, 16)] 0x100 keyA with status := 0x400 })
    (fun t => (t.ww.tKey.get 3, t.ww.position, t.status)) = some (0x0C0D0E0F, 4096, 0x200) := by decide +kernel
-- R209: the length before the range
theorem test_wwks_length : after (exec (.wwks 1 2) (small [(1, BitVec.allOnes 64), (2, 15)] 0 [])) record =
    some (1, 0, 15) := by decide
-- R178
theorem test_wwsiv : after (exec (.wwsiv 1 2) (small [(1, 0x110), (2, 8)] 0x110 keyA))
    (fun t => (t.ww.position, t.status)) = some (4096, 0x400) := by decide +kernel
theorem test_wwsiv_length : after (exec (.wwsiv 1 3) (small [(1, 0x110), (3, 7)] 0 [])) record =
    some (2, 0, 7) := by decide
-- R179
theorem test_wwviv : after (exec (.wwviv 7 2) (small [(2, 8)] 0 [])) (getReg · 7) = some 1 := by decide
theorem test_wwviv_high : after (exec (.wwviv 7 2) (small [(2, 8 + 2 ^ 32), (7, 5)] 0 [])) (getReg · 7) =
    some 0 := by decide
/-- A context with the zero table and a running state whose sums are easy by hand. -/
def easyWake : WakeContext :=
  { WakeContext.zero 4096 with state := #v[0x100, 0x200, 0x300, 0xA78719EC, 0x400], position := 7 }
-- R175, R181: the word is the old S3; with T = 0, M(x, y) = (x + y) >> 8
theorem test_wwmix : after (exec (.wwmix 7) { State.reset with ww := easyWake })
    (fun t => (getReg t 7, t.ww.state.get 1, t.ww.state.get 2, t.ww.state.get 4, t.ww.position)) =
    some (0xA78719EC, 3, 5, 0x100, 7) := by decide +kernel
-- R176, R180: the first word of the buffer, big-endian; position 0
theorem test_wwgen : after (exec .wwgen { State.reset with ww := easyWake })
    (fun t => (t.ww.buffer.take 4, t.ww.position)) = some ([0xA7, 0x87, 0x19, 0xEC], 0) := by decide +kernel
-- R182: one byte from the buffer, then the cursor at its end; the next byte would regenerate (lazy)
theorem test_wwciph : after (exec (.wwciph 1 2 3) { small [(1, 0x200), (2, 0x300), (3, 1)] 0x200 [0x63] with
      ww := { easyWake with buffer := List.replicate 4095 0 ++ [0xE1], position := 4095 } })
    (fun t => (memRead t.mem 0x300 1, t.ww.position, t.ww.state.get 0)) =
    some ([0x82], 4096, 0x100) := by decide +kernel
-- R188: before keying the output is the input
theorem test_wwciph_unkeyed : after (exec (.wwciph 1 2 3) (small [(1, 0x200), (2, 0x300), (3, 2)] 0x200 [5, 6]))
    (fun t => (memRead t.mem 0x300 2, t.ww.position)) = some ([5, 6], 2) := by decide +kernel
-- R183
theorem test_wwclr : after (exec .wwclr { State.reset with ww := easyWake, status := 0x702 })
    (fun t => (t.ww.state.get 0, t.ww.position, t.status)) = some (0, 0, 0x102) := by decide +kernel
-- R190, key A after stage 1
theorem test_wakeSeed : (wakeSeed 0x000102030405060708090A0B0C0D0E0F).get 4 = 0xD246DDE7 := by decide +kernel
-- R203: the first error is sticky, and the failing command still counts
theorem test_sticky : after (exec (.wwsiv 1 3)
    { small [(3, 7)] 0 [] with status := 1, epc := 2, einfo := 15, pc := 4 }) (fun t => (record t, t.pc)) =
    some ((1, 2, 15), 5) := by decide
-- R201 through the step, and R81
theorem test_step_illegal : after (step { State.reset with pc := 6, host := [.command 0xFFFFFFFF] })
    (fun t => (record t, t.pc)) = some ((3, 6, 0xFFFFFFFF), 7) := by decide
theorem test_li : (pseudoLi 3 0xDEADBEEF01234567).map encode =
    [0x0460DEAD, 0x0860BEEF, 0x08600123, 0x08604567] := by decide
theorem test_mov : (pseudoMov 2 5).map encode = [0x6356D000] := by decide
theorem test_assembly : toAssembly (.sel3 .w32 0 1 2 3 4 5 6 7) = "SEL3.32 x0, x1, x2, x3, x4, x5, x6, x7" := by
  decide

/-! ### Witnesses: for every statement with hypotheses, states and operands that meet them all -/

/-- A state that is not reset: an error recorded, both ciphers marked keyed, bytes in `MEM`. -/
def busy : State :=
  { small [(1, 0x40), (2, 8), (3, 16), (4, 0xFFF8), (5, 0xFFF9), (6, 0x80), (7, 1)] 0x40 [1, 2, 0, 3] with
    status := 0x704, epc := 3, einfo := 0x10000, pc := 9, idea := vectorKey, ww := easyWake }

theorem witness_EncodeDecode : decode 0xB0298000 = .ok (.wwciph 1 2 3) := by decide

theorem witness_IllegalWordIsRecorded :
    decode 0x18000000 = .error .unassignedOpcode ∧ decode 0xBC000000 = .error .unassignedOpcode ∧
    decode 0xFFFFFFFF = .error .unassignedOpcode ∧ decode 0x00000001 = .error .mustBeZeroBit := by decide

theorem witness_StepRunsDecoded :
    ({ State.reset with host := [.command 0x45000000, .reset] } : State).host =
      .command 0x45000000 :: [.reset] ∧ decode 0x45000000 = .ok (.exptop .w16 0 0) := by decide

theorem witness_StepNeverStops :
    ∀ m, m ∈ [HostMove.command 0xFFFFFFFF, .writeReg 7 1, .writeMem 65535 1, .reset] →
      m.wf Config.std = true := by decide

theorem witness_HostMoves_register :
    ({ State.reset with host := [.writeReg 7 5] } : State).host = [.writeReg 7 5] ∧ (6 : Reg) ≠ 7 := by decide
theorem witness_HostMoves_memory_first : (0 : Nat) < Config.std.memSize ∧ (1 : Nat) ≠ 0 := by decide
theorem witness_HostMoves_memory_last :
    ({ State.reset with host := [.writeMem 65535 5] } : State).host = [.writeMem 65535 5] ∧
    65535 < Config.std.memSize ∧ (65534 : Nat) ≠ 65535 := by decide
theorem witness_HostMoves_outside : Config.std.memSize ≤ 65536 := by decide
theorem witness_HostMoves_idle : State.reset.host = [] := by decide

theorem witness_HostMoves_reset :
    ({ State.reset with pc := 3, host := [.reset, .command 0] } : State).host = [.reset, .command 0] := by decide

theorem witness_RunEndsAtItsLength :
    State.reset.pc = 0 ∧ [0xFFFFFFFF, (0 : Word32)].length < 2 ^ 64 ∧
    after (acceptWord exec 0xFFFFFFFF { State.reset with host := [] }) (·.pc) = some 1 := by decide

theorem witness_CommandsRecordTheirError_codes :
    errorOf Config.std (.ideaks 1 2) busy = some (1, 8) ∧ errorOf Config.std (.wwsiv 1 3) busy = some (2, 16) ∧
    errorOf Config.std (.ld .w64 0 5) busy = some (4, 0xFFF9) ∧
    errorOf Config.std (.ccopy .w64 0 1 4 5 2) busy = some (4, 0xFFF8) := by decide
theorem witness_CommandsRecordTheirError_none :
    errorOf Config.std (.ld .w64 0 4) busy = none ∧ Instr.ld .w64 0 4 ≠ .clrerr ∧
    errorOf Config.std .clrerr busy = none := by decide

/-- The same public operands, other data in a register, in `MEM` and in the contexts. -/
def busy' : State :=
  { small [(0, 7), (1, 0x40), (2, 8), (3, 16), (4, 0xFFF8), (5, 0xFFF9), (6, 0x80), (7, 1)] 0x42 [9] with
    status := 0x004, epc := 3, einfo := 0x10000, pc := 9 }

theorem witness_ErrorsArePublic :
    SamePublic (.striplz 0 7 1 2) busy busy' ∧ busy.pc = busy'.pc ∧
    statusErr busy.status = statusErr busy'.status ∧ busy.epc = busy'.epc ∧ busy.einfo = busy'.einfo ∧
    (∃ t, exec (.striplz 0 7 1 2) busy = .next t) ∧ (∃ t, exec (.striplz 0 7 1 2) busy' = .next t) ∧
    busy.mem ≠ busy'.mem := by
  refine ⟨?_, by decide, by decide, by decide, by decide, ⟨_, rfl⟩, ⟨_, rfl⟩, by decide⟩
  unfold SamePublic
  decide

theorem witness_AccessPatternIsPublic : SamePublic (.ideaenc 1 6 7) busy busy' ∧ busy ≠ busy' := by
  refine ⟨?_, fun h => absurd (congrArg State.mem h) (by decide)⟩
  unfold SamePublic
  decide

theorem witness_StatusFrame :
    (∀ ra rn, Instr.nop ≠ .ideaks ra rn) ∧ Instr.nop ≠ .ideaclr ∧ (∀ ra rn, Instr.nop ≠ .wwks ra rn) ∧
    Instr.nop ≠ .wwclr ∧ (∀ ra rn, Instr.nop ≠ .wwsiv ra rn) ∧ Instr.nop ≠ .clrerr ∧
    statusErr busy.status ≠ 0 := by decide

theorem witness_ContextFrame :
    (∀ ra rn, Instr.striplz 0 7 1 2 ≠ .wwks ra rn) ∧ (∀ ra rn, Instr.striplz 0 7 1 2 ≠ .wwsiv ra rn) ∧
    Instr.striplz 0 7 1 2 ≠ .wwgen ∧ (∀ rd, Instr.striplz 0 7 1 2 ≠ .wwmix rd) ∧
    (∀ ri ro rn, Instr.striplz 0 7 1 2 ≠ .wwciph ri ro rn) ∧ Instr.striplz 0 7 1 2 ≠ .wwclr ∧
    (∀ ra rn, Instr.striplz 0 7 1 2 ≠ .ideaks ra rn) ∧ Instr.striplz 0 7 1 2 ≠ .ideaclr := by
  refine ⟨?_, ?_, ?_, ?_, ?_, ?_, ?_, ?_⟩ <;> intros <;> nofun

theorem witness_NopAndHints :
    Instr.poison 1 2 = .nop ∨ Instr.poison 1 2 = .poison 1 2 ∨ Instr.poison 1 2 = .unpoison 1 2 := by decide

theorem witness_LoadReadsBigEndian_last : natReg busy 4 + wBytes .w64 ≤ Config.std.memSize := by decide
theorem witness_LoadReadsBigEndian_beyond : Config.std.memSize < natReg busy 5 + wBytes .w64 := by decide
theorem witness_StoreWritesBigEndian_last :
    natReg busy 4 + wBytes .w64 ≤ Config.std.memSize ∧ 7 < wBytes .w64 ∧ 0xFFF7 < natReg busy 4 := by decide
theorem witness_StoreWritesBigEndian_beyond : Config.std.memSize < natReg busy 5 + wBytes .w64 := by decide
theorem witness_LoadAfterStore :
    natReg busy 4 + wBytes .w64 ≤ Config.std.memSize ∧ 1 + wBytes .w32 ≤ wBytes .w64 ∧
    natReg busy 5 = natReg busy 4 + 1 := by decide

theorem witness_ConditionalCopy :
    (2 : Reg) = (if natReg busy 0 % 2 ^ wBits .w8 = 0 then 2 else 1) ∧
    Fits Config.std (natReg busy 6) (natReg busy 2 * wBytes .w64) ∧
    Fits Config.std (natReg busy 1) (natReg busy 2 * wBytes .w64) ∧
    Fits Config.std (natReg busy 2) (natReg busy 2 * wBytes .w64) ∧
    CopySafe (natReg busy 1) (natReg busy 6) (natReg busy 2 * wBytes .w64) := by
  unfold Fits CopySafe
  decide
theorem witness_ConditionalCopy_fails :
    errorOf Config.std (.ccopy .w8 0 5 1 1 2) busy = some (4, 0xFFF9) := by decide
theorem witness_ConditionalZero :
    Fits Config.std (natReg busy 4) (natReg busy 2 * wBytes .w8) ∧
    errorOf Config.std (.czero .w8 0 5 2) busy = some (4, 0xFFF9) := by
  unfold Fits
  decide
theorem witness_StripLeadingZeros :
    0 = ((memRead busy.mem (natReg busy 1) (natReg busy 2)).takeWhile (· == 0#8)).length ∧
    Fits Config.std (natReg busy 1) (natReg busy 2) ∧ (0 : Reg) ≠ 7 ∧ (6 : Reg) ≠ 0 ∧ (6 : Reg) ≠ 7 ∧
    errorOf Config.std (.striplz 0 7 5 2) busy = some (4, 0xFFF9) := by
  unfold Fits
  decide
theorem witness_StripLaws :
    (0 : Reg) ≠ 7 ∧ (6 : Reg) ≠ 3 ∧ Fits Config.std (natReg busy 4) (natReg busy 2) := by
  unfold Fits
  decide

theorem witness_KeyExpansionBits : 15 < 16 := by decide

/-- A key at `x1` of the length `x3`, in `MEM`. -/
def keyed : State := { small [(1, 0xFFF0), (2, 8), (3, 16), (4, 0xFFF1)] 0xFFF0 keyA with ww := easyWake }

theorem witness_IdeaKeySchedule :
    0x000102030405060708090A0B0C0D0E0F =
      BitVec.ofNat 128 (beNat (memRead keyed.mem (natReg keyed 1) 16)) ∧
    natReg keyed 3 = 16 ∧ natReg keyed 1 + 16 ≤ Config.std.memSize ∧ natReg keyed 2 ≠ 16 ∧
    errorOf Config.std (.ideaks 4 3) keyed = some (4, 0xFFF1) := by decide

theorem witness_IdeaBlocksByOrder :
    (∃ run : SubkeyTable → Memory, ∀ K, run K = (List.range (natReg busy 7)).foldl
      (fun m b => memWrite m (natReg busy 6 + 8 * b)
        (beBytes 8 (ideaBlock (BitVec.ofNat 64 (beNat (memRead m (natReg busy 4 + 8 * b) 8))) K).toNat))
      busy.mem) ∧
    Fits Config.std (natReg busy 4) (8 * natReg busy 7) ∧
    Fits Config.std (natReg busy 6) (8 * natReg busy 7) ∧
    errorOf Config.std (.ideaenc 4 5 7) busy = some (4, 0xFFF9) ∧
    errorOf Config.std (.ideadec 5 4 7) busy = some (4, 0xFFF9) := by
  refine ⟨⟨_, fun _ => rfl⟩, ?_⟩
  unfold Fits
  decide

theorem witness_IdeaRoundTrip :
    busy.idea.dk = ideaInvert busy.idea.ek ∧ Fits Config.std (natReg busy 1) (8 * natReg busy 7) ∧
    Fits Config.std (natReg busy 6) (8 * natReg busy 7) ∧
    Fits Config.std (natReg busy 4) (8 * natReg busy 7) ∧
    CopySafe (natReg busy 1) (natReg busy 6) (8 * natReg busy 7) ∧
    CopySafe (natReg busy 6) (natReg busy 4) (8 * natReg busy 7) := by
  refine ⟨rfl, ?_⟩
  unfold Fits CopySafe
  decide

theorem witness_WakeKeySchedule :
    0x000102030405060708090A0B0C0D0E0F =
      BitVec.ofNat 128 (beNat (memRead keyed.mem (natReg keyed 1) 16)) ∧
    natReg keyed 3 = 16 ∧ natReg keyed 1 + 16 ≤ Config.std.memSize ∧ natReg keyed 2 ≠ 16 ∧
    errorOf Config.std (.wwks 4 3) keyed = some (4, 0xFFF1) := by decide
theorem witness_WakeSetIv :
    0x0001020304050607 = BitVec.ofNat 64 (beNat (memRead keyed.mem (natReg keyed 1) 8)) ∧
    natReg keyed 2 = 8 ∧ natReg keyed 1 + 8 ≤ Config.std.memSize ∧ natReg keyed 3 ≠ 8 ∧
    errorOf Config.std (.wwsiv 5 2) busy = some (4, 0xFFF9) := by decide
theorem witness_GenerateAndMix : (6 : Reg) ≠ 7 := by decide

theorem witness_CipherCombinesKeystream :
    busy.ww.position ≤ Config.std.bufLen ∧ busy.ww.buffer.length = Config.std.bufLen ∧
    Fits Config.std (natReg busy 1) (natReg busy 2) ∧ Fits Config.std (natReg busy 4) (natReg busy 2) ∧
    0 < natReg busy 2 ∧ errorOf Config.std (.wwciph 1 5 2) busy = some (4, 0xFFF9) := by
  refine ⟨by decide, List.length_replicate .., ?_⟩
  unfold Fits
  decide
theorem witness_CipherCombinesKeystream_empty :
    natReg State.reset 3 = 0 ∧ Fits Config.std (natReg State.reset 1) (natReg State.reset 3) := by
  unfold Fits
  decide

theorem witness_CipherLengthSplits :
    natReg { busy with x := #v[0, 0x40, 0x60, 3, 0, 0, 0, 0] } 1 = 0x40 ∧
    natReg { busy with x := #v[0, 0x40, 0x60, 3, 0, 0, 0, 0] } 2 = 0x60 ∧
    natReg { busy with x := #v[0, 0x40, 0x60, 3, 0, 0, 0, 0] } 3 = 3 ∧
    natReg { busy with x := #v[0, 0x43, 0x63, 5, 0, 0, 0, 0] } 1 = 0x40 + 3 ∧
    natReg { busy with x := #v[0, 0x43, 0x63, 5, 0, 0, 0, 0] } 2 = 0x60 + 3 ∧
    natReg { busy with x := #v[0, 0x43, 0x63, 5, 0, 0, 0, 0] } 3 = 5 ∧
    natReg { busy with x := #v[0, 0x40, 0x60, 8, 0, 0, 0, 0] } 1 = 0x40 ∧
    natReg { busy with x := #v[0, 0x40, 0x60, 8, 0, 0, 0, 0] } 2 = 0x60 ∧
    natReg { busy with x := #v[0, 0x40, 0x60, 8, 0, 0, 0, 0] } 3 = 3 + 5 ∧
    Fits Config.std 0x40 (3 + 5) ∧ Fits Config.std 0x60 (3 + 5) := by
  unfold Fits
  decide

/-- Key at 0x100, IV at 0x110, 8 bytes at 0x200, output at 0x300, and at 0x400. -/
def message : State :=
  small [(0, 16), (1, 0x100), (2, 0x110), (3, 8), (4, 0x200), (5, 0x300), (6, 0x400)] 0x100 keyA

theorem witness_KeystreamOfKeyAndIv :
    Config.std.wf = true ∧
    0x000102030405060708090A0B0C0D0E0F =
      BitVec.ofNat 128 (beNat (memRead message.mem (natReg message 1) 16)) ∧
    0 = BitVec.ofNat 64 (beNat (memRead message.mem (natReg message 2) 8)) ∧
    natReg message 0 = 16 ∧ Fits Config.std (natReg message 1) 16 ∧ natReg message 3 = 8 ∧
    Fits Config.std (natReg message 2) 8 ∧ Fits Config.std (natReg message 4) (natReg message 3) ∧
    Fits Config.std (natReg message 5) (natReg message 3) ∧
    CopySafe (natReg message 4) (natReg message 5) (natReg message 3) := by
  unfold Fits CopySafe
  decide

theorem witness_CipherIsSelfInverse :
    Config.std.wf = true ∧ natReg message 0 = 16 ∧ Fits Config.std (natReg message 1) 16 ∧
    natReg message 3 = 8 ∧ Fits Config.std (natReg message 2) 8 ∧
    Fits Config.std (natReg message 4) (natReg message 3) ∧
    Fits Config.std (natReg message 5) (natReg message 3) ∧
    Fits Config.std (natReg message 6) (natReg message 3) ∧
    CopySafe (natReg message 4) (natReg message 5) (natReg message 3) ∧
    CopySafe (natReg message 5) (natReg message 6) (natReg message 3) ∧
    Apart (natReg message 5) (natReg message 3) (natReg message 2) 8 := by
  unfold Fits CopySafe Apart
  decide

theorem witness_BufferLengthIsHidden :
    Config.wf { Config.std with bufLen := 4096 } = true ∧ Config.wf { Config.std with bufLen := 4 } = true ∧
    ∀ i, i ∈ [Instr.wwciph 4 5 3, .wwsiv 2 3, .wwciph 5 6 3] → i ≠ .wwgen ∧ ∀ rd, i ≠ .wwmix rd := by
  decide
theorem witness_BufferLengthIsHidden_clear :
    (∀ i, i ∈ [Instr.wwciph 4 5 3, .wwclr, .wwciph 5 6 3] → i ≠ .wwgen ∧ ∀ rd, i ≠ .wwmix rd) ∧
    Instr.wwclr ∈ [Instr.wwciph 4 5 3, .wwclr, .wwciph 5 6 3] ∧
    Config.std.wwMix (Vector.replicate 5 0) (Vector.replicate 4 0) (Vector.replicate 256 0) =
      (0, Vector.replicate 5 0) := by
  refine ⟨by decide, by decide, by decide +kernel⟩

/-- Before keying: 8 bytes to copy, the context as reset left it. -/
theorem witness_UnkeyedCipherPassesThrough_first :
    message.ww = WakeContext.zero Config.std.bufLen ∧ Fits Config.std (natReg message 1) (natReg message 3) ∧
    Fits Config.std (natReg message 5) (natReg message 3) ∧
    CopySafe (natReg message 1) (natReg message 5) (natReg message 3) ∧
    natReg message 3 ≤ Config.std.bufLen := by
  refine ⟨rfl, ?_⟩
  unfold Fits CopySafe
  decide
theorem witness_UnkeyedCipherPassesThrough_default :
    4096 ≤ Config.std.bufLen ∧
    ({ message with ww := { WakeContext.zero Config.std.bufLen with position := 4096 } } : State).ww =
      { WakeContext.zero Config.std.bufLen with position := 4096 } ∧
    Fits Config.std (natReg message 1) (natReg message 3) ∧
    Fits Config.std (natReg message 5) (natReg message 3) ∧
    CopySafe (natReg message 1) (natReg message 5) (natReg message 3) := by
  refine ⟨by decide, rfl, ?_⟩
  unfold Fits CopySafe
  decide

/-- A state that meets the invariant and is not the reset state, with a step that answers a next state. -/
def waiting : State := { busy with host := [.command 0x0FF00000] }

theorem witness_StepKeepsInvariant :
    Config.std.wf = true ∧ Inv Config.std waiting ∧ ∃ t, step waiting = .next t := by
  refine ⟨by decide, ⟨by decide, by decide, by decide, List.length_replicate .., by decide, by decide,
    by decide, rfl, by decide, by decide⟩, ⟨_, rfl⟩⟩

theorem witness_PseudoCommands : (6 : Reg) ≠ 7 := by decide

end Sys2Proof.Tests
end

section
/-! The outcome of every command, and what its effect leaves of the control state: `pc`, the host's moves
and `STATUS` (spec/10_state.md R24, R26, spec/60_exceptions.md R203). -/

namespace Sys2Proof.Machine

/-! ### The outcome of a command -/

/-- Everything a command can do: it records one error, or its checks pass and it acts. -/
theorem execIn_outcome (cfg : Config) (i : Instr) (s : State) :
    ∃ t, execIn cfg i s = .next t ∧
      ((∃ e info, t = raise e info s) ∨
        (errorOf cfg i s = none ∧ t = advance (effectOf cfg i s))) := by
  rw [execIn_eq_guarded, errorOf_eq, Option.map_eq_none_iff]
  rcases guarded_cases (checksOf cfg i s) (effectOf cfg i) s with ⟨c, _, h⟩ | ⟨hc, h⟩
  · exact ⟨_, h, .inl ⟨_, _, rfl⟩⟩
  · exact ⟨_, h, .inr ⟨hc, rfl⟩⟩

/-- The same of the core. -/
theorem exec_outcome (i : Instr) (s : State) :
    ∃ t, exec i s = .next t ∧
      ((∃ e info, t = raise e info s) ∨
        (errorOf Config.std i s = none ∧ t = advance (effectOf Config.std i s))) := by
  rw [exec_eq_execIn]
  exact execIn_outcome Config.std i s

@[simp] theorem effectOf_pc (cfg : Config) (i : Instr) (s : State) :
    (effectOf cfg i s).pc = s.pc := by cases i <;> rfl

@[simp] theorem effectOf_host (cfg : Config) (i : Instr) (s : State) :
    (effectOf cfg i s).host = s.host := by cases i <;> rfl

/-! ### Each field of `STATUS` after a write of each field -/

section StatusFields
variable (st : Word64) (e : BitVec 3) (b : Bool)

@[simp] theorem statusIdeaKeyed_setStatusErr :
    statusIdeaKeyed (setStatusErr st e) = statusIdeaKeyed st := setStatusErr_high st e 8 (by decide)
@[simp] theorem statusIdeaKeyed_setIdeaKeyed : statusIdeaKeyed (setIdeaKeyed st b) = b :=
  setIdeaKeyed_getLsbD st b 8
@[simp] theorem statusIdeaKeyed_setWwKeyed :
    statusIdeaKeyed (setWwKeyed st b) = statusIdeaKeyed st := setWwKeyed_getLsbD st b 8
@[simp] theorem statusIdeaKeyed_setWwIvset :
    statusIdeaKeyed (setWwIvset st b) = statusIdeaKeyed st := setWwIvset_getLsbD st b 8

@[simp] theorem statusWwKeyed_setStatusErr :
    statusWwKeyed (setStatusErr st e) = statusWwKeyed st := setStatusErr_high st e 9 (by decide)
@[simp] theorem statusWwKeyed_setIdeaKeyed :
    statusWwKeyed (setIdeaKeyed st b) = statusWwKeyed st := setIdeaKeyed_getLsbD st b 9
@[simp] theorem statusWwKeyed_setWwKeyed : statusWwKeyed (setWwKeyed st b) = b :=
  setWwKeyed_getLsbD st b 9
@[simp] theorem statusWwKeyed_setWwIvset :
    statusWwKeyed (setWwIvset st b) = statusWwKeyed st := setWwIvset_getLsbD st b 9

@[simp] theorem statusWwIvset_setStatusErr :
    statusWwIvset (setStatusErr st e) = statusWwIvset st := setStatusErr_high st e 10 (by decide)
@[simp] theorem statusWwIvset_setIdeaKeyed :
    statusWwIvset (setIdeaKeyed st b) = statusWwIvset st := setIdeaKeyed_getLsbD st b 10

end StatusFields

/-! ### `STATUS` after a command that completes -/

/-- `STATUS` after a command that completes: six commands write it (R26). -/
def statusAfter (i : Instr) (st : Word64) : Word64 :=
  match i with
  | .clrerr => setStatusErr st 0
  | .ideaks _ _ => setIdeaKeyed st true
  | .ideaclr => setIdeaKeyed st false
  | .wwks _ _ => setWwIvset (setWwKeyed st true) false
  | .wwsiv _ _ => setWwIvset st true
  | .wwclr => setWwIvset (setWwKeyed st false) false
  | _ => st

@[simp] theorem effectOf_status (cfg : Config) (i : Instr) (s : State) :
    (effectOf cfg i s).status = statusAfter i s.status := by cases i <;> rfl

/-- The bits outside the four fields of `STATUS` are never written. -/
theorem statusAfter_reserved (i : Instr) (st : Word64) (k : Nat) (hk : (3 ≤ k ∧ k ≤ 7) ∨ 11 ≤ k) :
    (statusAfter i st).getLsbD k = st.getLsbD k := by
  have h3 : ¬ k < 3 := by omega
  have h8 : k ≠ 8 := by omega
  have h9 : k ≠ 9 := by omega
  have h10 : k ≠ 10 := by omega
  unfold statusAfter
  split <;> simp [setStatusErr_getLsbD, setIdeaKeyed_getLsbD, setWwKeyed_getLsbD, setWwIvset_getLsbD, *]

theorem statusAfter_ideaKeyed (i : Instr) (st : Word64) (hks : ∀ ra rn, i ≠ .ideaks ra rn)
    (hclr : i ≠ .ideaclr) : statusIdeaKeyed (statusAfter i st) = statusIdeaKeyed st := by
  unfold statusAfter
  split <;> simp_all

theorem statusAfter_wwKeyed (i : Instr) (st : Word64) (hks : ∀ ra rn, i ≠ .wwks ra rn)
    (hclr : i ≠ .wwclr) : statusWwKeyed (statusAfter i st) = statusWwKeyed st := by
  unfold statusAfter
  split <;> simp_all

theorem statusAfter_wwIvset (i : Instr) (st : Word64) (hks : ∀ ra rn, i ≠ .wwks ra rn)
    (hsiv : ∀ ra rn, i ≠ .wwsiv ra rn) (hclr : i ≠ .wwclr) :
    statusWwIvset (statusAfter i st) = statusWwIvset st := by
  unfold statusAfter
  split <;> simp_all

theorem statusErr_statusAfter (i : Instr) (st : Word64) (hclr : i ≠ .clrerr) :
    statusErr (statusAfter i st) = statusErr st := by
  unfold statusAfter
  split <;> simp_all

/-! ### Settled -/

/-- Settles O7: neither the record of an error nor the effect of a command moves `pc` or the waiting moves;
the counter at the end does. -/
theorem everyCommandCounts : Obligations.EveryCommandCounts := by
  intro i s
  obtain ⟨t, ht, ⟨e, info, rfl⟩ | ⟨-, rfl⟩⟩ := exec_outcome i s
  · exact ⟨_, ht, raise_pc e info s, raise_host e info s⟩
  · exact ⟨_, ht, by simp, by simp⟩

/-- Settles O17: an error changes only `ERR`, and that only from 0; a command that completes changes the
fields `statusAfter` lists for it. -/
theorem statusFrame : Obligations.StatusFrame := by
  intro i s
  obtain ⟨t, ht, ⟨e, info, rfl⟩ | ⟨-, rfl⟩⟩ := exec_outcome i s
  · have hr := recorded_raise e info s
    exact ⟨_, ht, fun k hk => hr.otherStatus k (by omega), fun _ _ => hr.otherStatus 8 (by decide),
      fun _ _ => hr.otherStatus 9 (by decide), fun _ _ _ => hr.otherStatus 10 (by decide),
      fun _ herr => (hr.sticky herr).1⟩
  · refine ⟨_, ht, ?_⟩
    rw [advance_status, effectOf_status]
    exact ⟨statusAfter_reserved i _, statusAfter_ideaKeyed i _, statusAfter_wwKeyed i _,
      statusAfter_wwIvset i _, fun hclr _ => statusErr_statusAfter i _ hclr⟩

end Sys2Proof.Machine
end

section
/-! The registers, the cipher contexts and the record after a command: who writes what
(spec/10_state.md R22, R26 to R36). -/

namespace Sys2Proof.Machine

/-! ### Registers -/

/-- The effect of a command leaves every register but its destinations (R22). -/
theorem getReg_effectOf (cfg : Config) (i : Instr) (s : State) (q : Reg) (hq : q ∉ destRegs i) :
    getReg (effectOf cfg i s) q = getReg s q := by
  cases i
  case striplz rd rl ra rn =>
    have ⟨hd, hl⟩ : q ≠ rd ∧ q ≠ rl := by simpa [destRegs] using hq
    exact (getReg_setReg_other _ rl q _ hl).trans (getReg_setReg_other _ rd q _ hd)
  case ld | ldi | ldis | expmask | exptop | iszero | iseq | islt | islte | sel | sel2 | sel3 | wwmix | wwviv =>
    exact getReg_setReg_other _ _ q _ (by simpa [destRegs] using hq)
  all_goals rfl

/-! ### The record -/

/-- `EPC` and `EINFO` change only by `CLRERR` when a command completes (R27, R28). -/
theorem effectOf_record (cfg : Config) (i : Instr) (s : State) (hclr : i ≠ .clrerr) :
    (effectOf cfg i s).epc = s.epc ∧ (effectOf cfg i s).einfo = s.einfo := by
  cases i
  case clrerr => exact absurd rfl hclr
  all_goals exact ⟨rfl, rfl⟩

/-! ### Cipher contexts -/

theorem effectOf_idea (cfg : Config) (i : Instr) (s : State) (hks : ∀ ra rn, i ≠ .ideaks ra rn)
    (hclr : i ≠ .ideaclr) : (effectOf cfg i s).idea = s.idea := by
  cases i
  case ideaks ra rn => exact absurd rfl (hks ra rn)
  case ideaclr => exact absurd rfl hclr
  all_goals rfl

theorem effectOf_wakeKey (cfg : Config) (i : Instr) (s : State) (hks : ∀ ra rn, i ≠ .wwks ra rn)
    (hclr : i ≠ .wwclr) :
    (effectOf cfg i s).ww.table = s.ww.table ∧ (effectOf cfg i s).ww.tKey = s.ww.tKey := by
  cases i
  case wwks ra rn => exact absurd rfl (hks ra rn)
  case wwclr => exact absurd rfl hclr
  case wwciph ri ro rn => exact cipherBus_keyed cfg _ _ _ _ _
  all_goals exact ⟨rfl, rfl⟩

theorem effectOf_buffer (cfg : Config) (i : Instr) (s : State) (hgen : i ≠ .wwgen)
    (hciph : ∀ ri ro rn, i ≠ .wwciph ri ro rn) (hclr : i ≠ .wwclr) :
    (effectOf cfg i s).ww.buffer = s.ww.buffer := by
  cases i
  case wwgen => exact absurd rfl hgen
  case wwciph ri ro rn => exact absurd rfl (hciph ri ro rn)
  case wwclr => exact absurd rfl hclr
  all_goals rfl

theorem effectOf_position (cfg : Config) (i : Instr) (s : State) (hks : ∀ ra rn, i ≠ .wwks ra rn)
    (hsiv : ∀ ra rn, i ≠ .wwsiv ra rn) (hgen : i ≠ .wwgen)
    (hciph : ∀ ri ro rn, i ≠ .wwciph ri ro rn) (hclr : i ≠ .wwclr) :
    (effectOf cfg i s).ww.position = s.ww.position := by
  cases i
  case wwks ra rn => exact absurd rfl (hks ra rn)
  case wwsiv ra rn => exact absurd rfl (hsiv ra rn)
  case wwgen => exact absurd rfl hgen
  case wwciph ri ro rn => exact absurd rfl (hciph ri ro rn)
  case wwclr => exact absurd rfl hclr
  all_goals rfl

theorem effectOf_wakeState (cfg : Config) (i : Instr) (s : State) (hks : ∀ ra rn, i ≠ .wwks ra rn)
    (hsiv : ∀ ra rn, i ≠ .wwsiv ra rn) (hgen : i ≠ .wwgen) (hmix : ∀ rd, i ≠ .wwmix rd)
    (hciph : ∀ ri ro rn, i ≠ .wwciph ri ro rn) (hclr : i ≠ .wwclr) :
    (effectOf cfg i s).ww.state = s.ww.state := by
  cases i
  case wwks ra rn => exact absurd rfl (hks ra rn)
  case wwsiv ra rn => exact absurd rfl (hsiv ra rn)
  case wwgen => exact absurd rfl hgen
  case wwmix rd => exact absurd rfl (hmix rd)
  case wwciph ri ro rn => exact absurd rfl (hciph ri ro rn)
  case wwclr => exact absurd rfl hclr
  all_goals rfl

/-! ### Settled -/

/-- Settles O16: the record of an error writes no register, the effect of a command its destinations only. -/
theorem registerFrame : Obligations.RegisterFrame := by
  intro i s
  obtain ⟨t, ht, ⟨e, info, rfl⟩ | ⟨-, rfl⟩⟩ := exec_outcome i s
  · exact ⟨_, ht, fun q _ => getReg_raise e info s q⟩
  · exact ⟨_, ht, fun q hq => getReg_effectOf _ i s q hq⟩

/-- Settles O18: the record of an error leaves both contexts, and the effect of a command leaves each part
that the command is not listed for. -/
theorem contextFrame : Obligations.ContextFrame := by
  intro i s
  obtain ⟨t, ht, ⟨e, info, rfl⟩ | ⟨-, rfl⟩⟩ := exec_outcome i s
  · exact ⟨_, ht, by simp⟩
  · exact ⟨_, ht, effectOf_idea _ i s, effectOf_wakeKey _ i s, effectOf_buffer _ i s,
      effectOf_position _ i s, effectOf_wakeState _ i s⟩

end Sys2Proof.Machine
end

section
/-! `MEM` under the effect of a command: an effect is a sequence of byte writes at the addresses of its
listed write accesses, so what every such write keeps, the effect keeps; and the listed accesses of a
command that raises no error are inside `MEM` (spec/20_memory.md R50, R51, R56). -/

namespace Sys2Proof.Machine

/-! ### What a sequence of byte writes keeps -/

/-- What each byte write of a `MemWrite` keeps, the `MemWrite` keeps. -/
theorem memWrite_keeps (P : Memory → Prop) (m : Memory) (a : Nat) (bs : List Byte)
    (step : ∀ c, a ≤ c → c < a + bs.length → ∀ m b, P m → P (memSet m c b)) (h : P m) :
    P (memWrite m a bs) := by
  induction bs generalizing m a with
  | nil => exact h
  | cons b bs ih =>
    simp only [List.length_cons] at step
    exact ih _ _ (fun c h1 h2 => step c (by omega) (by omega)) (step a (by omega) (by omega) m b h)

/-- What every byte write to an address of `log` keeps. -/
def KeptByWrites (P : Memory → Prop) (log : List Access) : Prop :=
  ∀ c, Access.write c ∈ log → ∀ m b, P m → P (memSet m c b)

theorem mem_writesAt_of_le (a n c : Nat) (h1 : a ≤ c) (h2 : c < a + n) : .write c ∈ writesAt a n :=
  (mem_writesAt a n _).mpr ⟨c - a, by omega, by congr 1; omega⟩

/-- A loop whose unit `j` writes `k` bytes at `addr j`, after the accesses `before j`. -/
theorem units_keep {σ : Type} (P : Memory → Prop) (f : Nat → σ → σ) (mem : σ → Memory)
    (n k : Nat) (addr : Nat → Nat) (bytes : Nat → σ → List Byte) (before : Nat → List Access)
    (hunit : ∀ j t, mem (f j t) = memWrite (mem t) (addr j) (bytes j t))
    (hlen : ∀ j t, (bytes j t).length = k)
    (hP : KeptByWrites P ((List.range n).flatMap fun j => before j ++ writesAt (addr j) k))
    (t : σ) (h : P (mem t)) : P (mem (loopUp f 0 n t)) := by
  refine loopUp_keeps_below f (fun _ t => P (mem t)) 0 n (fun j t _ hj ht => ?_) t h
  rw [hunit]
  refine memWrite_keeps P _ _ _ (fun c h1 h2 => hP c ?_) ht
  rw [hlen] at h2
  exact List.mem_flatMap.mpr ⟨j, List.mem_range.mpr (by omega),
    List.mem_append_right _ (mem_writesAt_of_le _ _ _ h1 h2)⟩

/-- What every write at a listed address keeps, the effect of the command keeps. -/
theorem effectOf_mem_keeps (cfg : Config) (i : Instr) (s : State) (P : Memory → Prop)
    (hP : KeptByWrites P (listedAccesses i s)) (h : P s.mem) : P (effectOf cfg i s).mem := by
  cases i
  case st w rs ra =>
    refine memWrite_keeps P s.mem _ _ (fun c h1 h2 => hP c ?_) h
    rw [beBytes_length] at h2
    exact mem_writesAt_of_le _ _ _ h1 h2
  case ccopy | czero | ideaenc | ideadec =>
    exact units_keep P _ Bus.mem _ _ _ _ _ (fun _ _ => rfl) (fun _ _ => beBytes_length _ _) hP _ h
  case wwciph ri ro rn =>
    exact units_keep P (cipherByte cfg (natReg s ri) (natReg s ro)) (fun p => p.1.mem) (natReg s rn) 1
      (fun j => natReg s ro + j)
      (fun j p => [memGet p.1.mem (natReg s ri + j) ^^^
        (wakeRefill cfg p.2).buffer.getD (wakeRefill cfg p.2).position 0])
      (fun j => [.read (natReg s ri + j)]) (fun _ _ => rfl) (fun _ _ => rfl) hP _ h
  all_goals exact h

/-- A byte that the effect makes no write access to reads as before (20_memory.md R51). -/
theorem memGet_effectOf (cfg : Config) (i : Instr) (s : State) (a : Nat)
    (ha : Access.write a ∉ listedAccesses i s) :
    memGet (effectOf cfg i s).mem a = memGet s.mem a := by
  refine effectOf_mem_keeps cfg i s (fun m => memGet m a = memGet s.mem a) (fun c hc m b hm => ?_) rfl
  have hne : a ≠ c := fun e => ha (e ▸ hc)
  exact (memGet_memSet_other m c b a hne).trans hm

/-! ### The listed accesses are inside `MEM` -/

/-- Every access is at an address of `MEM`. -/
def AccessesInside (cfg : Config) (log : List Access) : Prop := ∀ x ∈ log, x.address < cfg.memSize

theorem accessesInside_append (cfg : Config) (l₁ l₂ : List Access) (h₁ : AccessesInside cfg l₁)
    (h₂ : AccessesInside cfg l₂) : AccessesInside cfg (l₁ ++ l₂) := fun x hx =>
  (List.mem_append.mp hx).elim (h₁ x) (h₂ x)

theorem accessesInside_readsAt (cfg : Config) (a n : Nat) (h : Fits cfg a n) :
    AccessesInside cfg (readsAt a n) := fun x hx => by
  obtain ⟨j, hj, rfl⟩ := (mem_readsAt a n x).mp hx
  unfold Fits at h
  simp only [Access.address]
  omega

theorem accessesInside_writesAt (cfg : Config) (a n : Nat) (h : Fits cfg a n) :
    AccessesInside cfg (writesAt a n) := fun x hx => by
  obtain ⟨j, hj, rfl⟩ := (mem_writesAt a n x).mp hx
  unfold Fits at h
  simp only [Access.address]
  omega

theorem accessesInside_units (cfg : Config) (n : Nat) (g : Nat → List Access)
    (h : ∀ j, j < n → AccessesInside cfg (g j)) : AccessesInside cfg ((List.range n).flatMap g) :=
  fun x hx => by
    obtain ⟨j, hj, hx⟩ := List.mem_flatMap.mp hx
    exact h j (List.mem_range.mp hj) x hx

/-- A part of a range that fits. -/
theorem Fits.part {cfg : Config} {a n c k : Nat} (h : Fits cfg a n) (hc : a ≤ c) (hk : c + k ≤ a + n) :
    Fits cfg c k := by
  unfold Fits at h ⊢
  omega

/-- Unit `j` of a range of `n` units of `k` bytes. -/
theorem Fits.unit {cfg : Config} {a n k : Nat} (h : Fits cfg a (n * k)) (j : Nat) (hj : j < n) :
    Fits cfg (a + j * k) k := by
  have hle : (j + 1) * k ≤ n * k := Nat.mul_le_mul_right k hj
  rw [Nat.succ_mul] at hle
  exact h.part (by omega) (by omega)

/-- A length check that passes leaves the range check. -/
theorem range_of_lengthCheck {α : Type} {p : Prop} [Decidable p] {x : α} {o : Option α}
    (h : (if p then some x else o) = none) : o = none := by
  split at h
  · cases h
  · exact h

/-- The accesses of a block or byte command of one input and one output range, unit by unit. -/
theorem accessesInside_transfer (cfg : Config) (src dst n k : Nat) (hsrc : Fits cfg src (k * n))
    (hdst : Fits cfg dst (k * n)) :
    AccessesInside cfg
      ((List.range n).flatMap fun j => readsAt (src + k * j) k ++ writesAt (dst + k * j) k) := by
  refine accessesInside_units cfg n _ fun j hj => ?_
  rw [Nat.mul_comm k n] at hsrc hdst
  rw [Nat.mul_comm k j]
  exact accessesInside_append cfg _ _ (accessesInside_readsAt cfg _ _ (hsrc.unit j hj))
    (accessesInside_writesAt cfg _ _ (hdst.unit j hj))

/-- All accesses of a command that raises no error are inside `MEM` (20_memory.md R50, R56). -/
theorem listedAccesses_inside (cfg : Config) (i : Instr) (s : State) (h : errorOf cfg i s = none) :
    AccessesInside cfg (listedAccesses i s) := by
  cases i <;> simp only [errorOf, Option.or_eq_none_iff, rangeError_none] at h
  case ld => exact accessesInside_readsAt cfg _ _ h
  case st => exact accessesInside_writesAt cfg _ _ h
  case ccopy =>
    obtain ⟨⟨hto, hf0⟩, hf1⟩ := h
    exact accessesInside_units cfg _ _ fun j hj => accessesInside_append cfg _ _
      (accessesInside_append cfg _ _ (accessesInside_readsAt cfg _ _ (hf0.unit j hj))
        (accessesInside_readsAt cfg _ _ (hf1.unit j hj)))
      (accessesInside_writesAt cfg _ _ (hto.unit j hj))
  case czero =>
    exact accessesInside_units cfg _ _ fun j hj => accessesInside_append cfg _ _
      (accessesInside_readsAt cfg _ _ (h.unit j hj)) (accessesInside_writesAt cfg _ _ (h.unit j hj))
  case striplz => exact accessesInside_readsAt cfg _ _ h
  case ideaks | wwks | wwsiv =>
    exact accessesInside_readsAt cfg _ _ ((rangeError_none cfg _ _).mp (range_of_lengthCheck h))
  case ideaenc | ideadec => exact accessesInside_transfer cfg _ _ _ 8 h.1 h.2
  case wwciph ri ro rn =>
    have key := accessesInside_transfer cfg (natReg s ri) (natReg s ro) (natReg s rn) 1
    simp only [Nat.one_mul] at key
    exact key h.1 h.2
  all_goals exact fun _ hx => absurd hx List.not_mem_nil

end Sys2Proof.Machine
end

section
/-! No command carries a cipher context into the public state: the effect of a command on the registers,
the record and `MEM` outside its listed outputs is the same whatever the contexts hold
(spec/10_state.md R36, spec/60_exceptions.md R215). -/

namespace Sys2Proof.Machine

/-- `s` with other cipher contexts. -/
def withContexts (s : State) (ideaCtx : IdeaContext) (wwCtx : WakeContext) : State :=
  { s with idea := ideaCtx, ww := wwCtx }

section Contexts
variable (cfg : Config) (i : Instr) (s : State) (ideaCtx : IdeaContext) (wwCtx : WakeContext)

/-- The checks read no context. -/
theorem checksOf_withContexts : checksOf cfg i (withContexts s ideaCtx wwCtx) = checksOf cfg i s := by
  cases i <;> rfl

/-- The record of an error is the same in both states. -/
theorem raise_withContexts (e : ErrCode) (info : Word64) :
    raise e info (withContexts s ideaCtx wwCtx) = withContexts (raise e info s) ideaCtx wwCtx := by
  by_cases h : statusErr s.status = 0
  · rw [raise_of_no_error e info s h, raise_of_no_error e info (withContexts s ideaCtx wwCtx) h]; rfl
  · rw [raise_of_error e info s h, raise_of_error e info (withContexts s ideaCtx wwCtx) h]; rfl

theorem effectOf_epc_withContexts :
    (effectOf cfg i (withContexts s ideaCtx wwCtx)).epc = (effectOf cfg i s).epc := by cases i <;> rfl

theorem effectOf_einfo_withContexts :
    (effectOf cfg i (withContexts s ideaCtx wwCtx)).einfo = (effectOf cfg i s).einfo := by cases i <;> rfl

/-- Every register but the keystream word of `WWMIX`. -/
theorem getReg_effectOf_withContexts (r : Reg) (hr : r ∉ keyedRegs i) :
    getReg (effectOf cfg i (withContexts s ideaCtx wwCtx)) r = getReg (effectOf cfg i s) r := by
  cases i
  case wwmix rd =>
    have hd : r ∉ destRegs (.wwmix rd) := hr
    rw [getReg_effectOf _ _ _ _ hd, getReg_effectOf _ _ _ _ hd]; rfl
  all_goals rfl

/-- `MEM` as a whole, after a command that writes no key-dependent byte. -/
theorem effectOf_mem_withContexts (hk : writesKeyed i = false) :
    (effectOf cfg i (withContexts s ideaCtx wwCtx)).mem = (effectOf cfg i s).mem := by
  cases i
  case ideaenc | ideadec | wwciph => cases hk
  all_goals rfl

/-- Every byte of `MEM` but the output bytes of `IDEAENC`, `IDEADEC` and `WWCIPH`. -/
theorem memGet_effectOf_withContexts (a : Nat)
    (ha : ¬ (writesKeyed i = true ∧ Access.write a ∈ listedAccesses i s)) :
    memGet (effectOf cfg i (withContexts s ideaCtx wwCtx)).mem a = memGet (effectOf cfg i s).mem a := by
  by_cases hk : writesKeyed i = true
  · have hw : Access.write a ∉ listedAccesses i s := fun hw => ha ⟨hk, hw⟩
    have hw' : Access.write a ∉ listedAccesses i (withContexts s ideaCtx wwCtx) := by
      rwa [listed_congr i (withContexts s ideaCtx wwCtx) s fun _ _ => rfl]
    rw [memGet_effectOf cfg i _ a hw, memGet_effectOf cfg i _ a hw']; rfl
  · rw [effectOf_mem_withContexts cfg i s ideaCtx wwCtx (by simpa using hk)]

end Contexts

/-- Settles O19: the checks are the same in both states; where one fails, so is the record, and where none
does, the two effects agree on every public field. -/
theorem secretsStayInside : Obligations.SecretsStayInside := by
  intro i s ideaCtx wwCtx
  have hc := checksOf_withContexts Config.std i s ideaCtx wwCtx
  rw [show ({ s with idea := ideaCtx, ww := wwCtx } : State) = withContexts s ideaCtx wwCtx from rfl]
  simp only [exec_eq_execIn, execIn_eq_guarded, hc, accesses_eq, errorOf_eq, logOf_eq]
  cases hf : firstFailing (checksOf Config.std i s) with
  | some c =>
    refine ⟨_, _, guarded_fail _ _ _ c hf, guarded_fail _ _ _ c hf, ?_⟩
    rw [raise_withContexts]
    exact ⟨rfl, rfl, rfl, rfl, fun _ _ => rfl, fun _ _ => rfl⟩
  | none =>
    refine ⟨_, _, guarded_ok _ _ _ hf, guarded_ok _ _ _ hf, ?_⟩
    refine ⟨by simp [withContexts], by simp [withContexts], ?_, ?_, fun r hr => ?_, fun a ha => ?_⟩
    · exact (effectOf_epc_withContexts ..).symm
    · exact (effectOf_einfo_withContexts ..).symm
    · exact (getReg_effectOf_withContexts _ i s ideaCtx wwCtx r hr).symm
    · exact (memGet_effectOf_withContexts _ i s ideaCtx wwCtx a ha).symm

end Sys2Proof.Machine
end

section
/-! The invariant `Inv`: it holds after reset, and every step keeps it (spec/10_state.md R26 to R35, R42,
spec/20_memory.md R50, R51, spec/46_widerwake.md R185). -/

namespace Sys2Proof.Machine

/-! ### What the invariant speaks of -/

/-- The invariant does not mention the registers, `pc` or the waiting moves. -/
theorem Inv.frame {cfg : Config} {s : State} (h : Inv cfg s) (x : Vector Word64 8) (pc : Word64)
    (host : List HostMove) : Inv cfg { s with x := x, pc := pc, host := host } := { h with }

/-- The reserved bits read 0 (R26), bit by bit. -/
theorem reservedZero_iff (st : Word64) : st &&& statusReserved = 0 ↔
    ∀ k, (3 ≤ k ∧ k ≤ 7) ∨ 11 ≤ k → st.getLsbD k = false := by
  constructor
  · intro h k hk
    by_cases h64 : k < 64
    · have hbit := congrArg (BitVec.getLsbD · k) h
      simpa [statusReserved_getLsbD k h64, hk] using hbit
    · exact BitVec.getLsbD_of_ge st k (by omega)
  · intro h
    apply BitVec.eq_of_getLsbD_eq
    intro k h64
    rw [BitVec.getLsbD_and, statusReserved_getLsbD k h64]
    by_cases hk : (3 ≤ k ∧ k ≤ 7) ∨ 11 ≤ k
    · simp [h k hk]
    · simp [hk]

theorem errNumber_le (e : ErrCode) : (errNumber e).toNat ≤ 4 := by cases e <;> decide

/-! ### Reset -/

theorem invMod_zero : invMod 0 = 0 :=
  loopUp_keeps _ (fun _ y => y = 0) (fun _ y hy => hy ▸ (by decide : mulMod (mulMod 0 0) 0 = 0)) 0 15 0 rfl

theorem get_replicate {α : Type} (n : Nat) (v : α) (j : Fin n) : (Vector.replicate n v).get j = v := by
  simp [Vector.get_eq_getElem]

theorem subkey_zero (i : Nat) : subkey (Vector.replicate 52 0) i = 0 := get_replicate 52 0 _

/-- `idea_invert` of the zero table is the zero table (45_idea.md R155). -/
theorem ideaInvert_zero : ideaInvert (Vector.replicate 52 0) = Vector.replicate 52 0 := by
  refine vector_ext_subkey _ _ fun i hi => ?_
  rw [subkey_invert _ _ hi, subkey_zero]
  unfold invertWord
  simp only [subkey_zero, invMod_zero]
  split <;> rfl

theorem inv_resetFor (cfg : Config) : Inv cfg (State.resetFor cfg.bufLen) where
  memCanonical := rfl
  memInMem := rfl
  positionLe := Nat.zero_le _
  bufferLength := List.length_replicate
  errLe := (by decide : (statusErr 0).toNat ≤ 4)
  reservedZero := BitVec.zero_and
  quiet _ := ⟨rfl, rfl⟩
  inverse := ideaInvert_zero.symm
  unkeyedIdea _ := rfl
  unkeyedWake _ := ⟨rfl, rfl⟩

/-! ### The record of an error -/

/-- The record of one of the four errors keeps the invariant. -/
theorem inv_raise {cfg : Config} {s : State} (h : Inv cfg s) (e : ErrCode) (info : Word64) :
    Inv cfg (raise e info s) := by
  have hr := recorded_raise e info s
  have herr : statusErr (raise e info s).status =
      if statusErr s.status = 0 then errNumber e else statusErr s.status := by
    split
    · next h0 => exact (hr.first h0).1
    · next h0 => exact (hr.sticky h0).1
  have hne : statusErr (raise e info s).status ≠ 0 := by
    rw [herr]
    split
    · exact errNumber_ne_zero e
    · assumption
  refine ⟨?_, ?_, ?_, ?_, ?_, ?_, fun h0 => absurd h0 hne, ?_, fun hk => ?_, fun hk => ?_⟩
  · exact hr.mem ▸ h.memCanonical
  · exact hr.mem ▸ h.memInMem
  · exact hr.ww ▸ h.positionLe
  · exact hr.ww ▸ h.bufferLength
  · rw [herr]
    split
    · exact errNumber_le e
    · exact h.errLe
  · rw [reservedZero_iff]
    exact fun k hk => (hr.otherStatus k (by omega)).trans ((reservedZero_iff _).mp h.reservedZero k hk)
  · exact hr.idea ▸ h.inverse
  · exact hr.idea ▸ h.unkeyedIdea ((hr.otherStatus 8 (by decide)).symm.trans hk)
  · exact hr.ww ▸ h.unkeyedWake ((hr.otherStatus 9 (by decide)).symm.trans hk)

/-! ### The effect of a command -/

theorem wakeGenerate_buffer_length (cfg : Config) (hb : cfg.bufLenOk = true) (c : WakeContext) :
    (wakeGenerate cfg c).buffer.length = cfg.bufLen :=
  (keystreamBytes_length ..).trans (bufLen_four cfg hb).2

theorem wakeRefill_buffer_length (cfg : Config) (hb : cfg.bufLenOk = true) (c : WakeContext)
    (h : c.buffer.length = cfg.bufLen) : (wakeRefill cfg c).buffer.length = cfg.bufLen := by
  unfold wakeRefill
  split
  · exact wakeGenerate_buffer_length cfg hb c
  · exact h

theorem cipherBus_buffer_length (cfg : Config) (hb : cfg.bufLenOk = true) (i o n : Nat)
    (p : Bus × WakeContext) (h : p.2.buffer.length = cfg.bufLen) :
    (cipherBus cfg i o n p).2.buffer.length = cfg.bufLen :=
  loopUp_keeps _ (fun _ p => p.2.buffer.length = cfg.bufLen)
    (fun _ p hp => wakeRefill_buffer_length cfg hb p.2 hp) 0 n p h

/-- The buffer keeps its `WW_BUF_LEN` bytes (R34). -/
theorem effectOf_buffer_length (cfg : Config) (hb : cfg.bufLenOk = true) (i : Instr) (s : State)
    (h : s.ww.buffer.length = cfg.bufLen) : (effectOf cfg i s).ww.buffer.length = cfg.bufLen := by
  cases i
  case wwgen => exact wakeGenerate_buffer_length cfg hb s.ww
  case wwciph => exact cipherBus_buffer_length cfg hb _ _ _ _ h
  case wwclr => exact List.length_replicate
  all_goals exact h

/-- The cursor stays at most `WW_BUF_LEN` (R35, 46_widerwake.md R185). -/
theorem effectOf_position_le (cfg : Config) (hb : cfg.bufLenOk = true) (i : Instr) (s : State)
    (h : s.ww.position ≤ cfg.bufLen) : (effectOf cfg i s).ww.position ≤ cfg.bufLen := by
  cases i
  case wwks | wwsiv => exact Nat.le_refl _
  case wwgen | wwclr => exact Nat.zero_le _
  case wwciph ri ro rn => exact (cipherBus_spec cfg hb _ _ _ s.ww h (natReg s rn)).2.2
  all_goals exact h

/-- The IDEA context and its bit move together: keyed, cleared, or both as before. -/
theorem effectOf_idea_cases (cfg : Config) (i : Instr) (s : State) :
    ((∃ key, (effectOf cfg i s).idea = ideaKeyed key) ∧
        statusIdeaKeyed (effectOf cfg i s).status = true) ∨
      (effectOf cfg i s).idea = IdeaContext.zero ∨
      ((effectOf cfg i s).idea = s.idea ∧
        statusIdeaKeyed (effectOf cfg i s).status = statusIdeaKeyed s.status) := by
  by_cases hks : ∃ ra rn, i = .ideaks ra rn
  · obtain ⟨ra, rn, rfl⟩ := hks
    exact .inl ⟨⟨_, rfl⟩, statusIdeaKeyed_setIdeaKeyed s.status true⟩
  by_cases hclr : i = .ideaclr
  · exact .inr (.inl (hclr ▸ rfl))
  · have hks' : ∀ ra rn, i ≠ .ideaks ra rn := fun ra rn e => hks ⟨ra, rn, e⟩
    exact .inr (.inr ⟨effectOf_idea cfg i s hks' hclr,
      effectOf_status cfg i s ▸ statusAfter_ideaKeyed i s.status hks' hclr⟩)

/-- The WiderWake table, `t_key` and bit move together: keyed, cleared, or all as before. -/
theorem effectOf_wakeKey_cases (cfg : Config) (i : Instr) (s : State) :
    statusWwKeyed (effectOf cfg i s).status = true ∨
      ((effectOf cfg i s).ww.table = Vector.replicate 256 0 ∧
        (effectOf cfg i s).ww.tKey = Vector.replicate 4 0) ∨
      ((effectOf cfg i s).ww.table = s.ww.table ∧ (effectOf cfg i s).ww.tKey = s.ww.tKey ∧
        statusWwKeyed (effectOf cfg i s).status = statusWwKeyed s.status) := by
  by_cases hks : ∃ ra rn, i = .wwks ra rn
  · obtain ⟨ra, rn, rfl⟩ := hks
    exact .inl (by simp [statusAfter])
  by_cases hclr : i = .wwclr
  · exact .inr (.inl (hclr ▸ ⟨rfl, rfl⟩))
  · have hks' : ∀ ra rn, i ≠ .wwks ra rn := fun ra rn e => hks ⟨ra, rn, e⟩
    obtain ⟨hT, hK⟩ := effectOf_wakeKey cfg i s hks' hclr
    exact .inr (.inr ⟨hT, hK, effectOf_status cfg i s ▸ statusAfter_wwKeyed i s.status hks' hclr⟩)

/-- `ERR` is 0 or as before. -/
theorem effectOf_err_cases (cfg : Config) (i : Instr) (s : State) :
    ((effectOf cfg i s).epc = 0 ∧ (effectOf cfg i s).einfo = 0 ∧ statusErr (effectOf cfg i s).status = 0) ∨
      ((effectOf cfg i s).epc = s.epc ∧ (effectOf cfg i s).einfo = s.einfo ∧
        statusErr (effectOf cfg i s).status = statusErr s.status) := by
  rw [effectOf_status]
  by_cases hclr : i = .clrerr
  · subst hclr
    exact .inl ⟨rfl, rfl, statusErr_setStatusErr _ _⟩
  · obtain ⟨hepc, heinfo⟩ := effectOf_record cfg i s hclr
    exact .inr ⟨hepc, heinfo, statusErr_statusAfter i s.status hclr⟩

/-- The effect of a command that raises no error keeps the invariant. -/
theorem inv_effectOf {cfg : Config} {s : State} (h : Inv cfg s) (hb : cfg.bufLenOk = true) (i : Instr)
    (herr : errorOf cfg i s = none) : Inv cfg (effectOf cfg i s) where
  memCanonical := effectOf_mem_keeps cfg i s (fun m => Memory.wf m = true)
    (fun c _ m b hm => memWf_memSet m c b hm) h.memCanonical
  memInMem := effectOf_mem_keeps cfg i s (fun m => memInside cfg.memSize m = true)
    (fun c hc m b hm => memInside_memSet _ m c b hm (listedAccesses_inside cfg i s herr _ hc)) h.memInMem
  positionLe := effectOf_position_le cfg hb i s h.positionLe
  bufferLength := effectOf_buffer_length cfg hb i s h.bufferLength
  errLe := by
    obtain ⟨-, -, he⟩ | ⟨-, -, he⟩ := effectOf_err_cases cfg i s <;> rw [he]
    · exact Nat.zero_le 4
    · exact h.errLe
  reservedZero := by
    rw [effectOf_status, reservedZero_iff]
    exact fun k hk => (statusAfter_reserved i _ k hk).trans ((reservedZero_iff _).mp h.reservedZero k hk)
  quiet h0 := by
    obtain ⟨hepc, heinfo, -⟩ | ⟨hepc, heinfo, he⟩ := effectOf_err_cases cfg i s
    · exact ⟨hepc, heinfo⟩
    · rw [hepc, heinfo]
      exact h.quiet (he ▸ h0)
  inverse := by
    obtain ⟨⟨key, hi⟩, -⟩ | hi | ⟨hi, -⟩ := effectOf_idea_cases cfg i s <;> rw [hi]
    · rfl
    · exact ideaInvert_zero.symm
    · exact h.inverse
  unkeyedIdea hk := by
    obtain ⟨-, hkeyed⟩ | hi | ⟨hi, hsame⟩ := effectOf_idea_cases cfg i s
    · exact absurd (hkeyed.symm.trans hk) (by decide)
    · exact hi
    · exact hi.trans (h.unkeyedIdea (hsame.symm.trans hk))
  unkeyedWake hk := by
    obtain hkeyed | hzero | ⟨hT, hK, hsame⟩ := effectOf_wakeKey_cases cfg i s
    · exact absurd (hkeyed.symm.trans hk) (by decide)
    · exact hzero
    · rw [hT, hK]
      exact h.unkeyedWake (hsame.symm.trans hk)

/-! ### A step -/

/-- A command keeps the invariant, whether it completes or raises an error. -/
theorem execIn_keeps_inv (cfg : Config) (hb : cfg.bufLenOk = true) (i : Instr) (s t : State)
    (h : Inv cfg s) (ht : execIn cfg i s = .next t) : Inv cfg t := by
  obtain ⟨t', ht', ⟨e, info, rfl⟩ | ⟨herr, rfl⟩⟩ := execIn_outcome cfg i s <;>
    cases ht'.symm.trans ht
  · exact inv_raise h e info
  · exact (inv_effectOf h hb i herr).frame _ _ _

theorem acceptWord_keeps_inv (cfg : Config) (hb : cfg.bufLenOk = true) (c : Word32) (s t : State)
    (h : Inv cfg s) (ht : acceptWord (execIn cfg) c s = .next t) : Inv cfg t := by
  cases hd : decode c with
  | ok i =>
    rw [acceptWord_ok _ _ _ i hd] at ht
    exact execIn_keeps_inv cfg hb i s t h ht
  | error e =>
    rw [acceptWord_error _ _ _ e hd] at ht
    cases ht
    exact inv_raise h _ _

/-- A write of a byte inside `MEM` keeps the invariant. -/
theorem inv_writeMem {cfg : Config} {s : State} (h : Inv cfg s) (a : Nat) (b : Byte)
    (ha : a < cfg.memSize) : Inv cfg { s with mem := memSet s.mem a b } :=
  { h with
    memCanonical := memWf_memSet _ a b h.memCanonical
    memInMem := memInside_memSet _ _ a b h.memInMem ha }

/-- Every move of the host keeps the invariant. -/
theorem applyMove_keeps_inv (cfg : Config) (hb : cfg.bufLenOk = true) (m : HostMove) (s t : State)
    (h : Inv cfg s) (ht : applyMove cfg (execIn cfg) m s = .next t) : Inv cfg t := by
  cases m with
  | command c => exact acceptWord_keeps_inv cfg hb c s t h ht
  | writeReg r v =>
    cases ht
    exact h.frame _ _ _
  | writeMem a b =>
    simp only [applyMove] at ht
    split at ht
    · next ha => cases ht; exact inv_writeMem h a b ha
    · cases ht
  | reset =>
    cases ht
    exact (inv_resetFor cfg).frame _ _ _

theorem stepIn_keeps_inv (cfg : Config) (hb : cfg.bufLenOk = true) (s t : State) (h : Inv cfg s)
    (ht : stepIn cfg s = .next t) : Inv cfg t := by
  unfold stepIn at ht
  cases hh : s.host with
  | nil =>
    rw [takeMove_idle _ _ _ hh] at ht
    cases ht
    exact h
  | cons m rest =>
    rw [takeMove_cons _ _ _ m rest hh] at ht
    exact applyMove_keeps_inv cfg hb m _ t (h.frame _ _ _) ht

/-! ### Settled -/

/-- Settles O55: the invariant is inductive, by the kinds of move: the record of an error, the effect of a
command, the two host writes, reset. -/
theorem stepKeepsInvariant : Obligations.StepKeepsInvariant := by
  refine ⟨fun s t h ht => ?_, fun cfg s t hwf h ht => stepIn_keeps_inv cfg (wf_bufLen cfg hwf) s t h ht⟩
  rw [step_eq_stepIn] at ht
  exact stepIn_keeps_inv Config.std (by decide) s t h ht

/-- Settles O10: every field of the reset state is zero or a table of zeros. -/
theorem resetIsZero : Obligations.ResetIsZero :=
  ⟨get_replicate 8 0, rfl, rfl, rfl, rfl, get_replicate 52 0, get_replicate 52 0,
    get_replicate 256 0, get_replicate 5 0, get_replicate 4 0, List.length_replicate,
    fun _ hb => List.eq_of_mem_replicate hb, rfl, fun _ => rfl⟩

/-- Settles O56: the reset state is that of the default buffer length. -/
theorem resetMeetsInvariant : Obligations.ResetMeetsInvariant := inv_resetFor Config.std

end Sys2Proof.Machine
end

section
/-! The accesses of a command are the listed ones, a function of its public operands, and they bound what
it changes in `MEM`; a load reads the bytes a store left (spec/20_memory.md R51 to R56, R65). -/

namespace Sys2Proof.Machine

/-! ### Accesses -/

/-- The accesses are those of the table, none when the command raises an error (R56). -/
theorem accesses_eq_listed (cfg : Config) (i : Instr) (s : State) :
    accesses cfg i s = if errorOf cfg i s = none then listedAccesses i s else [] := by
  rw [accesses_eq, logOf_eq]

theorem accesses_inside (cfg : Config) (i : Instr) (s : State) : AccessesInside cfg (accesses cfg i s) := by
  rw [accesses_eq_listed]
  split
  · next hok => exact listedAccesses_inside cfg i s hok
  · exact fun _ hx => absurd hx List.not_mem_nil

theorem accesses_congr (cfg : Config) (i : Instr) (s t : State) (h : SamePublic i s t) :
    accesses cfg i s = accesses cfg i t := by
  rw [accesses_eq_listed, accesses_eq_listed, errorOf_congr cfg i s t h, listed_congr i s t h]

/-! ### A load and a store inside `MEM` -/

theorem two_pow_wBits (w : Width) : 2 ^ wBits w = 256 ^ wBytes w := by rw [wBits_eq, Nat.pow_mul]

/-- `LD` at an address whose bytes are in `MEM` completes (40_host_commands.md R93). -/
theorem exec_ld_ok (w : Width) (rd ra : Reg) (s : State)
    (h : natReg s ra + wBytes w ≤ Config.std.memSize) :
    exec (.ld w rd ra) s = .next (advance (loadEffect w rd ra s)) := by
  rw [exec_eq_execIn]
  exact execIn_ok _ _ s ((rangeError_none _ _ _).mpr (.inr h))

/-- `ST` at an address whose bytes are in `MEM` completes (40_host_commands.md R94). -/
theorem exec_st_ok (w : Width) (rs ra : Reg) (s : State)
    (h : natReg s ra + wBytes w ≤ Config.std.memSize) :
    exec (.st w rs ra) s = .next (advance (storeEffect w rs ra s)) := by
  rw [exec_eq_execIn]
  exact execIn_ok _ _ s ((rangeError_none _ _ _).mpr (.inr h))

/-- A load returns the big-endian number of the bytes it reads. -/
theorem natReg_loadEffect (w : Width) (rd ra : Reg) (s : State) :
    natReg (loadEffect w rd ra s) rd = beNat (memRead s.mem (natReg s ra) (wBytes w)) := by
  have hlen : 8 * (memRead s.mem (natReg s ra) (wBytes w)).length ≤ wBits w := by
    rw [memRead_length, wBits_eq]
  rw [natReg, loadEffect, getReg_setReg_same, zext64_toNat]
  exact be_toNat _ _ hlen

/-- A store writes the bytes of the low `W` bits of its source. -/
theorem storeEffect_mem (w : Width) (rs ra : Reg) (s : State) :
    (storeEffect w rs ra s).mem =
      memWrite s.mem (natReg s ra) (beBytes (wBytes w) (natReg s rs % 2 ^ wBits w)) := by
  rw [natReg.eq_def s rs, ← xw_toNat]
  rfl

/-- Those bytes are then at its address. -/
theorem memRead_storeEffect (w : Width) (rs ra : Reg) (s : State) :
    memRead (storeEffect w rs ra s).mem (natReg s ra) (wBytes w) =
      beBytes (wBytes w) (natReg s rs % 2 ^ wBits w) := by
  have hread := memRead_memWrite s.mem (natReg s ra) (beBytes (wBytes w) (natReg s rs % 2 ^ wBits w))
  rwa [beBytes_length, ← storeEffect_mem] at hread

/-- The `k` bytes at offset `j` inside the bytes of a store are those digits of the stored number (R54). -/
theorem beNat_memRead_storeEffect (w : Width) (rs ra : Reg) (s : State) (j k : Nat)
    (h : j + k ≤ wBytes w) :
    beNat (memRead (storeEffect w rs ra s).mem (natReg s ra + j) k) =
      natReg s rs % 2 ^ wBits w / 256 ^ (wBytes w - j - k) % 256 ^ k := by
  rw [memRead_prefix _ _ _ _ _ h, memRead_storeEffect, beNat_slice _ _ _ (by rwa [beBytes_length]),
    beBytes_length, beNat_beBytes, two_pow_wBits, Nat.mod_mod]

/-! ### Settled -/

/-- Settles O14: the accesses are the listed ones where no error is, and both the list and the error are
functions of the public operands. -/
theorem accessPatternIsPublic : Obligations.AccessPatternIsPublic :=
  ⟨fun cfg i s => ⟨accesses_eq_listed cfg i s, accesses_inside cfg i s⟩, accesses_congr⟩

/-- Settles O15: the record of an error leaves `MEM`, and the effect of a command every byte but those of
its listed write accesses. -/
theorem memoryFrame : Obligations.MemoryFrame := by
  intro i s
  obtain ⟨t, ht, ⟨e, info, rfl⟩ | ⟨hok, rfl⟩⟩ := exec_outcome i s
  · exact ⟨_, ht, fun a _ => by rw [raise_mem]⟩
  · refine ⟨_, ht, fun a ha => memGet_effectOf Config.std i s a ?_⟩
    rwa [accesses_eq_listed, if_pos hok] at ha

/-- Settles O24: the load reads a slice of the bytes the store wrote; its range is in `MEM` because the
store's is. -/
theorem loadAfterStore : Obligations.LoadAfterStore := by
  intro w w' rs ra rd ra' s j hin hj haddr
  have haddr' : natReg (advance (storeEffect w rs ra s)) ra' = natReg s ra + j := haddr
  refine ⟨_, _, exec_st_ok w rs ra s hin, exec_ld_ok w' rd ra' _ (by omega), ?_⟩
  calc natReg (loadEffect w' rd ra' (advance (storeEffect w rs ra s))) rd
      = beNat (memRead (storeEffect w rs ra s).mem (natReg s ra + j) (wBytes w')) := by
        rw [natReg_loadEffect, haddr', advance_mem]
    _ = natReg s rs % 2 ^ wBits w / 256 ^ (wBytes w - j - wBytes w') % 2 ^ wBits w' := by
        rw [beNat_memRead_storeEffect w rs ra s j _ hj, two_pow_wBits w']

end Sys2Proof.Machine
end

section
/-! Decoding and encoding agree: the operands of a command are the fields of its word, and its row's mask
covers every other bit (spec/30_encoding.md R71 to R77). -/

namespace Sys2Proof

/-! ### The fields of a word -/

/-- What stands above a field does not change it. -/
theorem field_add_high (lo n H L : Nat) (h : 2 ^ (lo + n) ∣ H) :
    (H + L) / 2 ^ lo % 2 ^ n = L / 2 ^ lo % 2 ^ n := by
  rw [← Nat.mod_mul_right_div_self, ← Nat.mod_mul_right_div_self, ← Nat.pow_add, Nat.add_mod,
    Nat.mod_eq_zero_of_dvd h, Nat.zero_add, Nat.mod_mod]

theorem getLsbD_eq_testBit_bitField (c : Word32) (lo n j : Nat) (hlo : lo ≤ j) (hj : j < lo + n) :
    c.getLsbD j = (bitField c lo n).testBit (j - lo) := by
  rw [bitField, Nat.testBit_mod_two_pow, Nat.testBit_div_two_pow, Nat.sub_add_cancel hlo,
    decide_eq_true (by omega : j - lo < n), Bool.true_and, BitVec.testBit_toNat]

/-- Two words have the same field exactly when its bits agree. -/
theorem bitField_eq_iff (c c' : Word32) (lo n : Nat) : bitField c lo n = bitField c' lo n ↔
    ∀ j, lo ≤ j → j < lo + n → c.getLsbD j = c'.getLsbD j := by
  constructor
  · intro h j hlo hj
    rw [getLsbD_eq_testBit_bitField c lo n j hlo hj, h, ← getLsbD_eq_testBit_bitField c' lo n j hlo hj]
  · intro h
    refine Nat.eq_of_testBit_eq fun k => ?_
    simp only [bitField, Nat.testBit_mod_two_pow, Nat.testBit_div_two_pow, BitVec.testBit_toNat]
    by_cases hk : k < n
    · rw [h (k + lo) (by omega) (by omega)]
    · simp only [hk, decide_false, Bool.false_and]

@[simp] theorem regField_val (c : Word32) (k : Nat) : (regField c k).val = bitField c (21 - 3 * k) 3 :=
  Nat.mod_eq_of_lt (Nat.mod_lt _ (by decide))

@[simp] theorem immField_toNat (c : Word32) : (immField c).toNat = bitField c 0 16 :=
  (BitVec.toNat_ofNat _ _).trans (Nat.mod_eq_of_lt (Nat.mod_lt _ (by decide)))

theorem widthCode_injective (w w' : Width) (h : widthCode w = widthCode w') : w = w' := by
  revert h; cases w <;> cases w' <;> decide

@[simp] theorem widthCode_widthField (c : Word32) : widthCode (widthField c) = bitField c 24 2 := by
  have h : bitField c 24 2 < 4 := Nat.mod_lt _ (by decide)
  unfold widthField
  generalize bitField c 24 2 = m at h ⊢
  interval_cases m <;> rfl

/-! ### The operands of a command -/

/-- The operands of a command by the place each has in the word (30_encoding.md R71, R74): the width, the
registers `f0, f1, ...`, the immediate. -/
structure Operands where
  width : Option Width
  regs : List Reg
  imm : Option Word16

/-- The operands of each command (30_encoding.md R75). -/
def Instr.operands (i : Instr) : Operands :=
  match i with
  | .nop | .clrerr | .ideaclr | .wwgen | .wwclr => ⟨none, [], none⟩
  | .ldi rd imm | .ldis rd imm => ⟨none, [rd], some imm⟩
  | .ld w r0 r1 | .st w r0 r1 => ⟨some w, [r0, r1], none⟩
  | .expmask w r0 r1 | .exptop w r0 r1 | .iszero w r0 r1 => ⟨some w, [r0, r1], none⟩
  | .iseq w r0 r1 r2 | .islt w r0 r1 r2 | .islte w r0 r1 r2 => ⟨some w, [r0, r1, r2], none⟩
  | .czero w r0 r1 r2 => ⟨some w, [r0, r1, r2], none⟩
  | .sel w r0 r1 r2 r3 => ⟨some w, [r0, r1, r2, r3], none⟩
  | .ccopy w r0 r1 r2 r3 r4 => ⟨some w, [r0, r1, r2, r3, r4], none⟩
  | .sel2 w r0 r1 r2 r3 r4 r5 => ⟨some w, [r0, r1, r2, r3, r4, r5], none⟩
  | .sel3 w r0 r1 r2 r3 r4 r5 r6 r7 => ⟨some w, [r0, r1, r2, r3, r4, r5, r6, r7], none⟩
  | .striplz r0 r1 r2 r3 => ⟨none, [r0, r1, r2, r3], none⟩
  | .ideaenc r0 r1 r2 | .ideadec r0 r1 r2 | .wwciph r0 r1 r2 => ⟨none, [r0, r1, r2], none⟩
  | .poison r0 r1 | .unpoison r0 r1 | .ideaks r0 r1 | .wwks r0 r1 => ⟨none, [r0, r1], none⟩
  | .wwsiv r0 r1 | .wwviv r0 r1 => ⟨none, [r0, r1], none⟩
  | .wwmix r0 => ⟨none, [r0], none⟩

/-- What the word `c` holds at the places of these operands. -/
def Operands.readFrom (o : Operands) (c : Word32) : Operands :=
  ⟨o.width.map fun _ => widthField c, (List.range o.regs.length).map (regField c),
    o.imm.map fun _ => immField c⟩

/-- The number of the `w` field, 0 where the format has none. -/
def Operands.widthNat (o : Operands) : Nat := o.width.elim 0 widthCode

/-- The number of the immediate, 0 where the format has none. -/
def Operands.immNat (o : Operands) : Nat := o.imm.elim 0 BitVec.toNat

/-- The opcode of a row, its match bits 31:26 (30_encoding.md R71, R75). -/
def Row.opcode (r : Row) : Nat := bitField r.matchBits 26 6

/-- Every row has the mask of its operands' places: it fixes each bit of the word that is in no operand. -/
theorem operand_of_mask_zero (i : Instr) (j : Nat) (hj : j < 32) (h : i.row.mask.getLsbD j = false) :
    (24 - 3 * i.operands.regs.length ≤ j ∧ j < 24) ∨ (24 ≤ j ∧ j < 26 ∧ i.operands.width.isSome) ∨
      (j < 16 ∧ i.operands.imm.isSome) := by
  revert j
  cases i <;> simp only [Instr.row, Instr.operands, List.length_cons, List.length_nil,
    Option.isSome_some, Option.isSome_none] <;> decide

/-! ### The word of a command -/

theorem matchBits_toNat (i : Instr) : i.row.matchBits.toNat = i.row.opcode * 2 ^ 26 := by
  cases i <;> simp only [Instr.row] <;> decide

/-- The registers `fs` from place `k` on reach from bit `24 - 3 * (k + fs.length)` up to bit `24 - 3 * k`. -/
theorem packRegs_dvd (k : Nat) (fs : List Reg) (h : k + fs.length ≤ 8) :
    2 ^ (24 - 3 * (k + fs.length)) ∣ packRegs k fs := by
  induction fs generalizing k with
  | nil => exact Nat.dvd_zero _
  | cons r rs ih =>
    rw [List.length_cons] at h ⊢
    refine Nat.dvd_add ((Nat.pow_dvd_pow 2 (by omega)).mul_left _) ?_
    rw [← Nat.add_assoc, Nat.add_right_comm]
    exact ih (k + 1) (by omega)

theorem packRegs_add_lt (k : Nat) (fs : List Reg) (v : Nat) (h : k + fs.length ≤ 8)
    (hv : v < 2 ^ (24 - 3 * (k + fs.length))) : packRegs k fs + v < 2 ^ (24 - 3 * k) := by
  induction fs generalizing k with
  | nil => exact (Nat.zero_add v).symm ▸ hv
  | cons r rs ih =>
    rw [List.length_cons] at h hv
    have hrest : packRegs (k + 1) rs + v < 2 ^ (24 - 3 * (k + 1)) :=
      ih (k + 1) (by omega) (by rwa [Nat.add_right_comm])
    have hr : (r.val + 1) * 2 ^ (21 - 3 * k) ≤ 8 * 2 ^ (21 - 3 * k) := Nat.mul_le_mul_right _ r.isLt
    have hplace : 2 ^ (24 - 3 * k) = 8 * 2 ^ (21 - 3 * k) := by
      rw [show 24 - 3 * k = 3 + (21 - 3 * k) by omega, Nat.pow_add]
    rw [show 24 - 3 * (k + 1) = 21 - 3 * k by omega] at hrest
    rw [Nat.add_one_mul] at hr
    rw [packRegs, hplace]
    omega

theorem packRegs_zero_add_lt (fs : List Reg) (v : Nat) (h : fs.length ≤ 8)
    (hv : v < 2 ^ (24 - 3 * fs.length)) : packRegs 0 fs + v < 2 ^ 24 :=
  packRegs_add_lt 0 fs v (by omega) (by rwa [Nat.zero_add])

/-- Register field `k + m` of packed registers is register `m`. -/
theorem packRegs_field (k : Nat) (fs : List Reg) (v m : Nat) (h : k + fs.length ≤ 8)
    (hv : v < 2 ^ (24 - 3 * (k + fs.length))) (hm : m < fs.length) :
    (packRegs k fs + v) / 2 ^ (21 - 3 * (k + m)) % 2 ^ 3 = fs[m].val := by
  induction fs generalizing k m with
  | nil => exact absurd hm (Nat.not_lt_zero m)
  | cons r rs ih =>
    rw [List.length_cons] at h hv hm
    have hv' : v < 2 ^ (24 - 3 * (k + 1 + rs.length)) := by rwa [Nat.add_right_comm]
    rw [packRegs, Nat.add_assoc]
    cases m with
    | zero =>
      have hrest := packRegs_add_lt (k + 1) rs v (by omega) hv'
      rw [show 24 - 3 * (k + 1) = 21 - 3 * k by omega] at hrest
      rw [Nat.add_zero k, Nat.add_comm, Nat.add_mul_div_right _ _ (Nat.two_pow_pos _),
        Nat.div_eq_of_lt hrest, Nat.zero_add]
      exact Nat.mod_eq_of_lt r.isLt
    | succ m =>
      rw [field_add_high _ _ _ _ ((Nat.pow_dvd_pow 2 (by omega)).mul_left _),
        show k + (m + 1) = k + 1 + m by omega]
      exact ih (k + 1) m (by omega) hv' (by omega)

theorem operands_regs_length (i : Instr) : i.operands.regs.length ≤ 8 := by
  cases i <;> simp only [Instr.operands, List.length_cons, List.length_nil] <;> decide

/-- An immediate lies below the registers of its format. -/
theorem operands_immNat_lt (i : Instr) :
    i.operands.immNat < 2 ^ (24 - 3 * i.operands.regs.length) := by
  cases i
  case ldi rd imm | ldis rd imm => exact Nat.lt_of_lt_of_le imm.isLt (by decide : 2 ^ 16 ≤ 2 ^ 21)
  all_goals exact Nat.two_pow_pos _

/-- The word with match bits `m`, width number `w`, registers `fs` and immediate `v`, each at its place:
formats R and I in one (30_encoding.md R72). -/
def formWord (m w : Nat) (fs : List Reg) (v : Nat) : Word32 :=
  BitVec.ofNat 32 (m + w * 2 ^ 24 + packRegs 0 fs + v)

theorem packWord_eq (r : Row) (w : Nat) (fs : List Reg) :
    packWord r w fs = formWord r.matchBits.toNat w fs 0 := by
  rw [formWord, Nat.add_zero, packWord]

theorem packImm_eq (r : Row) (rd : Reg) (imm : Word16) :
    packImm r rd imm = formWord r.matchBits.toNat 0 [rd] imm.toNat := by
  rw [formWord, Nat.zero_mul, Nat.add_zero, packImm]

/-- The word of a command is its match bits and its operands. -/
theorem encode_eq (i : Instr) : encode i =
    formWord i.row.matchBits.toNat i.operands.widthNat i.operands.regs i.operands.immNat := by
  cases i
  case ldi rd imm | ldis rd imm => exact packImm_eq _ rd imm
  all_goals exact packWord_eq _ _ _

section FormWord
variable (op w : Nat) (fs : List Reg) (v : Nat) (hop : op < 64) (hw : w < 4) (hfs : fs.length ≤ 8)
  (hv : v < 2 ^ (24 - 3 * fs.length))
include hop hw hfs hv

theorem formWord_toNat :
    (formWord (op * 2 ^ 26) w fs v).toNat = (op * 4 + w) * 2 ^ 24 + (packRegs 0 fs + v) := by
  have hlow := packRegs_zero_add_lt fs v hfs hv
  rw [formWord, BitVec.toNat_ofNat, Nat.mod_eq_of_lt] <;> omega

theorem formWord_opcode : bitField (formWord (op * 2 ^ 26) w fs v) 26 6 = op := by
  have hlow := packRegs_zero_add_lt fs v hfs hv
  rw [bitField, formWord_toNat op w fs v hop hw hfs hv]
  omega

theorem formWord_width : bitField (formWord (op * 2 ^ 26) w fs v) 24 2 = w := by
  have hlow := packRegs_zero_add_lt fs v hfs hv
  rw [bitField, formWord_toNat op w fs v hop hw hfs hv]
  omega

theorem formWord_reg (k : Nat) (hk : k < fs.length) :
    regField (formWord (op * 2 ^ 26) w fs v) k = fs[k] := by
  have hplace := packRegs_field 0 fs v k (by omega) (by rwa [Nat.zero_add]) hk
  rw [Nat.zero_add] at hplace
  have hhigh : 2 ^ (21 - 3 * k + 3) ∣ (op * 4 + w) * 2 ^ 24 := (Nat.pow_dvd_pow 2 (by omega)).mul_left _
  apply Fin.ext
  rw [regField_val, bitField, formWord_toNat op w fs v hop hw hfs hv, field_add_high _ _ _ _ hhigh, hplace]

theorem formWord_imm (himm : fs.length ≤ 2) :
    bitField (formWord (op * 2 ^ 26) w fs v) 0 16 = v % 2 ^ 16 := by
  have hregs := packRegs_dvd 0 fs (by omega)
  have hhigh : 2 ^ (0 + 16) ∣ (op * 4 + w) * 2 ^ 24 + packRegs 0 fs :=
    Nat.dvd_add ((Nat.pow_dvd_pow 2 (by decide)).mul_left _)
      ((Nat.pow_dvd_pow 2 (by omega)).trans hregs)
  rw [bitField, formWord_toNat op w fs v hop hw hfs hv, ← Nat.add_assoc, field_add_high _ _ _ _ hhigh,
    Nat.pow_zero, Nat.div_one]

end FormWord

/-! ### The fields of the word of a command -/

theorem opcode_lt (r : Row) : r.opcode < 64 := Nat.mod_lt _ (by decide)

theorem operands_widthNat_lt (i : Instr) : i.operands.widthNat < 4 := by
  unfold Operands.widthNat
  cases i.operands.width with
  | none => decide
  | some w => exact widthCode_lt w

theorem operands_imm_regs (i : Instr) (h : i.operands.imm.isSome) : i.operands.regs.length ≤ 2 := by
  cases i
  case ldi rd imm | ldis rd imm => exact Nat.le_succ 1
  all_goals exact absurd h Bool.false_ne_true

theorem encode_opcode (i : Instr) : bitField (encode i) 26 6 = i.row.opcode := by
  rw [encode_eq, matchBits_toNat]
  exact formWord_opcode _ _ _ _ (opcode_lt _) (operands_widthNat_lt i) (operands_regs_length i)
    (operands_immNat_lt i)

/-- The word of a command holds each operand at its place. -/
theorem readFrom_encode (i : Instr) : i.operands.readFrom (encode i) = i.operands := by
  have hop := opcode_lt i.row
  have hw := operands_widthNat_lt i
  have hfs := operands_regs_length i
  have hv := operands_immNat_lt i
  have himm := operands_imm_regs i
  rw [encode_eq, matchBits_toNat]
  generalize i.operands = o at hw hfs hv himm ⊢
  obtain ⟨width, regs, imm⟩ := o
  have hwidth := formWord_width _ _ _ _ hop hw hfs hv
  have hregs := formWord_reg _ _ _ _ hop hw hfs hv
  have himm := fun h => formWord_imm _ _ _ _ hop hw hfs hv (himm h)
  generalize formWord _ _ _ _ = c at hwidth hregs himm
  unfold Operands.readFrom
  congr 1
  · cases width with
    | none => rfl
    | some w => exact congrArg some (widthCode_injective _ _ ((widthCode_widthField c).trans hwidth))
  · exact List.ext_getElem (by simp) (by simpa using hregs)
  · cases imm with
    | none => rfl
    | some v =>
      refine congrArg some (BitVec.eq_of_toNat_eq ?_)
      rw [immField_toNat, himm rfl]
      exact Nat.mod_eq_of_lt v.isLt

/-! ### Decoding -/

theorem decode_eq_ok_iff (c : Word32) (i : Instr) :
    decode c = .ok i ↔ operandsOf c = some i ∧ c &&& i.row.mask = i.row.matchBits := by
  unfold decode
  cases operandsOf c with
  | none => simp
  | some j =>
    by_cases h : c &&& j.row.mask = j.row.matchBits
    · simp only [if_pos h, Except.ok.injEq, Option.some.injEq]
      exact ⟨fun e => ⟨e, e ▸ h⟩, And.left⟩
    · simp only [if_neg h, reduceCtorEq, Option.some.injEq, false_iff]
      exact fun ⟨e, hi⟩ => h (e ▸ hi)

theorem decode_eq_unassigned_iff (c : Word32) :
    decode c = .error .unassignedOpcode ↔ operandsOf c = none := by
  unfold decode
  cases operandsOf c with
  | none => simp
  | some j => by_cases h : c &&& j.row.mask = j.row.matchBits <;> simp [h]

/-- The opcode of a row picks that row, and the fields of the word fill its operands in (R76). -/
theorem operandsOf_of_opcode (c : Word32) (i : Instr) (h : bitField c 26 6 = i.row.opcode) :
    ∃ j, operandsOf c = some j ∧ j.row = i.row ∧
      (i.operands.readFrom c = i.operands → j = i) := by
  unfold operandsOf
  rw [h]
  cases i
  case nop | clrerr | ideaclr | wwgen | wwclr => exact ⟨_, rfl, rfl, fun _ => rfl⟩
  all_goals
    simp only [Instr.row]
    refine ⟨_, rfl, rfl, fun e => ?_⟩
    simpa [Instr.operands, Operands.readFrom, List.range_succ] using e

theorem operandsOf_spec (c : Word32) (i : Instr) (h : operandsOf c = some i) :
    bitField c 26 6 = i.row.opcode ∧ i.operands.readFrom c = i.operands := by
  unfold operandsOf at h
  split at h <;> cases h <;> simp only [Instr.row] <;> exact ⟨‹_›, rfl⟩

/-! ### The mask of a row -/

theorem getLsbD_of_fits (c m r : Word32) (h : c &&& m = r) (j : Nat) (hj : m.getLsbD j = true) :
    c.getLsbD j = r.getLsbD j := by
  rw [← h, BitVec.getLsbD_and, hj, Bool.and_true]

/-- The mask of every row fixes the opcode. -/
theorem opcode_of_fits (c : Word32) (i : Instr) (h : c &&& i.row.mask = i.row.matchBits) :
    bitField c 26 6 = i.row.opcode := by
  refine (bitField_eq_iff c i.row.matchBits 26 6).mpr fun j hlo hj => ?_
  refine getLsbD_of_fits _ _ _ h j ?_
  by_contra hmask
  have hplace := operand_of_mask_zero i j hj (Bool.eq_false_iff.mpr hmask)
  omega

/-- A word of a row decodes to a command of that row. -/
theorem decode_of_fits (c : Word32) (i : Instr) (h : c &&& i.row.mask = i.row.matchBits) :
    ∃ j, decode c = .ok j ∧ j.row = i.row := by
  obtain ⟨j, hj, hrow, -⟩ := operandsOf_of_opcode c i (opcode_of_fits c i h)
  exact ⟨j, (decode_eq_ok_iff c j).mpr ⟨hj, hrow ▸ h⟩, hrow⟩

/-- A word that decodes has its command's operands at their places. -/
theorem readFrom_of_decode (c : Word32) (i : Instr) (h : decode c = .ok i) :
    i.operands.readFrom c = i.operands :=
  (operandsOf_spec c i ((decode_eq_ok_iff c i).mp h).1).2

/-- Two words with the same operands at a place agree on its bits. -/
theorem getLsbD_of_readFrom (o : Operands) (c c' : Word32) (h : o.readFrom c = o.readFrom c') (j : Nat)
    (hj : (24 - 3 * o.regs.length ≤ j ∧ j < 24) ∨ (24 ≤ j ∧ j < 26 ∧ o.width.isSome) ∨
      (j < 16 ∧ o.imm.isSome)) : c.getLsbD j = c'.getLsbD j := by
  obtain ⟨width, regs, imm⟩ := o
  obtain ⟨hwidth, hregs, himm⟩ := Operands.mk.inj h
  rcases hj with ⟨hlo, hj⟩ | ⟨hlo, hj, hw⟩ | ⟨hj, hi⟩
  · have hk : (23 - j) / 3 < regs.length := by simp only at hlo; omega
    have hreg := List.map_inj_left.mp hregs _ (List.mem_range.mpr hk)
    have hfield := congrArg Fin.val hreg
    rw [regField_val, regField_val] at hfield
    exact (bitField_eq_iff c c' _ _).mp hfield j (by omega) (by omega)
  · obtain ⟨w, rfl⟩ := Option.isSome_iff_exists.mp hw
    have hfield := congrArg widthCode (Option.some.inj hwidth)
    rw [widthCode_widthField, widthCode_widthField] at hfield
    exact (bitField_eq_iff c c' _ _).mp hfield j hlo hj
  · obtain ⟨v, rfl⟩ := Option.isSome_iff_exists.mp hi
    have hfield := congrArg BitVec.toNat (Option.some.inj himm)
    rw [immField_toNat, immField_toNat] at hfield
    exact (bitField_eq_iff c c' _ _).mp hfield j (Nat.zero_le j) (by omega)

/-- One command has one word: the mask fixes some of its bits and the operands the others. -/
theorem decode_injective (c c' : Word32) (i : Instr) (h : decode c = .ok i) (h' : decode c' = .ok i) :
    c = c' := by
  have hfit := ((decode_eq_ok_iff c i).mp h).2
  have hfit' := ((decode_eq_ok_iff c' i).mp h').2
  refine BitVec.eq_of_getLsbD_eq fun j hj => ?_
  cases hmask : i.row.mask.getLsbD j with
  | true => rw [getLsbD_of_fits _ _ _ hfit j hmask, getLsbD_of_fits _ _ _ hfit' j hmask]
  | false =>
    have hsame := (readFrom_of_decode c i h).trans (readFrom_of_decode c' i h').symm
    exact getLsbD_of_readFrom i.operands c c' hsame j (operand_of_mask_zero i j hj hmask)

/-- The word of every command fits its row (R75). -/
theorem encode_fits (i : Instr) : encode i &&& i.row.mask = i.row.matchBits := by
  cases i with
  | nop => exact Laws.EncodingFitsRow.nop
  | ldi rd imm => exact Laws.EncodingFitsRow.ldi rd imm
  | ldis rd imm => exact Laws.EncodingFitsRow.ldis rd imm
  | ld w rd ra => exact Laws.EncodingFitsRow.ld w rd ra
  | st w rs ra => exact Laws.EncodingFitsRow.st w rs ra
  | clrerr => exact Laws.EncodingFitsRow.clrerr
  | expmask w rd rs => exact Laws.EncodingFitsRow.expmask w rd rs
  | exptop w rd rs => exact Laws.EncodingFitsRow.exptop w rd rs
  | iszero w rd rs => exact Laws.EncodingFitsRow.iszero w rd rs
  | iseq w rd ra rb => exact Laws.EncodingFitsRow.iseq w rd ra rb
  | islt w rd ra rb => exact Laws.EncodingFitsRow.islt w rd ra rb
  | islte w rd ra rb => exact Laws.EncodingFitsRow.islte w rd ra rb
  | sel w rd rm rt rf => exact Laws.EncodingFitsRow.sel w rd rm rt rf
  | sel2 w rd rm0 rv0 rm1 rv1 ro => exact Laws.EncodingFitsRow.sel2 w rd rm0 rv0 rm1 rv1 ro
  | sel3 w rd rm0 rv0 rm1 rv1 rm2 rv2 ro => exact Laws.EncodingFitsRow.sel3 w rd rm0 rv0 rm1 rv1 rm2 rv2 ro
  | ccopy w rc rto rf0 rf1 rn => exact Laws.EncodingFitsRow.ccopy w rc rto rf0 rf1 rn
  | czero w rc ra rn => exact Laws.EncodingFitsRow.czero w rc ra rn
  | striplz rd rl ra rn => exact Laws.EncodingFitsRow.striplz rd rl ra rn
  | poison ra rn => exact Laws.EncodingFitsRow.poison ra rn
  | unpoison ra rn => exact Laws.EncodingFitsRow.unpoison ra rn
  | ideaks ra rn => exact Laws.EncodingFitsRow.ideaks ra rn
  | ideaenc ri ro rn => exact Laws.EncodingFitsRow.ideaenc ri ro rn
  | ideadec ri ro rn => exact Laws.EncodingFitsRow.ideadec ri ro rn
  | ideaclr => exact Laws.EncodingFitsRow.ideaclr
  | wwks ra rn => exact Laws.EncodingFitsRow.wwks ra rn
  | wwsiv ra rn => exact Laws.EncodingFitsRow.wwsiv ra rn
  | wwgen => exact Laws.EncodingFitsRow.wwgen
  | wwmix rd => exact Laws.EncodingFitsRow.wwmix rd
  | wwciph ri ro rn => exact Laws.EncodingFitsRow.wwciph ri ro rn
  | wwclr => exact Laws.EncodingFitsRow.wwclr
  | wwviv rd rs => exact Laws.EncodingFitsRow.wwviv rd rs

/-- The 33 opcodes of no row (R75, R77). -/
theorem operandsOf_eq_none_iff (c : Word32) : operandsOf c = none ↔
    (6 ≤ c.toNat / 2 ^ 26 ∧ c.toNat / 2 ^ 26 ≤ 15) ∨ c.toNat / 2 ^ 26 = 0x13 ∨ c.toNat / 2 ^ 26 = 0x17 ∨
      (0x24 ≤ c.toNat / 2 ^ 26 ∧ c.toNat / 2 ^ 26 ≤ 0x27) ∨ 0x2F ≤ c.toNat / 2 ^ 26 := by
  have hc := c.isLt
  have hop : c.toNat / 2 ^ 26 = bitField c 26 6 := by rw [bitField]; omega
  have hlt : bitField c 26 6 < 64 := Nat.mod_lt _ (by decide)
  rw [hop]
  unfold operandsOf
  generalize bitField c 26 6 = m at hlt ⊢
  interval_cases m <;> simp

end Sys2Proof

namespace Sys2Proof.Machine

/-! ### Settled -/

/-- Settles O1: the opcode picks the row, every operand is read back from its place, and the word fits the
row's mask. -/
theorem decodeEncode : Obligations.DecodeEncode := by
  intro i
  obtain ⟨j, hj, -, hsame⟩ := operandsOf_of_opcode (encode i) i (encode_opcode i)
  obtain rfl := hsame (readFrom_encode i)
  exact (decode_eq_ok_iff _ _).mpr ⟨hj, encode_fits j⟩

/-- Settles O2: the word of the command decodes to it too, and one command has one word. -/
theorem encodeDecode : Obligations.EncodeDecode := fun c i h =>
  decode_injective (encode i) c i (decodeEncode i) h

/-- Settles O3: the mask fixes the opcode, which picks the row. -/
theorem wordIsItsRow : Obligations.WordIsItsRow := by
  intro c i
  constructor
  · exact decode_of_fits c i
  · rintro ⟨j, hj, hrow⟩
    exact hrow ▸ ((decode_eq_ok_iff c j).mp hj).2

/-- Settles O5: a word that does not decode fits no row, since a word that fits one decodes; and its step is
`raise`. -/
theorem illegalWordIsRecorded : Obligations.IllegalWordIsRecorded := by
  refine ⟨fun c => ⟨?_, fun h => ?_⟩, fun c => ?_, fun s c rest e hhost hd => ?_⟩
  · rintro ⟨e, he⟩ i hfit
    obtain ⟨j, hj, -⟩ := decode_of_fits c i hfit
    rw [he] at hj
    cases hj
  · cases hd : decode c with
    | error e => exact ⟨e, rfl⟩
    | ok i => exact absurd ((decode_eq_ok_iff c i).mp hd).2 (h i)
  · rw [decode_eq_unassigned_iff, operandsOf_eq_none_iff]
  · refine ⟨_, (takeMove_cons _ _ s _ rest hhost).trans (acceptWord_error _ c _ e hd), ?_⟩
    rw [BitVec.ofNat_toNat]
    exact recorded_raise .illegalCommand (zext64 c) _

/-- Settles O4: each word is evaluated. -/
theorem workedEncodings : Obligations.WorkedEncodings := by
  unfold Obligations.WorkedEncodings
  decide

/-- Settles O6: the oldest move is the word, and accepting a word that decodes is the command itself. -/
theorem stepRunsDecoded : Obligations.StepRunsDecoded := by
  have hstep : ∀ (s : State) (c : Word32) (rest : List HostMove) (i : Instr),
      s.host = .command c :: rest → decode c = .ok i → step s = exec i { s with host := rest } :=
    fun s c rest i hhost hd => (takeMove_cons _ _ s _ rest hhost).trans (acceptWord_ok _ c _ i hd)
  refine ⟨hstep, fun s c i hd => ?_⟩
  have hword : BitVec.ofNat 32 (c.toNat % 2 ^ 32) = c := by
    rw [Nat.mod_eq_of_lt c.isLt, BitVec.ofNat_toNat, BitVec.setWidth_eq]
  rw [State.withFetchWord, hword]
  exact hstep (presentWord c s) c s.host i rfl hd

end Sys2Proof.Machine
end

section
/-! The pseudo-commands of the assembler (spec/30_encoding.md R81). -/

namespace Sys2Proof.Machine

/-! ### Runs of commands -/

/-- A command that raises no error acts, and the run goes on. -/
theorem execSeq_cons_ok (cfg : Config) (i : Instr) (is : List Instr) (s : State)
    (h : errorOf cfg i s = none) :
    execSeq cfg (i :: is) s = execSeq cfg is (advance (effectOf cfg i s)) := by
  rw [execSeq, execIn_ok cfg i s h]

/-! ### `LI` -/

theorem shiftIn_toNat (x : Word64) (h : Word16) :
    (shiftIn x h).toNat = (x.toNat * 2 ^ 16 + h.toNat) % 2 ^ 64 := by
  have hh := h.isLt
  rw [shiftIn, BitVec.toNat_append, ← Nat.shiftLeft_add_eq_or_of_lt hh, Nat.shiftLeft_eq,
    BitVec.extractLsb'_toNat, Nat.shiftRight_zero]
  omega

theorem halfOf_toNat (v : Word64) (k : Nat) : (halfOf v k).toNat = v.toNat / 2 ^ (16 * k) % 2 ^ 16 := by
  rw [halfOf, BitVec.extractLsb'_toNat, Nat.shiftRight_eq_div_pow]

/-- `LDIS` after `LDIS` shifts the immediates in one after the other and changes no other register. -/
theorem execSeq_ldis (cfg : Config) (rd : Reg) (hs : List Word16) (s : State) :
    ∃ t, execSeq cfg (hs.map (.ldis rd)) s = .next t ∧ getReg t rd = hs.foldl shiftIn (getReg s rd) ∧
      ∀ q, q ≠ rd → getReg t q = getReg s q := by
  induction hs generalizing s with
  | nil => exact ⟨s, rfl, rfl, fun _ _ => rfl⟩
  | cons h hs ih =>
    obtain ⟨t, ht, hval, hframe⟩ := ih (advance (effectOf cfg (.ldis rd h) s))
    have hrd : getReg (advance (effectOf cfg (.ldis rd h) s)) rd = shiftIn (getReg s rd) h := by
      rw [getReg_advance, effectOf, getReg_setReg_same, zext64, BitVec.setWidth_eq]
    rw [hrd] at hval
    refine ⟨t, (execSeq_cons_ok cfg _ _ s rfl).trans ht, hval, fun q hq => (hframe q hq).trans ?_⟩
    exact getReg_effectOf cfg _ s q (mt List.mem_singleton.mp hq)

/-- `LDI`, then `LDIS` for each further immediate. -/
theorem execSeq_ldi_ldis (cfg : Config) (rd : Reg) (h : Word16) (hs : List Word16) (s : State) :
    ∃ t, execSeq cfg (.ldi rd h :: hs.map (.ldis rd)) s = .next t ∧
      getReg t rd = hs.foldl shiftIn (zext64 h) ∧ ∀ q, q ≠ rd → getReg t q = getReg s q := by
  obtain ⟨t, ht, hval, hframe⟩ := execSeq_ldis cfg rd hs (advance (effectOf cfg (.ldi rd h) s))
  rw [getReg_advance, effectOf, getReg_setReg_same] at hval
  refine ⟨t, (execSeq_cons_ok cfg _ _ s rfl).trans ht, hval, fun q hq => (hframe q hq).trans ?_⟩
  exact getReg_effectOf cfg _ s q (mt List.mem_singleton.mp hq)

/-- The immediates of `LI rd, v`, the most significant first: as many as `v` needs. -/
def liHalves (v : Word64) : Word16 × List Word16 :=
  if v.toNat < 2 ^ 16 then (halfOf v 0, [])
  else if v.toNat < 2 ^ 32 then (halfOf v 1, [halfOf v 0])
  else if v.toNat < 2 ^ 48 then (halfOf v 2, [halfOf v 1, halfOf v 0])
  else (halfOf v 3, [halfOf v 2, halfOf v 1, halfOf v 0])

theorem pseudoLi_eq (rd : Reg) (v : Word64) :
    pseudoLi rd v = .ldi rd (liHalves v).1 :: (liHalves v).2.map (.ldis rd) := by
  unfold pseudoLi liHalves
  split_ifs <;> rfl

/-- The halves that `LI` loads make up the value. -/
theorem foldl_shiftIn_liHalves (v : Word64) :
    (liHalves v).2.foldl shiftIn (zext64 (liHalves v).1) = v := by
  have hv := v.isLt
  apply BitVec.eq_of_toNat_eq
  unfold liHalves
  split_ifs <;>
    simp only [List.foldl_cons, List.foldl_nil, shiftIn_toNat, zext64, BitVec.toNat_setWidth, halfOf_toNat] <;>
    omega

theorem pseudoLi_spec (s : State) (rd : Reg) (v : Word64) :
    ∃ t, execSeq Config.std (pseudoLi rd v) s = .next t ∧ getReg t rd = v ∧
      ∀ q, q ≠ rd → getReg t q = getReg s q := by
  rw [pseudoLi_eq]
  obtain ⟨t, ht, hval, hframe⟩ := execSeq_ldi_ldis Config.std rd (liHalves v).1 (liHalves v).2 s
  exact ⟨t, ht, hval.trans (foldl_shiftIn_liHalves v), hframe⟩

/-! ### `MOV` and `ISNZ` -/

/-- A value chosen between itself and itself. -/
theorem selectMask_self {n : Nat} (m v : BitVec n) : selectMask m v v = v := by
  rw [selectMask, BitVec.xor_self, BitVec.and_zero, BitVec.xor_zero]

theorem pseudoMov_spec (s : State) (rd rs : Reg) :
    ∃ t, execSeq Config.std (pseudoMov rd rs) s = .next t ∧ getReg t rd = getReg s rs ∧
      ∀ q, q ≠ rd → getReg t q = getReg s q := by
  refine ⟨_, execSeq_cons_ok Config.std (.sel .w64 rd rs rs rs) [] s rfl, ?_, fun q hq => ?_⟩
  · rw [getReg_advance, effectOf, getReg_setReg_same, selectMask_self]
    exact (BitVec.setWidth_eq _).trans (BitVec.setWidth_eq _)
  · exact getReg_effectOf _ _ s q (mt List.mem_singleton.mp hq)

theorem pseudoIsnz_spec (s : State) (w : Width) (rd rs : Reg) :
    ∃ t, execSeq Config.std (pseudoIsnz w rd rs) s = .next t ∧
      (natReg t rd = if natReg s rs % 2 ^ wBits w = 0 then 0 else 2 ^ wBits w - 1) ∧
      ∀ q, q ≠ rd → getReg t q = getReg s q := by
  refine ⟨_, execSeq_cons_ok Config.std (.expmask w rd rs) [] s rfl, ?_, fun q hq => ?_⟩
  · rw [effectOf, natReg_result, expandMask_toNat, xw_toNat, natReg]
  · exact getReg_effectOf _ _ s q (mt List.mem_singleton.mp hq)

/-! ### Settled -/

/-- Settles O57: `LI` shifts the halves of the value in, `MOV` selects between `x[rs]` and itself, and `ISNZ`
is `EXPMASK`. -/
theorem pseudoCommands : Obligations.PseudoCommands := fun s rd rs v w =>
  ⟨pseudoLi_spec s rd v, pseudoMov_spec s rd rs, pseudoIsnz_spec s w rd rs⟩

end Sys2Proof.Machine
end

section
/-! The shape all commands share, in the terms of the obligations: the decoding of the word of a command, its
outcome and accesses where no error is listed, and the record where one is (spec/30_encoding.md R71 to R75,
spec/60_exceptions.md R203). -/

namespace Sys2Proof.Machine

/-! ### The word of a command -/

/-- Match bits above 31 do not reach the word. -/
theorem formWord_ofNat_toNat (m w : Nat) (fs : List Reg) (v : Nat) :
    formWord (BitVec.ofNat 32 m).toNat w fs v = formWord m w fs v := by
  apply BitVec.eq_of_toNat_eq
  simp only [formWord, BitVec.toNat_ofNat, Nat.add_assoc, Nat.mod_add_mod]

section Encodings
variable (i : Instr) (op : Nat) (hop : i.row.matchBits = BitVec.ofNat 32 (op * 2 ^ 26))
include hop

/-- The word with the opcode and the operands of a command, each at its place, decodes to it. -/
theorem decode_formWord_operands :
    decode (formWord (op * 2 ^ 26) i.operands.widthNat i.operands.regs i.operands.immNat) = .ok i := by
  rw [← formWord_ofNat_toNat, ← hop, ← encode_eq]
  exact decodeEncode i

/-- The same of a command with no immediate (formats R and Z). -/
theorem encodes_of_operands (fs : List Reg) (hregs : i.operands.regs = fs) (himm : i.operands.imm = none) :
    Encodes i op i.operands.widthNat fs := by
  have hdec := decode_formWord_operands i op hop
  rwa [hregs, Operands.immNat, himm, Option.elim_none, formWord, Nat.add_zero] at hdec

/-- The same of a command with one register and an immediate (format I). -/
theorem decode_immWord (rd : Reg) (imm : Word16) (hops : i.operands = ⟨none, [rd], some imm⟩) :
    decode (BitVec.ofNat 32 (op * 2 ^ 26 + rd.val * 2 ^ 21 + imm.toNat)) = .ok i := by
  have hdec := decode_formWord_operands i op hop
  simpa only [hops, formWord, Operands.widthNat, Operands.immNat, Option.elim, packRegs, Nat.zero_mul,
    Nat.mul_zero, Nat.sub_zero, Nat.add_zero] using hdec

end Encodings

/-! ### Outcome and accesses -/

/-- A command for which no error is listed completes with its effect. -/
theorem exec_ok (i : Instr) (s : State) (h : errorOf Config.std i s = none) :
    exec i s = .next (advance (effectOf Config.std i s)) := by
  rw [exec_eq_execIn]
  exact execIn_ok Config.std i s h

theorem accesses_of_ok (cfg : Config) (i : Instr) (s : State) (h : errorOf cfg i s = none) :
    accesses cfg i s = listedAccesses i s := by
  rw [accesses_eq_listed, if_pos h]

/-- Every command records the error listed for it and touches no byte of `MEM` (60_exceptions.md R203). -/
theorem failsAsListed (i : Instr) (s : State) : FailsAsListed i s := by
  intro code info h
  constructor
  · rw [exec_eq_execIn]
    exact execIn_error Config.std i s code info h
  · rw [accesses_eq_listed, if_neg (by rw [h]; exact Option.some_ne_none _)]

/-- A command without checks and accesses whose effect is one register write computes the value written. -/
theorem computes_of_setReg (i : Instr) (s : State) (rd : Reg) (v : Word64)
    (herr : errorOf Config.std i s = none) (hacc : listedAccesses i s = [])
    (heff : effectOf Config.std i s = setReg s rd v) : Computes i s rd v.toNat := by
  refine ⟨⟨_, exec_ok i s herr, ?_, ?_⟩, (accesses_of_ok Config.std i s herr).trans hacc⟩
  · rw [heff]
    exact onlyReg_setReg rd s v
  · rw [natReg, getReg_advance, heff, getReg_setReg_same]

/-- A nonempty range that reaches past the end of `MEM` is an `AccessFault` (60_exceptions.md R202). -/
theorem rangeError_beyond (cfg : Config) (a : Word64) (n : Nat) (hn : n ≠ 0)
    (h : cfg.memSize < a.toNat + n) : rangeError cfg a n = some (4, a) :=
  if_pos ⟨hn, h⟩

end Sys2Proof.Machine
end

section
/-! The support commands and the hints (spec/40_host_commands.md R90 to R95,
spec/43_branchless_select.md R128, R129). -/

namespace Sys2Proof.Machine

/-! ### `LD` and `ST` -/

theorem onlyReg_loadEffect (w : Width) (rd ra : Reg) (s : State) :
    OnlyReg rd s (advance (loadEffect w rd ra s)) := onlyReg_setReg rd s _

theorem onlyMem_storeEffect (w : Width) (rs ra : Reg) (s : State) :
    OnlyMem s (advance (storeEffect w rs ra s)) := ⟨⟨rfl, rfl, rfl, rfl, rfl, rfl, rfl⟩, rfl⟩

/-- Byte `j` of a store is digit `j` of the stored number, counted from the most significant (R94). -/
theorem memGet_storeEffect_inside (w : Width) (rs ra : Reg) (s : State) (j : Nat) (hj : j < wBytes w) :
    memGet (storeEffect w rs ra s).mem (natReg s ra + j) =
      BitVec.ofNat 8 (natReg s rs % 2 ^ wBits w / 256 ^ (wBytes w - 1 - j)) := by
  rw [storeEffect_mem, memGet_memWrite_inside _ _ _ _ (by rwa [beBytes_length]), beBytes_getD _ _ _ hj]

theorem memGet_storeEffect_outside (w : Width) (rs ra : Reg) (s : State) (a : Nat)
    (ha : a < natReg s ra ∨ natReg s ra + wBytes w ≤ a) :
    memGet (storeEffect w rs ra s).mem a = memGet s.mem a := by
  rw [storeEffect_mem, memGet_memWrite_outside _ _ _ _ (by rwa [beBytes_length])]

/-! ### Settled -/

/-- Settles O22: the two clauses split at the end of `MEM`; inside, the load is a register write of the
bytes read, beyond it the listed error is recorded. -/
theorem loadReadsBigEndian : Obligations.LoadReadsBigEndian := by
  intro w rd ra s
  refine ⟨encodes_of_operands (.ld w rd ra) 0x03 rfl [rd, ra] rfl rfl, fun hin => ?_, fun hout => ?_⟩
  · have hok : errorOf Config.std (.ld w rd ra) s = none := (rangeError_none _ _ _).mpr (.inr hin)
    exact ⟨⟨_, exec_ld_ok w rd ra s hin, onlyReg_loadEffect w rd ra s, natReg_loadEffect w rd ra s⟩,
      accesses_of_ok _ _ s hok⟩
  · exact failsAsListed (.ld w rd ra) s 4 _ (rangeError_beyond _ _ _ (wBytes_pos w).ne' hout)

/-- Settles O23: the two clauses split at the end of `MEM`; inside, the store is a write of the digits of
the number, beyond it the listed error is recorded. -/
theorem storeWritesBigEndian : Obligations.StoreWritesBigEndian := by
  intro w rs ra s
  refine ⟨encodes_of_operands (.st w rs ra) 0x04 rfl [rs, ra] rfl rfl, fun hin => ?_, fun hout => ?_⟩
  · have hok : errorOf Config.std (.st w rs ra) s = none := (rangeError_none _ _ _).mpr (.inr hin)
    exact ⟨⟨_, exec_st_ok w rs ra s hin, onlyMem_storeEffect w rs ra s,
      memGet_storeEffect_inside w rs ra s, memGet_storeEffect_outside w rs ra s⟩, accesses_of_ok _ _ s hok⟩
  · exact failsAsListed (.st w rs ra) s 4 _ (rangeError_beyond _ _ _ (wBytes_pos w).ne' hout)

/-- Settles O20: the effect of each of the three is the state itself. -/
theorem nopAndHints : Obligations.NopAndHints := by
  intro s ra rn
  refine ⟨encodes_of_operands .nop 0x00 rfl [] rfl rfl, encodes_of_operands (.poison ra rn) 0x1E rfl [ra, rn] rfl rfl,
    encodes_of_operands (.unpoison ra rn) 0x1F rfl [ra, rn] rfl rfl, fun i hi => ?_⟩
  obtain rfl | rfl | rfl := hi
  all_goals exact ⟨exec_ok _ s rfl, accesses_of_ok _ _ s rfl⟩

/-- Settles O21: both are one register write, LDIS of the value with the immediate shifted in. -/
theorem loadImmediates : Obligations.LoadImmediates := by
  intro s rd imm
  refine ⟨decode_immWord (.ldi rd imm) 0x01 rfl rd imm rfl, decode_immWord (.ldis rd imm) 0x02 rfl rd imm rfl, ?_, ?_⟩
  · have hval : (zext64 imm).toNat = imm.toNat := zext64_toNat .w16 imm
    exact hval ▸ computes_of_setReg (.ldi rd imm) s rd (zext64 imm) rfl rfl rfl
  · have hval : (zext64 (shiftIn (getReg s rd) imm)).toNat = (natReg s rd * 2 ^ 16 + imm.toNat) % 2 ^ 64 :=
      (zext64_toNat .w64 _).trans (shiftIn_toNat _ _)
    exact hval ▸ computes_of_setReg (.ldis rd imm) s rd _ rfl rfl rfl

/-- Settles O25: the effect writes `ERR`, `EPC` and `EINFO`, and `ERR` is the bits of `STATUS` below 3. -/
theorem clearErrorAcknowledges : Obligations.ClearErrorAcknowledges := fun s =>
  ⟨encodes_of_operands .clrerr 0x05 rfl [] rfl rfl,
    ⟨_, exec_ok .clrerr s rfl, statusErr_setStatusErr s.status 0, rfl, rfl,
      setStatusErr_high s.status 0, rfl⟩,
    accesses_of_ok _ _ s rfl⟩

end Sys2Proof.Machine
end

section
/-! Mask generation (spec/41_constant_time_mask_gen.md R100 to R103). -/

namespace Sys2Proof.Machine

/-! ### The folding datapath -/

theorem ne_zero_iff_exists_bit {n : Nat} (v : BitVec n) : v ≠ 0#n ↔ ∃ j, v.getLsbD j = true := by
  rw [ne_eq, BitVec.zero_iff_eq_false, not_forall]
  simp only [Bool.not_eq_false]

/-- Once every bit is folded into the bits above it, the top bit tells whether any bit is set. -/
theorem msb_iff_of_folded {n : Nat} (hn : 0 < n) (v r : BitVec n) (h : Folded v r n) :
    r.msb = true ↔ v ≠ 0#n := by
  rw [BitVec.msb_eq_getLsbD_last, h (n - 1) (by omega), ne_zero_iff_exists_bit]
  refine exists_congr fun j => ⟨fun ⟨_, _, hj⟩ => hj, fun hj => ?_⟩
  have hlt : j < n := BitVec.lt_of_getLsbD hj
  exact ⟨by omega, by omega, hj⟩

theorem expandTopBit_of_folded {n : Nat} (hn : 0 < n) (v r : BitVec n) (h : Folded v r n) :
    expandTopBit r = expandMask v := by
  unfold expandTopBit expandMask
  simp only [msb_iff_of_folded hn v r h, ite_not]

/-! ### The masks as numbers -/

theorem isZeroMask_toNat {n : Nat} (v : BitVec n) :
    (isZeroMask v).toNat = if v.toNat = 0 then 2 ^ n - 1 else 0 := by
  rw [isZeroMask_eq, allOnes_mask_toNat]
  simp only [← BitVec.toNat_inj, BitVec.toNat_ofNat, Nat.zero_mod]

/-- `expand_top_bit` by the value of its argument (41 R102). -/
theorem expandTopBit_toNat_of_le {n : Nat} (v : BitVec n) :
    (expandTopBit v).toNat = if 2 ^ (n - 1) ≤ v.toNat then 2 ^ n - 1 else 0 := by
  rw [expandTopBit_toNat, BitVec.msb_eq_decide]
  simp only [decide_eq_true_eq]

/-- A command without checks and accesses whose effect is to write a `W`-bit value zero-extended computes
the number of that value. -/
theorem computes_of_zext64 (i : Instr) (s : State) (rd : Reg) (w : Width) (v : BitVec (wBits w))
    (herr : errorOf Config.std i s = none) (hacc : listedAccesses i s = [])
    (heff : effectOf Config.std i s = setReg s rd (zext64 v)) : Computes i s rd v.toNat :=
  zext64_toNat w v ▸ computes_of_setReg i s rd (zext64 v) herr hacc heff

theorem computes_expmask (w : Width) (rd rs : Reg) (s : State) :
    Computes (.expmask w rd rs) s rd (if natReg s rs % 2 ^ wBits w = 0 then 0 else 2 ^ wBits w - 1) := by
  rw [natReg, ← xw_toNat, ← expandMask_toNat]
  exact computes_of_zext64 _ s rd w _ rfl rfl rfl

theorem computes_exptop (w : Width) (rd rs : Reg) (s : State) :
    Computes (.exptop w rd rs) s rd
      (if 2 ^ (wBits w - 1) ≤ natReg s rs % 2 ^ wBits w then 2 ^ wBits w - 1 else 0) := by
  rw [natReg, ← xw_toNat, ← expandTopBit_toNat_of_le]
  exact computes_of_zext64 _ s rd w _ rfl rfl rfl

theorem computes_iszero (w : Width) (rd rs : Reg) (s : State) :
    Computes (.iszero w rd rs) s rd (if natReg s rs % 2 ^ wBits w = 0 then 2 ^ wBits w - 1 else 0) := by
  rw [natReg, ← xw_toNat, ← isZeroMask_toNat]
  exact computes_of_zext64 _ s rd w _ rfl rfl rfl

/-! ### Settled -/

/-- Settles O26: each command is one register write of a mask, taken by its value as a number. -/
theorem maskGeneration : Obligations.MaskGeneration := fun w rd rs s =>
  ⟨encodes_of_operands (.expmask w rd rs) 0x10 rfl [rd, rs] rfl rfl,
    encodes_of_operands (.exptop w rd rs) 0x11 rfl [rd, rs] rfl rfl,
    encodes_of_operands (.iszero w rd rs) 0x12 rfl [rd, rs] rfl rfl,
    computes_expmask w rd rs s, computes_exptop w rd rs s, computes_iszero w rd rs s⟩

/-- Settles O27: the shifts of every width fold all `W` bits into the top bit. -/
theorem foldMeetsContract : Obligations.FoldMeetsContract := fun w v =>
  have hpos : 0 < wBits w := by cases w <;> decide
  expandTopBit_of_folded hpos v _ (folded_shifts w v)

end Sys2Proof.Machine
end

section
/-! Branchless comparison (spec/42_branchless_compare.md R110 to R114). -/

namespace Sys2Proof.Machine

theorem wBits_pos (w : Width) : 0 < wBits w := by
  rw [wBits_eq]
  exact Nat.mul_pos (by decide) (wBytes_pos w)

/-- Equality of two values as equality of their numbers, the form of `isLessMask_eq` and `isLteMask_eq`. -/
theorem isEqualMask_eq_toNat {n : Nat} (a b : BitVec n) :
    isEqualMask a b = if a.toNat = b.toNat then BitVec.allOnes n else 0#n :=
  (isEqualMask_eq a b).trans (if_congr BitVec.toNat_inj.symm rfl rfl)

/-! ### The commands -/

theorem computes_iseq (w : Width) (rd ra rb : Reg) (s : State) :
    Computes (.iseq w rd ra rb) s rd
      (if natReg s ra % 2 ^ wBits w = natReg s rb % 2 ^ wBits w then 2 ^ wBits w - 1 else 0) := by
  rw [natReg, natReg, ← xw_toNat, ← xw_toNat, ← allOnes_mask_toNat, ← isEqualMask_eq_toNat]
  exact computes_of_zext64 _ s rd w _ rfl rfl rfl

theorem computes_islt (w : Width) (rd ra rb : Reg) (s : State) :
    Computes (.islt w rd ra rb) s rd
      (if natReg s ra % 2 ^ wBits w < natReg s rb % 2 ^ wBits w then 2 ^ wBits w - 1 else 0) := by
  rw [natReg, natReg, ← xw_toNat, ← xw_toNat, ← allOnes_mask_toNat, ← isLessMask_eq _ _ (wBits_pos w)]
  exact computes_of_zext64 _ s rd w _ rfl rfl rfl

theorem computes_islte (w : Width) (rd ra rb : Reg) (s : State) :
    Computes (.islte w rd ra rb) s rd
      (if natReg s ra % 2 ^ wBits w ≤ natReg s rb % 2 ^ wBits w then 2 ^ wBits w - 1 else 0) := by
  rw [natReg, natReg, ← xw_toNat, ← xw_toNat, ← allOnes_mask_toNat, ← isLteMask_eq _ _ (wBits_pos w)]
  exact computes_of_zext64 _ s rd w _ rfl rfl rfl

/-! ### The laws -/

section Laws
variable {n : Nat} (a b : BitVec n)

/-- `is_zero` is comparison with 0 for equality (41 R103, 42 R111). -/
theorem isZeroMask_eq_isEqualMask : isZeroMask a = isEqualMask a 0#n := by
  rw [isZeroMask_eq, isEqualMask_eq]

variable (hn : 0 < n)
include hn

/-- Each of the three comparisons of a pair by the one relation of its numbers that holds. -/
theorem compareMasks_trichotomy :
    (isLessMask a b = BitVec.allOnes n ∧ isEqualMask a b = 0#n ∧ isLessMask b a = 0#n) ∨
      (isLessMask a b = 0#n ∧ isEqualMask a b = BitVec.allOnes n ∧ isLessMask b a = 0#n) ∨
      (isLessMask a b = 0#n ∧ isEqualMask a b = 0#n ∧ isLessMask b a = BitVec.allOnes n) := by
  rw [isLessMask_eq a b hn, isLessMask_eq b a hn, isEqualMask_eq_toNat]
  obtain hlt | heq | hgt := Nat.lt_trichotomy a.toNat b.toNat
  · exact .inl ⟨if_pos hlt, if_neg hlt.ne, if_neg hlt.asymm⟩
  · exact .inr (.inl ⟨if_neg heq.not_lt, if_pos heq, if_neg heq.not_gt⟩)
  · exact .inr (.inr ⟨if_neg hgt.asymm, if_neg hgt.ne', if_pos hgt⟩)

theorem isLteMask_eq_not_isLessMask : isLteMask a b = ~~~ isLessMask b a := by
  rw [isLteMask_eq a b hn, isLessMask_eq b a hn, apply_ite (~~~ ·), BitVec.not_allOnes, BitVec.not_zero,
    ← ite_not]
  exact if_congr Nat.not_le rfl rfl

/-- No number is below 0. -/
theorem isZeroMask_eq_isLteMask : isZeroMask a = isLteMask a 0#n := by
  rw [isZeroMask_eq_isEqualMask, isEqualMask_eq_toNat, isLteMask_eq a _ hn]
  exact if_congr Nat.le_zero.symm rfl rfl

theorem expandMask_eq_isLessMask : expandMask a = isLessMask 0#n a := by
  rw [← BitVec.not_inj, ← isLteMask_eq_not_isLessMask a _ hn]
  exact isZeroMask_eq_isLteMask a hn

end Laws

/-! ### Settled -/

/-- Settles O28: each command is one register write of a mask, taken by the comparison of the numbers of the
low `W` bits. -/
theorem unsignedComparison : Obligations.UnsignedComparison := fun w rd ra rb s =>
  ⟨encodes_of_operands (.iseq w rd ra rb) 0x14 rfl [rd, ra, rb] rfl rfl,
    encodes_of_operands (.islt w rd ra rb) 0x15 rfl [rd, ra, rb] rfl rfl,
    encodes_of_operands (.islte w rd ra rb) 0x16 rfl [rd, ra, rb] rfl rfl,
    computes_iseq w rd ra rb s, computes_islt w rd ra rb s, computes_islte w rd ra rb s⟩

/-- Settles O29: the laws hold at every positive width. -/
theorem comparisonLaws : Obligations.ComparisonLaws := fun w a b =>
  have hpos : 0 < wBits w := wBits_pos w
  ⟨compareMasks_trichotomy a b hpos, isLteMask_eq_not_isLessMask a b hpos, isZeroMask_eq_isEqualMask a,
    isZeroMask_eq_isLteMask a hpos, expandMask_eq_isLessMask a hpos⟩

end Sys2Proof.Machine
end

section
/-! Branchless selection: the bitwise multiplexers, CCOPY and CZERO (spec/43_branchless_select.md R121
to R127). -/

namespace Sys2Proof.Machine

/-! ### `SEL`, `SEL2` and `SEL3` -/

/-- A selection whose last operand is a `W`-bit value of bits `b` is again such a value, so selections nest. -/
theorem selectMask_xw_bit (w : Width) (s : State) (rm rv : Reg) (f : BitVec (wBits w)) (k : Nat) (b : Bool)
    (hf : f.getLsbD k = (decide (k < wBits w) && b)) :
    (selectMask (xw w s rm) (xw w s rv) f).getLsbD k =
      (decide (k < wBits w) && if (getReg s rm).getLsbD k then (getReg s rv).getLsbD k else b) := by
  rw [selectMask_getLsbD, xw_bit, xw_bit, hf]
  by_cases hk : k < wBits w
  · simp only [hk, decide_true, Bool.true_and]
  · simp only [hk, decide_false, Bool.false_and, ite_self]

/-- A command without checks whose effect is to write a `W`-bit value zero-extended leaves the bits of that
value in the register and changes nothing else. -/
theorem completes_of_zext64 (i : Instr) (s : State) (rd : Reg) (w : Width) (v : BitVec (wBits w)) (b : Nat → Bool)
    (herr : errorOf Config.std i s = none) (heff : effectOf Config.std i s = setReg s rd (zext64 v))
    (hbits : ∀ k, v.getLsbD k = b k) :
    ∃ t, exec i s = .next t ∧ OnlyReg rd s t ∧ ∀ k, (getReg t rd).getLsbD k = b k := by
  refine ⟨_, exec_ok i s herr, heff ▸ onlyReg_setReg rd s _, fun k => ?_⟩
  rw [getReg_advance, heff, getReg_setReg_same, zext_bit, hbits]

/-! ### `CCOPY` and `CZERO` -/

/-- A command whose effect is a new memory changes nothing else but the counter. -/
theorem onlyMem_advance (s : State) (m : Memory) : OnlyMem s (advance { s with mem := m }) :=
  ⟨⟨rfl, rfl, rfl, rfl, rfl, rfl, rfl⟩, rfl⟩

/-- CCOPY raises no error exactly when its three ranges fit (60_exceptions.md R202). -/
theorem errorOf_ccopy_eq_none_iff (cfg : Config) (w : Width) (rc rto rf0 rf1 rn : Reg) (s : State) :
    errorOf cfg (.ccopy w rc rto rf0 rf1 rn) s = none ↔
      Fits cfg (natReg s rto) (natReg s rn * wBytes w) ∧ Fits cfg (natReg s rf0) (natReg s rn * wBytes w) ∧
        Fits cfg (natReg s rf1) (natReg s rn * wBytes w) := by
  simp only [errorOf, Option.or_eq_none_iff, rangeError_none, natReg, and_assoc]

/-- What CCOPY leaves in `MEM`, by the register of the source its condition picks (43 R126). -/
theorem ccopyEnd_mem_of_src (w : Width) (rc rto rf0 rf1 rn src : Reg) (s : State)
    (hsrc : src = if natReg s rc % 2 ^ wBits w = 0 then rf1 else rf0) :
    (ccopyEnd w rc rto rf0 rf1 rn s).mem = (List.range (natReg s rn)).foldl
      (fun m j => memWrite m (natReg s rto + j * wBytes w)
        (memRead m (natReg s src + j * wBytes w) (wBytes w))) s.mem := by
  rw [ccopyEnd_mem, hsrc, apply_ite (natReg s)]

/-! ### Settled -/

/-- Settles O30: SEL is one register write of a selection, taken bit by bit. -/
theorem selectIsMultiplexer : Obligations.SelectIsMultiplexer := fun w rd rm rt rf s =>
  ⟨encodes_of_operands (.sel w rd rm rt rf) 0x18 rfl [rd, rm, rt, rf] rfl rfl,
    completes_of_zext64 _ s rd w _ _ rfl rfl fun k => selectMask_xw_bit w s rm rt _ k _ (xw_bit w s rf k),
    accesses_of_ok _ _ s rfl⟩

/-- Settles O31: a selection as the last operand of a selection decides only the bits its mask leaves. -/
theorem nestedSelectFirstMaskWins : Obligations.NestedSelectFirstMaskWins := by
  intro w rd rm0 rv0 rm1 rv1 rm2 rv2 ro s
  refine ⟨encodes_of_operands (.sel2 w rd rm0 rv0 rm1 rv1 ro) 0x19 rfl [rd, rm0, rv0, rm1, rv1, ro] rfl rfl,
    encodes_of_operands (.sel3 w rd rm0 rv0 rm1 rv1 rm2 rv2 ro) 0x1A rfl
      [rd, rm0, rv0, rm1, rv1, rm2, rv2, ro] rfl rfl,
    completes_of_zext64 _ s rd w _ _ rfl rfl fun k => ?_,
    completes_of_zext64 _ s rd w _ _ rfl rfl fun k => ?_,
    accesses_of_ok _ _ s rfl, accesses_of_ok _ _ s rfl⟩
  · exact selectMask_xw_bit w s rm0 rv0 _ k _ (selectMask_xw_bit w s rm1 rv1 _ k _ (xw_bit w s ro k))
  · exact selectMask_xw_bit w s rm0 rv0 _ k _ (selectMask_xw_bit w s rm1 rv1 _ k _
      (selectMask_xw_bit w s rm2 rv2 _ k _ (xw_bit w s ro k)))

/-- Settles O32: the elements in order are a plain copy of units from the source picked, which copies the
buffer whole where it does not run over that source. -/
theorem conditionalCopy : Obligations.ConditionalCopy := by
  intro w rc rto rf0 rf1 rn src s hsrc
  refine ⟨encodes_of_operands (.ccopy w rc rto rf0 rf1 rn) 0x1B rfl [rc, rto, rf0, rf1, rn] rfl rfl,
    fun hto hf0 hf1 => ?_, failsAsListed _ s⟩
  have hok := (errorOf_ccopy_eq_none_iff Config.std w rc rto rf0 rf1 rn s).mpr ⟨hto, hf0, hf1⟩
  have hmem := ccopyEnd_mem_of_src w rc rto rf0 rf1 rn src s hsrc
  refine ⟨_, exec_ok _ s hok, onlyMem_advance s _, hmem, fun hsafe a => ?_, accesses_of_ok _ _ s hok⟩
  exact (congrArg (memGet · a) hmem).trans
    (copyUnits_memGet (wBytes w) (wBytes_pos w) (natReg s src) (natReg s rto) (natReg s rn) s.mem hsafe a)

/-- Settles O33: every element of the buffer is written, with zeros or with the bytes it held. -/
theorem conditionalZero : Obligations.ConditionalZero := by
  intro w rc ra rn s
  refine ⟨encodes_of_operands (.czero w rc ra rn) 0x1C rfl [rc, ra, rn] rfl rfl, fun hfit => ?_, failsAsListed _ s⟩
  have hok : errorOf Config.std (.czero w rc ra rn) s = none := (rangeError_none _ _ _).mpr hfit
  exact ⟨⟨_, exec_ok _ s hok, onlyMem_advance s _, czeroEnd_memGet w rc ra rn s⟩, accesses_of_ok _ _ s hok⟩

end Sys2Proof.Machine
end

section
/-! Leading-zero stripping (spec/44_leading_zero_strip.md R141, R142). -/

namespace Sys2Proof.Machine

/-! ### Leading zero bytes of a buffer -/

/-- The number of leading zero bytes of the `n` bytes at `a`, which the scan of STRIPLZ counts
(`stripScan_lz`). -/
def leadingZeros (m : Memory) (a n : Nat) : Nat := ((memRead m a n).takeWhile (· == 0#8)).length

theorem leadingZeros_succ (m : Memory) (a n : Nat) :
    leadingZeros m a (n + 1) = if memGet m a = 0 then leadingZeros m (a + 1) n + 1 else 0 := by
  rw [leadingZeros, memRead, List.takeWhile_cons, apply_ite List.length]
  exact if_congr beq_iff_eq rfl rfl

theorem leadingZeros_le (m : Memory) (a n : Nat) : leadingZeros m a n ≤ n :=
  (List.takeWhile_sublist _).length_le.trans_eq (memRead_length m a n)

theorem memGet_of_lt_leadingZeros (m : Memory) (a n j : Nat) (hj : j < leadingZeros m a n) :
    memGet m (a + j) = 0 := by
  induction n generalizing a j with
  | zero => exact absurd hj (Nat.not_lt_zero j)
  | succ n ih =>
    rw [leadingZeros_succ] at hj
    split at hj
    next hz =>
      cases j with
      | zero => exact hz
      | succ j =>
        rw [Nat.add_comm j 1, ← Nat.add_assoc]
        exact ih (a + 1) j (Nat.lt_of_succ_lt_succ hj)
    next => exact absurd hj (Nat.not_lt_zero j)

/-- The byte after the leading zeros, where the buffer has one, is not zero. -/
theorem memGet_add_leadingZeros_ne_zero (m : Memory) (a n : Nat) (h : leadingZeros m a n < n) :
    memGet m (a + leadingZeros m a n) ≠ 0 := by
  induction n generalizing a with
  | zero => exact absurd h (Nat.not_lt_zero _)
  | succ n ih =>
    rw [leadingZeros_succ] at h ⊢
    split at h
    next hz =>
      rw [if_pos hz, Nat.add_comm _ 1, ← Nat.add_assoc]
      exact ih (a + 1) (Nat.lt_of_succ_lt_succ h)
    next hz => rwa [if_neg hz]

theorem leadingZeros_eq_length_iff (m : Memory) (a n : Nat) :
    leadingZeros m a n = n ↔ ∀ j, j < n → memGet m (a + j) = 0 := by
  constructor
  · intro h j hj
    exact memGet_of_lt_leadingZeros m a n j (hj.trans_eq h.symm)
  · intro h
    refine (leadingZeros_le m a n).antisymm (Nat.le_of_not_lt fun hlt => ?_)
    exact memGet_add_leadingZeros_ne_zero m a n hlt (h _ hlt)

/-- A stripped buffer has no leading zeros left. -/
theorem leadingZeros_stripped (m : Memory) (a n : Nat) :
    leadingZeros m (a + leadingZeros m a n) (n - leadingZeros m a n) = 0 := by
  refine Nat.eq_zero_of_not_pos fun hpos => ?_
  have hlt : leadingZeros m a n < n := Nat.lt_of_sub_pos (hpos.trans_le (leadingZeros_le m _ _))
  exact memGet_add_leadingZeros_ne_zero m a n hlt (memGet_of_lt_leadingZeros m _ _ 0 hpos)

/-! ### The effect of `STRIPLZ` -/

theorem stripEnd_lz (ra rn : Reg) (s : State) :
    (stripEnd ra rn s).lz = leadingZeros s.mem (natReg s ra) (natReg s rn) := stripScan_lz _ _ _

/-- The length register is written last, so it holds the length also where it is the address register. -/
theorem natReg_stripEffect_length (rd rl ra rn : Reg) (s : State) :
    natReg (stripEffect rd rl ra rn s) rl =
      natReg s rn - leadingZeros s.mem (natReg s ra) (natReg s rn) := by
  rw [natReg, stripEffect, getReg_setReg_same, stripEnd_lz, BitVec.toNat_ofNat]
  exact Nat.mod_eq_of_lt ((Nat.sub_le _ _).trans_lt (getReg s rn).isLt)

theorem natReg_stripEffect_address (rd rl ra rn : Reg) (s : State) (hne : rd ≠ rl) :
    natReg (stripEffect rd rl ra rn s) rd =
      (natReg s ra + leadingZeros s.mem (natReg s ra) (natReg s rn)) % 2 ^ 64 := by
  rw [natReg, stripEffect, getReg_setReg_other _ rl rd _ hne, getReg_setReg_same, stripEnd_lz,
    BitVec.toNat_ofNat]

theorem errorOf_striplz_eq_none_iff (cfg : Config) (rd rl ra rn : Reg) (s : State) :
    errorOf cfg (.striplz rd rl ra rn) s = none ↔ Fits cfg (natReg s ra) (natReg s rn) :=
  rangeError_none _ _ _

/-- The end of a part of a range that fits does not wrap around. -/
theorem add_mod_of_fits (a : Word64) (n k : Nat) (hfit : Fits Config.std a.toNat n) (hk : k ≤ n) :
    (a.toNat + k) % 2 ^ 64 = a.toNat + k := by
  have ha := a.isLt
  have hsize : Config.std.memSize = 65536 := rfl
  apply Nat.mod_eq_of_lt
  rcases hfit with hn | hin <;> omega

/-- STRIPLZ with two result registers returns the pair of R141, without wrap-around, and keeps `MEM`. -/
theorem exec_striplz_pair (rd rl ra rn : Reg) (s : State) (hne : rd ≠ rl)
    (hfit : Fits Config.std (natReg s ra) (natReg s rn)) :
    ∃ t, exec (.striplz rd rl ra rn) s = .next t ∧ t.mem = s.mem ∧
      natReg t rd = natReg s ra + leadingZeros s.mem (natReg s ra) (natReg s rn) ∧
      natReg t rl = natReg s rn - leadingZeros s.mem (natReg s ra) (natReg s rn) := by
  refine ⟨_, exec_ok _ s ((errorOf_striplz_eq_none_iff _ rd rl ra rn s).mpr hfit), rfl, ?_,
    natReg_stripEffect_length rd rl ra rn s⟩
  exact (natReg_stripEffect_address rd rl ra rn s hne).trans
    (add_mod_of_fits _ _ _ hfit (leadingZeros_le _ _ _))

/-! ### Settled -/

/-- Settles O34: the effect is two register writes of the scan's count, the length last, and the accesses are
those listed for every command without an error. -/
theorem stripLeadingZeros : Obligations.StripLeadingZeros := by
  rintro rd rl ra rn s _ rfl
  refine ⟨encodes_of_operands (.striplz rd rl ra rn) 0x1D rfl [rd, rl, ra, rn] rfl rfl, fun hfit => ?_,
    failsAsListed _ s⟩
  have hok := (errorOf_striplz_eq_none_iff Config.std rd rl ra rn s).mpr hfit
  have hframe : ∀ q, q ≠ rd → q ≠ rl → getReg (stripEffect rd rl ra rn s) q = getReg s q :=
    fun q hd hl => getReg_effectOf Config.std (.striplz rd rl ra rn) s q (by simp [destRegs, hd, hl])
  exact ⟨⟨_, exec_ok _ s hok, ⟨rfl, rfl, rfl, rfl, rfl, rfl, rfl⟩, rfl,
    natReg_stripEffect_address rd rl ra rn s, natReg_stripEffect_length rd rl ra rn s, hframe⟩,
    accesses_of_ok _ _ s hok⟩

/-- Settles O35: each law is one of the count of leading zeros; the second STRIPLZ starts at a byte that is not
zero, or at the end of the buffer, and counts none. -/
theorem stripLaws : Obligations.StripLaws := by
  intro rd rl ra rn rd' rl' s hne hne' hfit
  obtain ⟨t, ht, hmem, hp, hl⟩ := exec_striplz_pair rd rl ra rn s hne hfit
  have hle := leadingZeros_le s.mem (natReg s ra) (natReg s rn)
  have hstripped := leadingZeros_stripped s.mem (natReg s ra) (natReg s rn)
  have hall := leadingZeros_eq_length_iff s.mem (natReg s ra) (natReg s rn)
  have hfirst := memGet_add_leadingZeros_ne_zero s.mem (natReg s ra) (natReg s rn)
  have hzeros := memGet_of_lt_leadingZeros s.mem (natReg s ra) (natReg s rn)
  generalize leadingZeros s.mem (natReg s ra) (natReg s rn) = lz at hp hl hle hstripped hall hfirst hzeros
  have hsum : natReg t rd + natReg t rl = natReg s ra + natReg s rn := by omega
  have hfit' : Fits Config.std (natReg t rd) (natReg t rl) := by
    rcases hfit with hn | hin
    · exact .inl (by omega)
    · exact .inr (hsum ▸ hin)
  obtain ⟨u, hu, -, hp', hl'⟩ := exec_striplz_pair rd' rl' rd rl t hne' hfit'
  rw [← hp, ← hl, ← hmem] at hstripped
  rw [hstripped] at hp' hl'
  refine ⟨t, u, ht, hu, hsum, by omega, ?_, fun hpos => ?_, fun a ha hap => ?_, hp', hl'⟩
  · rw [← hall]
    omega
  · exact hp ▸ hfirst (by omega)
  · have hbyte := hzeros (a - natReg s ra) (by omega)
    rwa [Nat.add_sub_cancel' ha] at hbyte

end Sys2Proof.Machine
end

section
/-! The multiplication of IDEA and its inverse: the words with `mul` are the multiplicative group of the
field of 65537 elements, and the branchless datapath computes the product (spec/45_idea.md R153, R154). -/

namespace Sys2Proof.Machine

/-! ### The group of words -/

theorem mulMod_comm (a b : Word16) : mulMod a b = mulMod b a := by
  rw [mulMod, mulMod, Nat.mul_comm]

theorem mulMod_assoc (a b c : Word16) : mulMod (mulMod a b) c = mulMod a (mulMod b c) :=
  fieldOf_inj _ _ (by simp only [fieldOf_mulMod, mul_assoc])

theorem mulMod_one (a : Word16) : mulMod a 1 = a :=
  fieldOf_inj _ _ ((fieldOf_mulMod a 1).trans ((congrArg _ fieldOf_one).trans (mul_one _)))

/-- By Fermat, `a^65536 = 1`. -/
theorem mulMod_invMod (a : Word16) : mulMod a (invMod a) = 1 := by
  have : Fact (Nat.Prime 65537) := ⟨prime_65537⟩
  have hfermat : fieldOf a ^ 65536 = 1 := ZMod.pow_card_sub_one_eq_one (fieldOf_ne_zero a)
  apply fieldOf_inj
  rw [fieldOf_mulMod, fieldOf_invMod_pow, ← pow_succ', hfermat]
  exact fieldOf_one.symm

theorem mulMod_mulMod_invMod (a b : Word16) : mulMod (mulMod a b) (invMod b) = a := by
  rw [mulMod_assoc, mulMod_invMod, mulMod_one]

/-- The inverse is unique: `y = y * a * inv(a)`. -/
theorem eq_invMod_of_mulMod_eq_one (a y : Word16) (h : mulMod a y = 1) : y = invMod a := by
  rw [← mulMod_mulMod_invMod y a, mulMod_comm y a, h, mulMod_comm, mulMod_one]

theorem invMod_invMod (a : Word16) : invMod (invMod a) = a :=
  (eq_invMod_of_mulMod_eq_one (invMod a) a ((mulMod_comm _ _).trans (mulMod_invMod a))).symm

/-! ### The branchless datapath -/

/-- The 32-bit product of the datapath. -/
def wideProduct (a b : Word16) : Word32 := a.setWidth 32 * b.setWidth 32

theorem wideProduct_toNat (a b : Word16) : (wideProduct a b).toNat = a.toNat * b.toNat := by
  have hlt : a.toNat * b.toNat < 2 ^ 16 * 2 ^ 16 := Nat.mul_lt_mul'' a.isLt b.isLt
  rw [wideProduct, BitVec.toNat_mul, BitVec.toNat_setWidth_of_le (by decide),
    BitVec.toNat_setWidth_of_le (by decide)]
  exact Nat.mod_eq_of_lt hlt

theorem wideProduct_eq_zero_iff (a b : Word16) : wideProduct a b = 0 ↔ a = 0 ∨ b = 0 := by
  rw [← BitVec.toNat_inj, wideProduct_toNat, ← BitVec.toNat_inj, ← BitVec.toNat_inj]
  exact Nat.mul_eq_zero

/-- `lo - hi`, plus 1 where that borrows. -/
def foldHalves (p : Word32) : Word16 :=
  let hi := p.extractLsb' 16 16
  let lo := p.extractLsb' 0 16
  lo - hi + (isLessMask lo hi &&& 1#16)

/-- The datapath picks one of two results, by whether the product is zero. -/
theorem mulBranchless_eq (a b : Word16) : mulBranchless a b =
    if wideProduct a b = 0 then 1#16 - a - b else foldHalves (wideProduct a b) := by
  have hmask : (expandMask (wideProduct a b)).extractLsb' 0 16 =
      if wideProduct a b = 0 then 0#16 else BitVec.allOnes 16 :=
    apply_ite (BitVec.extractLsb' 0 16) _ 0#32 (BitVec.allOnes 32)
  have hsel : mulBranchless a b = selectMask ((expandMask (wideProduct a b)).extractLsb' 0 16)
      (foldHalves (wideProduct a b)) (1#16 - a - b) := rfl
  rw [hsel, hmask]
  split
  · exact selectMask_zero _ _
  · exact selectMask_allOnes _ _

/-- Since 65536 is -1 modulo 65537, `hi * 65536 + lo` is `lo - hi`. -/
theorem halves_mod_65537 (hi lo : Nat) (hhi : hi < 65536) (hlo : lo < 65536) :
    (hi * 65536 + lo) % 65537 = if lo < hi then lo + 65537 - hi else lo - hi := by
  split
  · rw [show hi * 65536 + lo = lo + 65537 - hi + 65537 * (hi - 1) by omega, Nat.add_mul_mod_self_left]
    exact Nat.mod_eq_of_lt (by omega)
  · rw [show hi * 65536 + lo = lo - hi + 65537 * hi by omega, Nat.add_mul_mod_self_left]
    exact Nat.mod_eq_of_lt (by omega)

theorem foldHalves_toNat (p : Word32) : (foldHalves p).toNat = p.toNat % 65537 % 65536 := by
  have hp := p.isLt
  have hlo : (p.extractLsb' 0 16).toNat = p.toNat % 65536 := by
    simp [BitVec.extractLsb'_toNat]
  have hhi : (p.extractLsb' 16 16).toNat = p.toNat / 65536 := by
    rw [BitVec.extractLsb'_toNat, Nat.shiftRight_eq_div_pow]
    exact Nat.mod_eq_of_lt (by omega)
  have hmod := halves_mod_65537 (p.toNat / 65536) (p.toNat % 65536) (by omega) (by omega)
  rw [Nat.div_add_mod'] at hmod
  rw [hmod, foldHalves, isLessMask_eq _ _ (by decide), BitVec.toNat_add, BitVec.toNat_sub, hlo, hhi]
  split
  · rw [BitVec.allOnes_and, BitVec.toNat_ofNat]
    omega
  · rw [BitVec.zero_and, BitVec.toNat_ofNat]
    omega

theorem mulMod_toNat (a b : Word16) : (mulMod a b).toNat = mulOperand a * mulOperand b % 65537 % 65536 :=
  BitVec.toNat_ofNat _ _

theorem mulOperand_of_ne_zero (a : Word16) (h : a ≠ 0) : mulOperand a = a.toNat := if_neg h

/-- A factor of 2^16, which is -1: the product is `-b`, written `1 - b` in 16 bits. -/
theorem mulMod_zero_left (b : Word16) : mulMod 0 b = 1#16 - b := by
  by_cases h : b = 0
  · subst h
    rfl
  · have hb := b.isLt
    have hne : b.toNat ≠ 0 := fun e => h (BitVec.eq_of_toNat_eq e)
    have hmod := halves_mod_65537 b.toNat 0 hb (by decide)
    apply BitVec.eq_of_toNat_eq
    rw [mulMod_toNat, mulOperand_of_ne_zero b h, Nat.mul_comm, ← Nat.add_zero (b.toNat * mulOperand 0),
      BitVec.toNat_sub, BitVec.toNat_ofNat]
    exact (congrArg (· % 65536) hmod).trans (by split <;> omega)

/-! ### Settled -/

/-- Settles O36: a zero product means a factor of 2^16, whose product is a negation; any other product is
reduced by subtracting its high half from its low half. -/
theorem branchlessMultiply : Obligations.BranchlessMultiply := by
  intro a b
  rw [mulBranchless_eq]
  by_cases h : wideProduct a b = 0
  · rw [if_pos h]
    obtain rfl | rfl := (wideProduct_eq_zero_iff a b).mp h
    · rw [mulMod_zero_left]
      simp
    · rw [mulMod_comm, mulMod_zero_left]
      simp
  · rw [if_neg h]
    have hne := not_or.mp (mt (wideProduct_eq_zero_iff a b).mpr h)
    apply BitVec.eq_of_toNat_eq
    rw [foldHalves_toNat, wideProduct_toNat, mulMod_toNat, mulOperand_of_ne_zero a hne.1,
      mulOperand_of_ne_zero b hne.2]

/-- Settles O37: the inverse law is Fermat's, and the other two follow from it in a commutative group. -/
theorem multiplicativeInverse : Obligations.MultiplicativeInverse := fun a =>
  ⟨mulMod_invMod a, eq_invMod_of_mulMod_eq_one a, invMod_invMod a⟩

end Sys2Proof.Machine
end

section
/-! The subkey tables: the key bits of the expansion, and the subkeys of an inverted table by round
(spec/45_idea.md R152, R155). -/

namespace Sys2Proof.Machine

/-! ### Expansion -/

/-- Bit `j` after `g` rotations is the bit `25 * g` places below, cyclically. -/
theorem rotatedKey_getLsbD (key : BitVec 128) (g j : Nat) (hg : 25 * g ≤ 2 * 128) (hj : j < 128) :
    (rotatedKey key g).getLsbD j = key.getLsbD ((j + 2 * 128 - 25 * g) % 128) := by
  induction g generalizing j with
  | zero => exact congrArg key.getLsbD (by omega)
  | succ g ih =>
    rw [rotatedKey, BitVec.getLsbD_rotateLeft]
    by_cases h : j < 25
    · simp only [h, Nat.reduceMod, decide_true, cond_true]
      rw [ih _ (by omega) (by omega)]
      exact congrArg key.getLsbD (by omega)
    · simp only [h, hj, Nat.reduceMod, decide_false, decide_true, cond_false, Bool.true_and]
      rw [ih _ (by omega) (by omega)]
      exact congrArg key.getLsbD (by omega)

/-! ### Inversion, round by round -/

section Inverted
variable (ek : SubkeyTable) {r r' : Nat}

theorem subkey_invert_mul_first (h : r + r' = 8) :
    subkey (ideaInvert ek) (6 * r) = invMod (subkey ek (6 * r')) := by
  rw [subkey_invert _ _ (by omega), invertWord]
  simp only [show 6 * r % 6 = 0 by omega, show 48 - 6 * (6 * r / 6) = 6 * r' by omega]

theorem subkey_invert_mul_second (h : r + r' = 8) :
    subkey (ideaInvert ek) (6 * r + 3) = invMod (subkey ek (6 * r' + 3)) := by
  rw [subkey_invert _ _ (by omega), invertWord]
  simp only [show (6 * r + 3) % 6 = 3 by omega, show 48 - 6 * ((6 * r + 3) / 6) = 6 * r' by omega]

/-- The two addition subkeys of a middle group change places, those of the first and last do not. -/
theorem subkey_invert_add_first (h : r + r' = 8) :
    subkey (ideaInvert ek) (6 * r + 1) = -subkey ek (6 * r' + if 1 ≤ r ∧ 1 ≤ r' then 2 else 1) := by
  rw [subkey_invert _ _ (by omega), invertWord]
  simp only [show (6 * r + 1) % 6 = 1 by omega, show (6 * r + 1) / 6 = r by omega,
    show 48 - 6 * r = 6 * r' by omega, show r ≤ 7 ↔ 1 ≤ r' by omega, Bool.and_eq_true,
    decide_eq_true_eq]
  split <;> rfl

theorem subkey_invert_add_second (h : r + r' = 8) :
    subkey (ideaInvert ek) (6 * r + 2) = -subkey ek (6 * r' + if 1 ≤ r ∧ 1 ≤ r' then 1 else 2) := by
  rw [subkey_invert _ _ (by omega), invertWord]
  simp only [show (6 * r + 2) % 6 = 2 by omega, show (6 * r + 2) / 6 = r by omega,
    show 48 - 6 * r = 6 * r' by omega, show r ≤ 7 ↔ 1 ≤ r' by omega, Bool.and_eq_true,
    decide_eq_true_eq]
  split <;> rfl

theorem subkey_invert_mix_first (h : r + r' = 7) :
    subkey (ideaInvert ek) (6 * r + 4) = subkey ek (6 * r' + 4) := by
  rw [subkey_invert _ _ (by omega), invertWord]
  simp only [show (6 * r + 4) % 6 = 4 by omega, show 48 - 6 * ((6 * r + 4) / 6) - 2 = 6 * r' + 4 by omega]

theorem subkey_invert_mix_second (h : r + r' = 7) :
    subkey (ideaInvert ek) (6 * r + 5) = subkey ek (6 * r' + 5) := by
  rw [subkey_invert _ _ (by omega), invertWord]
  simp only [show (6 * r + 5) % 6 = 5 by omega, show 48 - 6 * ((6 * r + 5) / 6) - 1 = 6 * r' + 5 by omega]

end Inverted

/-- Group `r` of the table inverted twice is group `8 - r`, or `7 - r`, inverted once: group `r` again. -/
theorem subkey_invert_invert (ek : SubkeyTable) (r c : Nat) (hc : c < 6) (h : 6 * r + c < 52) :
    subkey (ideaInvert (ideaInvert ek)) (6 * r + c) = subkey ek (6 * r + c) := by
  have h8 : r + (8 - r) = 8 := by omega
  have h8' : 8 - r + r = 8 := by omega
  interval_cases c
  · exact (subkey_invert_mul_first _ h8).trans
      ((congrArg invMod (subkey_invert_mul_first ek h8')).trans (invMod_invMod _))
  ·
    rw [subkey_invert_add_first _ h8]
    split
    · next hm => rw [subkey_invert_add_second _ h8', if_pos hm.symm, neg_neg]
    · next hm => rw [subkey_invert_add_first _ h8', if_neg fun h => hm h.symm, neg_neg]
  ·
    rw [subkey_invert_add_second _ h8]
    split
    · next hm => rw [subkey_invert_add_first _ h8', if_pos hm.symm, neg_neg]
    · next hm => rw [subkey_invert_add_second _ h8', if_neg fun h => hm h.symm, neg_neg]
  · rw [subkey_invert_mul_second _ h8, subkey_invert_mul_second ek h8', invMod_invMod]
  ·
    have h7 : r + (7 - r) = 7 := by omega
    rw [subkey_invert_mix_first _ h7, subkey_invert_mix_first ek ((Nat.add_comm _ _).trans h7)]
  ·
    have h7 : r + (7 - r) = 7 := by omega
    rw [subkey_invert_mix_second _ h7, subkey_invert_mix_second ek ((Nat.add_comm _ _).trans h7)]

theorem ideaInvert_ideaInvert (ek : SubkeyTable) : ideaInvert (ideaInvert ek) = ek :=
  vector_ext_subkey _ _ fun i hi => by
    have hgroup := subkey_invert_invert ek (i / 6) (i % 6) (Nat.mod_lt i (by decide)) (by omega)
    rwa [Nat.div_add_mod] at hgroup

/-! ### Settled -/

/-- Settles O38: word `i mod 8` of a key is 16 of its bits, and a rotation moves every bit by 25. -/
theorem keyExpansionBits : Obligations.KeyExpansionBits := by
  intro key i k hk
  have hi := i.isLt
  rw [ideaExpand, Vector.get_eq_getElem, Vector.getElem_ofFn, BitVec.getLsbD_extractLsb',
    rotatedKey_getLsbD _ _ _ (by omega) (by omega)]
  simp only [hk, decide_true, Bool.true_and]

/-- Settles O39: inversion maps group `r` to group `8 - r`, and each kind of subkey by an involution. -/
theorem invertIsInvolution : Obligations.InvertIsInvolution := ⟨ideaInvert_ideaInvert, ideaInvert_zero⟩

end Sys2Proof.Machine
end

section
/-! The block function undoes itself under the inverted table. A round is three maps: the subkeys of the
group go into the four words, the halves are mixed (an involution), the middle words change places. The
output transformation is the first map after the last, so the sequence of maps reads the same backwards
(spec/45_idea.md R157, R161). -/

namespace Sys2Proof.Machine

/-! ### The three maps of a round -/

/-- `X2` and `X3` change places. -/
def swapMiddle (q : Quad) : Quad := { q with x2 := q.x3, x3 := q.x2 }

/-- `A`, `B`, `C`, `D`: the subkeys of group `r` multiplied and added into the four words. -/
def mixKeys (K : SubkeyTable) (r : Nat) (q : Quad) : Quad :=
  { x1 := mulMod q.x1 (subkey K (6 * r)), x2 := q.x2 + subkey K (6 * r + 1),
    x3 := q.x3 + subkey K (6 * r + 2), x4 := mulMod q.x4 (subkey K (6 * r + 3)) }

/-- `E` of round `r`, from `A ^ C`. -/
def halfProduct (K : SubkeyTable) (r : Nat) (ac : Word16) : Word16 := mulMod ac (subkey K (6 * r + 4))

/-- `F` of round `r`, from `A ^ C` and `B ^ D`. -/
def halfSum (K : SubkeyTable) (r : Nat) (ac bd : Word16) : Word16 :=
  mulMod (bd + halfProduct K r ac) (subkey K (6 * r + 5))

/-- `F` into `A` and `C`, `G = E + F` into `B` and `D`. -/
def mixHalves (K : SubkeyTable) (r : Nat) (q : Quad) : Quad :=
  let f := halfSum K r (q.x1 ^^^ q.x3) (q.x2 ^^^ q.x4)
  let g := halfProduct K r (q.x1 ^^^ q.x3) + f
  { x1 := q.x1 ^^^ f, x2 := q.x2 ^^^ g, x3 := q.x3 ^^^ f, x4 := q.x4 ^^^ g }

theorem ideaRound_eq (K : SubkeyTable) (r : Nat) (q : Quad) :
    ideaRound K r q = swapMiddle (mixHalves K r (mixKeys K r q)) := rfl

theorem ideaOutput_eq (K : SubkeyTable) (q : Quad) : ideaOutput K q = mixKeys K 8 (swapMiddle q) := rfl

@[simp] theorem swapMiddle_swapMiddle (q : Quad) : swapMiddle (swapMiddle q) = q := rfl

theorem xor_xor_xor_same {n : Nat} (a b f : BitVec n) : a ^^^ f ^^^ (b ^^^ f) = a ^^^ b := by
  rw [BitVec.xor_comm b f, ← BitVec.xor_assoc, BitVec.xor_assoc a f f, BitVec.xor_self, BitVec.xor_zero]

theorem xor_xor_same {n : Nat} (a f : BitVec n) : a ^^^ f ^^^ f = a := by
  rw [BitVec.xor_assoc, BitVec.xor_self, BitVec.xor_zero]

/-- Mixing leaves `A ^ C` and `B ^ D`, so it adds the same values a second time. -/
@[simp] theorem mixHalves_mixHalves (K : SubkeyTable) (r : Nat) (q : Quad) :
    mixHalves K r (mixHalves K r q) = q := by
  simp only [mixHalves, xor_xor_xor_same, xor_xor_same]

/-! ### The maps under the inverted table -/

section Inverted
variable (ek : SubkeyTable) {r r' : Nat}

theorem mixHalves_invert (h : r + r' = 7) : mixHalves (ideaInvert ek) r = mixHalves ek r' := by
  funext q
  simp only [mixHalves, halfSum, halfProduct, subkey_invert_mix_first ek h, subkey_invert_mix_second ek h]

/-- The first and the last group undo each other as they stand. -/
theorem mixKeys_invert_end (h : r + r' = 8) (hend : ¬(1 ≤ r ∧ 1 ≤ r')) (q : Quad) :
    mixKeys (ideaInvert ek) r (mixKeys ek r' q) = q := by
  simp only [mixKeys, subkey_invert_mul_first ek h, subkey_invert_mul_second ek h,
    subkey_invert_add_first ek h, subkey_invert_add_second ek h, if_neg hend, mulMod_mulMod_invMod,
    add_neg_cancel_right]

/-- The middle groups undo each other across the swap. -/
theorem mixKeys_invert_middle (h : r + r' = 8) (hmid : 1 ≤ r ∧ 1 ≤ r') (q : Quad) :
    mixKeys (ideaInvert ek) r (swapMiddle (mixKeys ek r' q)) = swapMiddle q := by
  simp only [mixKeys, swapMiddle, subkey_invert_mul_first ek h, subkey_invert_mul_second ek h,
    subkey_invert_add_first ek h, subkey_invert_add_second ek h, if_pos hmid, mulMod_mulMod_invMod,
    add_neg_cancel_right]

/-- A round of the inverted table, its subkeys in, undoes the round it stands for but for that round's own
subkeys. -/
theorem ideaRound_invert (h : r + r' = 7) (d q : Quad)
    (hd : mixKeys (ideaInvert ek) r d = swapMiddle (ideaRound ek r' q)) :
    ideaRound (ideaInvert ek) r d = swapMiddle (mixKeys ek r' q) := by
  rw [ideaRound_eq, hd, ideaRound_eq, mixHalves_invert ek h, swapMiddle_swapMiddle, mixHalves_mixHalves]

end Inverted

/-! ### The rounds -/

/-- The eight rounds and the output transformation on four words. -/
def ideaQuad (K : SubkeyTable) (q : Quad) : Quad := ideaOutput K (loopUp (ideaRound K) 0 8 q)

/-- After `r` rounds of the inverted table and the subkeys of the next, all but the first `r'` rounds of the
table are undone. -/
theorem rounds_invert (ek : SubkeyTable) (q : Quad) (r r' : Nat) (h : r + r' = 8) (hr' : 1 ≤ r') :
    mixKeys (ideaInvert ek) r (loopUp (ideaRound (ideaInvert ek)) 0 r (ideaQuad ek q)) =
      swapMiddle (loopUp (ideaRound ek) 0 r' q) := by
  induction r generalizing r' with
  | zero =>
    obtain rfl : r' = 8 := by omega
    rw [loopUp_zero, ideaQuad, ideaOutput_eq]
    exact mixKeys_invert_end ek h (by decide) _
  | succ r ih =>
    have hprev := ih (r' + 1) (by omega) (by omega)
    rw [loopUp_last _ 0 r', Nat.zero_add] at hprev
    rw [loopUp_last, Nat.zero_add, ideaRound_invert ek (by omega) _ _ hprev]
    exact mixKeys_invert_middle ek h ⟨by omega, hr'⟩ _

theorem ideaQuad_invert (ek : SubkeyTable) (q : Quad) : ideaQuad (ideaInvert ek) (ideaQuad ek q) = q := by
  have hlast := ideaRound_invert ek rfl _ _ (rounds_invert ek q 7 1 rfl (Nat.le_refl 1))
  rw [ideaQuad, loopUp_last, Nat.zero_add, hlast, ideaOutput_eq, swapMiddle_swapMiddle]
  exact mixKeys_invert_end ek rfl (by decide) q

/-! ### Blocks -/

theorem extractLsb'_append_word {n : Nat} (v : BitVec n) (w : Word16) : (v ++ w).extractLsb' 0 16 = w :=
  (BitVec.extractLsb'_append_eq_of_add_le (Nat.le_refl 16)).trans BitVec.extractLsb'_eq_self

theorem extractLsb'_append_above {n : Nat} (v : BitVec n) (w : Word16) (k : Nat) :
    (v ++ w).extractLsb' (k + 16) 16 = v.extractLsb' k 16 :=
  (BitVec.extractLsb'_append_eq_of_le (Nat.le_add_left 16 k)).trans (by rw [Nat.add_sub_cancel])

theorem quadOfBlock_blockOfQuad (q : Quad) : quadOfBlock (blockOfQuad q) = q := by
  obtain ⟨x1, x2, x3, x4⟩ := q
  have h1 : (x1 ++ x2 ++ x3 ++ x4).extractLsb' 48 16 = x1 := by
    rw [extractLsb'_append_above, extractLsb'_append_above, extractLsb'_append_above]
    exact BitVec.extractLsb'_eq_self
  have h2 : (x1 ++ x2 ++ x3 ++ x4).extractLsb' 32 16 = x2 := by
    rw [extractLsb'_append_above, extractLsb'_append_above, extractLsb'_append_word]
  have h3 : (x1 ++ x2 ++ x3 ++ x4).extractLsb' 16 16 = x3 := by
    rw [extractLsb'_append_above, extractLsb'_append_word]
  exact Quad.mk.injEq .. ▸ ⟨h1, h2, h3, extractLsb'_append_word _ _⟩

theorem blockOfQuad_quadOfBlock (blk : BitVec 64) : blockOfQuad (quadOfBlock blk) = blk := by
  rw [blockOfQuad, quadOfBlock]
  dsimp only
  rw [BitVec.extractLsb'_append_extractLsb'_eq_extractLsb' (by decide),
    BitVec.extractLsb'_append_extractLsb'_eq_extractLsb' (by decide),
    BitVec.extractLsb'_append_extractLsb'_eq_extractLsb' (by decide)]
  exact BitVec.extractLsb'_eq_self

theorem ideaBlock_eq (blk : BitVec 64) (K : SubkeyTable) :
    ideaBlock blk K = blockOfQuad (ideaQuad K (quadOfBlock blk)) := rfl

theorem ideaBlock_invert (ek : SubkeyTable) (blk : BitVec 64) :
    ideaBlock (ideaBlock blk ek) (ideaInvert ek) = blk := by
  rw [ideaBlock_eq, ideaBlock_eq, quadOfBlock_blockOfQuad, ideaQuad_invert, blockOfQuad_quadOfBlock]

/-- The other direction, since the table is the inverse of its inverse. -/
theorem ideaBlock_of_invert (ek : SubkeyTable) (blk : BitVec 64) :
    ideaBlock (ideaBlock blk (ideaInvert ek)) ek = blk := by
  have h := ideaBlock_invert (ideaInvert ek) blk
  rwa [ideaInvert_ideaInvert] at h

/-! ### Settled -/

/-- Settles O40: the rounds are undone from the last to the first, each by the round of the inverted table
that stands for it. -/
theorem blockRoundTrip : Obligations.BlockRoundTrip := fun ek blk =>
  ⟨ideaBlock_invert ek blk, ideaBlock_of_invert ek blk⟩

end Sys2Proof.Machine
end

section
/-! The IDEA commands: the key schedule, the block loops and their round trip, and the two clear commands
(spec/45_idea.md R156 to R161, spec/46_widerwake.md R183). -/

namespace Sys2Proof.Machine

/-! ### `IDEAKS` -/

theorem getReg_eq_iff_natReg (s : State) (r : Reg) (v : Word64) : getReg s r = v ↔ natReg s r = v.toNat :=
  BitVec.toNat_inj.symm

/-- IDEAKS raises no error when the length is 16 and the key is in `MEM` (60_exceptions.md R205). -/
theorem errorOf_ideaks_eq_none (cfg : Config) (ra rn : Reg) (s : State) (hlen : natReg s rn = 16)
    (hfit : Fits cfg (natReg s ra) 16) : errorOf cfg (.ideaks ra rn) s = none := by
  have hreg := (getReg_eq_iff_natReg s rn 16).mpr hlen
  exact (if_neg (not_not.mpr hreg)).trans ((rangeError_none _ _ _).mpr hfit)

theorem errorOf_ideaks_length (cfg : Config) (ra rn : Reg) (s : State) (hlen : natReg s rn ≠ 16) :
    errorOf cfg (.ideaks ra rn) s = some (1, getReg s rn) :=
  if_pos fun h => hlen ((getReg_eq_iff_natReg s rn 16).mp h)

/-! ### The block commands -/

theorem errorOf_ideaenc_eq_none (cfg : Config) (ri ro rn : Reg) (s : State)
    (hi : Fits cfg (natReg s ri) (8 * natReg s rn)) (ho : Fits cfg (natReg s ro) (8 * natReg s rn)) :
    errorOf cfg (.ideaenc ri ro rn) s = none :=
  Option.or_eq_none_iff.mpr ⟨(rangeError_none _ _ _).mpr hi, (rangeError_none _ _ _).mpr ho⟩

theorem errorOf_ideadec_eq_none (cfg : Config) (ri ro rn : Reg) (s : State)
    (hi : Fits cfg (natReg s ri) (8 * natReg s rn)) (ho : Fits cfg (natReg s ro) (8 * natReg s rn)) :
    errorOf cfg (.ideadec ri ro rn) s = none := errorOf_ideaenc_eq_none cfg ri ro rn s hi ho

/-- IDEAENC gives the memory of the block loop under `EK` and leaves the rest but the counter. -/
theorem exec_ideaenc_ok (ri ro rn : Reg) (s : State) (hi : Fits Config.std (natReg s ri) (8 * natReg s rn))
    (ho : Fits Config.std (natReg s ro) (8 * natReg s rn)) :
    exec (.ideaenc ri ro rn) s =
      .next { s with pc := s.pc + 1, mem := (blocksEnd s.idea.ek ri ro rn s).mem } :=
  exec_ok _ s (errorOf_ideaenc_eq_none _ ri ro rn s hi ho)

/-- The same of IDEADEC under `DK` (45_idea.md R159). -/
theorem exec_ideadec_ok (ri ro rn : Reg) (s : State) (hi : Fits Config.std (natReg s ri) (8 * natReg s rn))
    (ho : Fits Config.std (natReg s ro) (8 * natReg s rn)) :
    exec (.ideadec ri ro rn) s =
      .next { s with pc := s.pc + 1, mem := (blocksEnd s.idea.dk ri ro rn s).mem } :=
  exec_ok _ s (errorOf_ideadec_eq_none _ ri ro rn s hi ho)

/-! ### The round trip through memory -/

/-- The block of the 8 bytes at `a`. -/
def blockAt (m : Memory) (a : Nat) : BitVec 64 := be 64 (memRead m a 8)

/-- Where the copy is safe, block `j` of the output is the image of block `j` of the input. -/
theorem memRead_blocksEnd (K : SubkeyTable) (ri ro rn : Reg) (s : State)
    (hs : CopySafe (natReg s ri) (natReg s ro) (8 * natReg s rn)) (j : Nat) (hj : j < natReg s rn) :
    memRead (blocksEnd K ri ro rn s).mem (natReg s ro + 8 * j) 8 =
      beBytes 8 (ideaBlock (blockAt s.mem (natReg s ri + 8 * j)) K).toNat := by
  have hcopy := memRead_memWrite s.mem (natReg s ro + 8 * j)
    (beBytes 8 (ideaBlock (blockAt s.mem (natReg s ri + 8 * j)) K).toNat)
  rw [beBytes_length] at hcopy
  rw [← hcopy]
  apply memRead_congr
  intro c hlo hhi
  rw [blocksEnd_memGet K ri ro rn s hs, memGet_memWrite, beBytes_length, if_pos ⟨by omega, by omega⟩,
    if_pos ⟨hlo, hhi⟩, show (c - natReg s ro) / 8 = j by omega,
    show (c - natReg s ro) % 8 = c - (natReg s ro + 8 * j) by omega]
  rfl

theorem memRead_append (m : Memory) (a i k : Nat) :
    memRead m a (i + k) = memRead m a i ++ memRead m (a + i) k := by
  induction i generalizing a with
  | zero => rw [Nat.zero_add]; rfl
  | succ i ih => rw [Nat.add_right_comm, memRead, ih, Nat.add_assoc, Nat.add_comm 1 i]; rfl

/-- Two ranges that read alike block by block read alike. -/
theorem memRead_eq_of_blocks (m m' : Memory) (a b n : Nat)
    (h : ∀ j, j < n → memRead m (a + 8 * j) 8 = memRead m' (b + 8 * j) 8) :
    memRead m a (8 * n) = memRead m' b (8 * n) := by
  induction n with
  | zero => rfl
  | succ n ih =>
    rw [Nat.mul_succ, memRead_append, memRead_append, ih fun j hj => h j (by omega), h n n.lt_succ_self]

theorem blockAt_of_memRead (m : Memory) (a : Nat) (blk : BitVec 64)
    (h : memRead m a 8 = beBytes 8 blk.toNat) : blockAt m a = blk := by
  rw [blockAt, h, be, beNat_beBytes]
  exact BitVec.eq_of_toNat_eq ((BitVec.toNat_ofNat _ _).trans (by have := blk.isLt; omega))

theorem beBytes_blockAt (m : Memory) (a : Nat) : beBytes 8 (blockAt m a).toNat = memRead m a 8 :=
  beBytes_be .w64 _ (memRead_length m a 8)

/-- The block loop under a table that undoes `K`, run on the output of the loop under `K`, gives the input
back. -/
theorem memRead_blocksEnd_blocksEnd (K K' : SubkeyTable)
    (hK : ∀ blk, ideaBlock (ideaBlock blk K) K' = blk) (ri ro rb rn : Reg) (s t : State) (hx : t.x = s.x)
    (hmem : t.mem = (blocksEnd K ri ro rn s).mem)
    (hs : CopySafe (natReg s ri) (natReg s ro) (8 * natReg s rn))
    (hs' : CopySafe (natReg s ro) (natReg s rb) (8 * natReg s rn)) :
    memRead (blocksEnd K' ro rb rn t).mem (natReg s rb) (8 * natReg s rn) =
      memRead s.mem (natReg s ri) (8 * natReg s rn) := by
  have hreg : ∀ r, natReg t r = natReg s r := fun r => congrArg (fun x => (x.get r).toNat) hx
  apply memRead_eq_of_blocks
  intro j hj
  have hout := memRead_blocksEnd K ri ro rn s hs j hj
  have hback := memRead_blocksEnd K' ro rb rn t
  simp only [hreg, hmem] at hback
  rw [hback hs' j hj, blockAt_of_memRead _ _ _ hout, hK, beBytes_blockAt]

/-! ### `IDEACLR` and `WWCLR` -/

/-- Writing a bit the value it has changes nothing. -/
theorem setStatusBit_of_getLsbD (st : Word64) (k : Nat) (b : Bool) (hk : k < 64) (h : st.getLsbD k = b) :
    setStatusBit st k b = st := by
  apply BitVec.eq_of_getLsbD_eq
  intro j _
  rw [setStatusBit_getLsbD st k b hk]
  split
  · next hj => rw [hj, h]
  · rfl

theorem setIdeaKeyed_of_statusIdeaKeyed (st : Word64) (b : Bool) (h : statusIdeaKeyed st = b) :
    setIdeaKeyed st b = st := setStatusBit_of_getLsbD st 8 b (by decide) h
theorem setWwKeyed_of_statusWwKeyed (st : Word64) (b : Bool) (h : statusWwKeyed st = b) :
    setWwKeyed st b = st := setStatusBit_of_getLsbD st 9 b (by decide) h
theorem setWwIvset_of_statusWwIvset (st : Word64) (b : Bool) (h : statusWwIvset st = b) :
    setWwIvset st b = st := setStatusBit_of_getLsbD st 10 b (by decide) h

@[simp] theorem statusWwIvset_setWwIvset (st : Word64) (b : Bool) :
    statusWwIvset (setWwIvset st b) = b := setWwIvset_getLsbD st b 10

/-- The effect of IDEACLR twice is its effect once. -/
theorem effectOf_ideaclr_idem (cfg : Config) (s : State) :
    effectOf cfg .ideaclr (advance (effectOf cfg .ideaclr s)) = advance (effectOf cfg .ideaclr s) := by
  have hst := setIdeaKeyed_of_statusIdeaKeyed _ false (statusIdeaKeyed_setIdeaKeyed s.status false)
  exact congrArg (fun st => { advance (effectOf cfg .ideaclr s) with status := st }) hst

theorem effectOf_wwclr_idem (cfg : Config) (s : State) :
    effectOf cfg .wwclr (advance (effectOf cfg .wwclr s)) = advance (effectOf cfg .wwclr s) := by
  have hkeyed : setWwKeyed (setWwIvset (setWwKeyed s.status false) false) false =
      setWwIvset (setWwKeyed s.status false) false := setWwKeyed_of_statusWwKeyed _ false (by simp)
  have hst : statusAfter .wwclr (statusAfter .wwclr s.status) = statusAfter .wwclr s.status :=
    (congrArg (setWwIvset · false) hkeyed).trans (setWwIvset_of_statusWwIvset _ false (by simp))
  exact congrArg (fun st => { advance (effectOf cfg .wwclr s) with status := st }) hst

/-! ### Settled -/

/-- Settles O41: the effect loads the two tables and sets one bit of `STATUS`; the length is the first
check. -/
theorem ideaKeySchedule : Obligations.IdeaKeySchedule := by
  rintro ra rn s _ rfl
  refine ⟨encodes_of_operands (.ideaks ra rn) 0x20 rfl [ra, rn] rfl rfl, fun hlen hin => ?_, fun hlen => ?_,
    failsAsListed _ s⟩
  · have hok := errorOf_ideaks_eq_none Config.std ra rn s hlen (.inr hin)
    exact ⟨⟨_, exec_ok _ s hok, rfl, rfl, statusIdeaKeyed_setIdeaKeyed s.status true,
      fun k hk => (setIdeaKeyed_getLsbD s.status true k).trans (if_neg hk), rfl⟩, accesses_of_ok _ _ s hok⟩
  · exact (failsAsListed (.ideaks ra rn) s 1 _ (errorOf_ideaks_length _ ra rn s hlen)).1

/-- Settles O42: the effect of each command is the memory of the block loop, which is a fold over the blocks
in order. -/
theorem ideaBlocksByOrder : Obligations.IdeaBlocksByOrder := by
  intro ri ro rn s run hrun
  have hmem : ∀ K, run K = (blocksEnd K ri ro rn s).mem := fun K =>
    (hrun K).trans (blocksEnd_mem K ri ro rn s).symm
  refine ⟨encodes_of_operands (.ideaenc ri ro rn) 0x21 rfl [ri, ro, rn] rfl rfl,
    encodes_of_operands (.ideadec ri ro rn) 0x22 rfl [ri, ro, rn] rfl rfl, fun hi ho => ?_,
    failsAsListed _ s, failsAsListed _ s⟩
  rw [hmem, hmem]
  exact ⟨exec_ideaenc_ok ri ro rn s hi ho, exec_ideadec_ok ri ro rn s hi ho,
    accesses_of_ok _ _ s (errorOf_ideaenc_eq_none _ ri ro rn s hi ho),
    accesses_of_ok _ _ s (errorOf_ideadec_eq_none _ ri ro rn s hi ho)⟩

/-- Settles O43: both commands are the block loop, the first command leaves the registers and the tables,
and each table undoes the other on every block. -/
theorem ideaRoundTrip : Obligations.IdeaRoundTrip := by
  intro ri ro rb rn s hdk hi ho hb hs hs'
  refine ⟨⟨_, _, exec_ideaenc_ok ri ro rn s hi ho, exec_ideadec_ok ro rb rn _ ho hb, ?_⟩,
    ⟨_, _, exec_ideadec_ok ri ro rn s hi ho, exec_ideaenc_ok ro rb rn _ ho hb, ?_⟩⟩
  · refine memRead_blocksEnd_blocksEnd s.idea.ek s.idea.dk (fun blk => ?_) ri ro rb rn s _ rfl rfl hs hs'
    rw [hdk, ideaBlock_invert]
  · refine memRead_blocksEnd_blocksEnd s.idea.dk s.idea.ek (fun blk => ?_) ri ro rb rn s _ rfl rfl hs hs'
    rw [hdk, ideaBlock_of_invert]

/-- Settles O44: each effect writes the zero context and clears bits of `STATUS`, and a second one finds both
as it would write them. -/
theorem clearCommands : Obligations.ClearCommands := by
  intro s
  refine ⟨encodes_of_operands .ideaclr 0x23 rfl [] rfl rfl, encodes_of_operands .wwclr 0x2D rfl [] rfl rfl,
    ⟨_, _, exec_ok .ideaclr s rfl, get_replicate 52 0, get_replicate 52 0,
      statusIdeaKeyed_setIdeaKeyed s.status false,
      fun k hk => (setIdeaKeyed_getLsbD s.status false k).trans (if_neg hk), rfl,
      exec_ok .ideaclr _ rfl, congrArg advance (effectOf_ideaclr_idem Config.std s)⟩,
    ⟨_, _, exec_ok .wwclr s rfl, get_replicate 256 0, get_replicate 5 0, get_replicate 4 0, rfl, rfl,
      ?_, ?_, fun k h9 h10 => ?_, rfl, exec_ok .wwclr _ rfl,
      congrArg advance (effectOf_wwclr_idem Config.std s)⟩,
    accesses_of_ok _ _ s rfl, accesses_of_ok _ _ s rfl⟩
  · exact (statusWwKeyed_setWwIvset _ false).trans (statusWwKeyed_setWwKeyed s.status false)
  · exact statusWwIvset_setWwIvset _ false
  · exact (setWwIvset_getLsbD _ false k).trans ((if_neg h10).trans
      ((setWwKeyed_getLsbD s.status false k).trans (if_neg h9)))

end Sys2Proof.Machine
end

section
/-! `WWCIPH` as a loop along the keystream: its outcome, and the two laws of its loop, that a length splits and
that the accesses already recorded do not matter (spec/46_widerwake.md R182, R184). -/

namespace Sys2Proof.Machine

theorem std_bufLenOk : Config.std.bufLenOk = true := rfl

/-! ### Outcome -/

/-- WWCIPH raises no error when both ranges are in `MEM` (60_exceptions.md R202). -/
theorem errorOf_wwciph_eq_none (cfg : Config) (ri ro rn : Reg) (s : State)
    (hi : Fits cfg (natReg s ri) (natReg s rn)) (ho : Fits cfg (natReg s ro) (natReg s rn)) :
    errorOf cfg (.wwciph ri ro rn) s = none :=
  Option.or_eq_none_iff.mpr ⟨(rangeError_none _ _ _).mpr hi, (rangeError_none _ _ _).mpr ho⟩

/-- WWCIPH gives the memory and the context of the loop, and leaves the rest but the counter. -/
theorem execIn_wwciph_ok (cfg : Config) (ri ro rn : Reg) (s : State) {i o n : Nat} (hi : natReg s ri = i)
    (ho : natReg s ro = o) (hn : natReg s rn = n) (hfi : Fits cfg i n) (hfo : Fits cfg o n) :
    execIn cfg (.wwciph ri ro rn) s = .next { s with
      pc := s.pc + 1
      mem := (cipherBus cfg i o n (busStart s.mem, s.ww)).1.mem
      ww := (cipherBus cfg i o n (busStart s.mem, s.ww)).2 } := by
  subst hi ho hn
  exact execIn_ok cfg _ s (errorOf_wwciph_eq_none cfg ri ro rn s hfi hfo)

/-! ### The loop -/

/-- A loop over indices from `a + i` is the loop from `i` over the shifted unit. -/
theorem loopUp_shift {σ : Type} (f : Nat → σ → σ) (a i n : Nat) (s : σ) :
    loopUp f (i + a) n s = loopUp (fun j => f (j + a)) i n s := by
  induction n with
  | zero => rfl
  | succ n ih => rw [loopUp_last, loopUp_last, ih, Nat.add_right_comm]

/-- `n₁ + n₂` bytes are `n₁` bytes, then `n₂` bytes at the addresses that follow (R182). -/
theorem cipherBus_add (cfg : Config) (i o n₁ n₂ : Nat) (p : Bus × WakeContext) :
    cipherBus cfg i o (n₁ + n₂) p = cipherBus cfg (i + n₁) (o + n₁) n₂ (cipherBus cfg i o n₁ p) := by
  have hunit : (fun j => cipherByte cfg i o (j + n₁)) = cipherByte cfg (i + n₁) (o + n₁) := by
    funext j q
    simp only [cipherByte, Nat.add_assoc, Nat.add_comm n₁ j]
  rw [cipherBus, loopUp_add, loopUp_shift, hunit]
  rfl

/-- What the loop leaves in `MEM` and in the context does not depend on the accesses recorded before. -/
theorem cipherBus_congr (cfg : Config) (i o n : Nat) (b b' : Bus) (c : WakeContext) (h : b.mem = b'.mem) :
    (cipherBus cfg i o n (b, c)).1.mem = (cipherBus cfg i o n (b', c)).1.mem ∧
    (cipherBus cfg i o n (b, c)).2 = (cipherBus cfg i o n (b', c)).2 := by
  unfold cipherBus
  induction n with
  | zero => exact ⟨h, rfl⟩
  | succ n ih =>
    obtain ⟨hmem, hctx⟩ := ih
    simp only [loopUp_last, cipherByte, busWriteByte_mem, busReadByte_mem, busReadByte_byte, hmem, hctx, and_self]

/-! ### Settled -/

/-- Settles O49: the loop of WWCIPH walks along the stream of the context it starts from. -/
theorem cipherCombinesKeystream : Obligations.CipherCombinesKeystream := by
  intro ri ro rn s hpos _
  refine ⟨encodes_of_operands (.wwciph ri ro rn) 0x2C rfl [ri, ro, rn] rfl rfl, fun hi ho => ?_,
    failsAsListed _ s⟩
  have hok := errorOf_wwciph_eq_none Config.std ri ro rn s hi ho
  obtain ⟨hmem, hstream, -⟩ := cipherBus_spec Config.std std_bufLenOk (natReg s ri) (natReg s ro)
    (busStart s.mem) s.ww hpos (natReg s rn)
  obtain ⟨htable, htKey⟩ := cipherBus_keyed Config.std (natReg s ri) (natReg s ro) (busStart s.mem) s.ww
    (natReg s rn)
  rw [exec_eq_execIn]
  refine ⟨⟨_, execIn_wwciph_ok Config.std ri ro rn s rfl rfl rfl hi ho, rfl, hmem, htable, htKey, fun hn => ?_,
    cipherBus_cursor Config.std std_bufLenOk _ _ _ s.ww hpos _, hstream⟩, accesses_of_ok _ _ s hok⟩
  rw [hn]
  rfl

/-- Settles O50: the two loops are the one loop split, and the second starts from the memory and the context
of the first. -/
theorem cipherLengthSplits : Obligations.CipherLengthSplits := by
  intro cfg ri ro rn s x₁ x₂ x₃ i o n₁ n₂ hi₁ ho₁ hn₁ hi₂ ho₂ hn₂ hi₃ ho₃ hn₃ hi ho
  refine ⟨_, _, _,
    execIn_wwciph_ok cfg ri ro rn _ hi₁ ho₁ hn₁ (hi.part (by omega) (by omega)) (ho.part (by omega) (by omega)),
    execIn_wwciph_ok cfg ri ro rn _ hi₂ ho₂ hn₂ (hi.part (by omega) (by omega)) (ho.part (by omega) (by omega)),
    execIn_wwciph_ok cfg ri ro rn _ hi₃ ho₃ hn₃ hi ho, ?_⟩
  rw [cipherBus_add]
  exact cipherBus_congr cfg _ _ n₂ _ _ _ rfl

end Sys2Proof.Machine
end

section
/-! The key schedule and the IV setup, and the keystream they start: a function of key and IV only, which
`WWCIPH` combines with its input, so that the same keystream gives the input back
(spec/46_widerwake.md R177, R178, R186). -/

namespace Sys2Proof.Machine

/-! ### `WWKS` and `WWSIV` -/

/-- WWKS raises no error when the length is 16 and the key is in `MEM` (60_exceptions.md R205). -/
theorem errorOf_wwks_eq_none (cfg : Config) (ra rn : Reg) (s : State) (hlen : natReg s rn = 16)
    (hfit : Fits cfg (natReg s ra) 16) : errorOf cfg (.wwks ra rn) s = none :=
  errorOf_ideaks_eq_none cfg ra rn s hlen hfit

theorem errorOf_wwks_length (cfg : Config) (ra rn : Reg) (s : State) (hlen : natReg s rn ≠ 16) :
    errorOf cfg (.wwks ra rn) s = some (1, getReg s rn) := errorOf_ideaks_length cfg ra rn s hlen

/-- WWSIV raises no error when the length is 8 and the IV is in `MEM` (60_exceptions.md R206). -/
theorem errorOf_wwsiv_eq_none (cfg : Config) (ra rn : Reg) (s : State) (hlen : natReg s rn = 8)
    (hfit : Fits cfg (natReg s ra) 8) : errorOf cfg (.wwsiv ra rn) s = none := by
  have hreg := (getReg_eq_iff_natReg s rn 8).mpr hlen
  exact (if_neg (not_not.mpr hreg)).trans ((rangeError_none _ _ _).mpr hfit)

theorem errorOf_wwsiv_length (cfg : Config) (ra rn : Reg) (s : State) (hlen : natReg s rn ≠ 8) :
    errorOf cfg (.wwsiv ra rn) s = some (2, getReg s rn) :=
  if_pos fun h => hlen ((getReg_eq_iff_natReg s rn 8).mp h)

/-! ### `WWSIV`, then `WWCIPH` -/

/-- The state after an IV setup and one WWCIPH, neither raising an error. -/
def afterIvCipher (cfg : Config) (rv ri ro rn : Reg) (s : State) : State :=
  advance (cipherEffect cfg ri ro rn (advance (wwsivEffect cfg rv s)))

theorem execSeq_wwsiv_wwciph (cfg : Config) (rv rm ri ro rn : Reg) (is : List Instr) (s : State)
    (hm : natReg s rm = 8) (hv : Fits cfg (natReg s rv) 8) (hi : Fits cfg (natReg s ri) (natReg s rn))
    (ho : Fits cfg (natReg s ro) (natReg s rn)) :
    execSeq cfg (.wwsiv rv rm :: .wwciph ri ro rn :: is) s =
      execSeq cfg is (afterIvCipher cfg rv ri ro rn s) :=
  (execSeq_cons_ok cfg _ _ s (errorOf_wwsiv_eq_none cfg rv rm s hm hv)).trans
    (execSeq_cons_ok cfg _ is _ (errorOf_wwciph_eq_none cfg ri ro rn _ hi ho))

/-- The keystream from a key, a table and an IV (R186). -/
def ivStream (cfg : Config) (k : WakeKey) (T : WakeTable) (iv : BitVec 64) : Nat → Byte :=
  ksByte cfg k T (cfg.wwIvsetup k iv T)

/-- Where the copy is safe, the output is the input combined with the keystream of the IV. -/
theorem memGet_afterIvCipher (cfg : Config) (hb : cfg.bufLenOk = true) (rv ri ro rn : Reg) (s : State)
    (hs : CopySafe (natReg s ri) (natReg s ro) (natReg s rn)) (a : Nat) :
    memGet (afterIvCipher cfg rv ri ro rn s).mem a =
      if natReg s ro ≤ a ∧ a < natReg s ro + natReg s rn then
        memGet s.mem (natReg s ri + (a - natReg s ro)) ^^^
          ivStream cfg s.ww.tKey s.ww.table (ivAt rv s) (a - natReg s ro)
      else memGet s.mem a := by
  have hout := cipherEffect_memGet cfg hb ri ro rn (advance (wwsivEffect cfg rv s)) (Nat.le_refl _) hs a
  rwa [streamByte_fresh cfg _ rfl] at hout

/-- The key stays for the next IV. -/
theorem afterIvCipher_keyed (cfg : Config) (rv ri ro rn : Reg) (s : State) :
    (afterIvCipher cfg rv ri ro rn s).ww.table = s.ww.table ∧
    (afterIvCipher cfg rv ri ro rn s).ww.tKey = s.ww.tKey :=
  cipherBus_keyed cfg _ _ _ _ _

/-- The IV stays where the output does not overwrite it. -/
theorem ivAt_afterIvCipher (cfg : Config) (hb : cfg.bufLenOk = true) (rv ri ro rn : Reg) (s : State)
    (hs : CopySafe (natReg s ri) (natReg s ro) (natReg s rn))
    (hapart : Apart (natReg s ro) (natReg s rn) (natReg s rv) 8) :
    ivAt rv (afterIvCipher cfg rv ri ro rn s) = ivAt rv s := by
  unfold Apart at hapart
  have hread : memRead (afterIvCipher cfg rv ri ro rn s).mem (natReg s rv) 8 = memRead s.mem (natReg s rv) 8 :=
    memRead_congr _ _ _ 8 fun c hlo hhi => by
      rw [memGet_afterIvCipher cfg hb rv ri ro rn s hs, if_neg (by omega)]
  exact congrArg (be 64) hread

/-- Two ranges that read alike byte by byte read alike. -/
theorem memRead_eq_of_bytes (m m' : Memory) (a b n : Nat)
    (h : ∀ j, j < n → memGet m (a + j) = memGet m' (b + j)) : memRead m a n = memRead m' b n := by
  induction n with
  | zero => rfl
  | succ n ih =>
    rw [memRead_append, memRead_append, ih fun j hj => h j (by omega)]
    exact congrArg (fun v => memRead m' b n ++ [v]) (h n n.lt_succ_self)

/-- The same IV again on the output gives the input back: the key, the table and the IV are the same, so the
keystream is. -/
theorem memRead_afterIvCipher_afterIvCipher (cfg : Config) (hb : cfg.bufLenOk = true) (rv ri ro rb rn : Reg)
    (s : State) (hs : CopySafe (natReg s ri) (natReg s ro) (natReg s rn))
    (hs' : CopySafe (natReg s ro) (natReg s rb) (natReg s rn))
    (hapart : Apart (natReg s ro) (natReg s rn) (natReg s rv) 8) :
    memRead (afterIvCipher cfg rv ro rb rn (afterIvCipher cfg rv ri ro rn s)).mem (natReg s rb) (natReg s rn) =
      memRead s.mem (natReg s ri) (natReg s rn) := by
  obtain ⟨htable, htKey⟩ := afterIvCipher_keyed cfg rv ri ro rn s
  have hiv := ivAt_afterIvCipher cfg hb rv ri ro rn s hs hapart
  have hreg : ∀ r, natReg (afterIvCipher cfg rv ri ro rn s) r = natReg s r := fun _ => rfl
  have hback := memGet_afterIvCipher cfg hb rv ro rb rn (afterIvCipher cfg rv ri ro rn s)
  simp only [hreg, htable, htKey, hiv] at hback
  apply memRead_eq_of_bytes
  intro j hj
  rw [hback hs', if_pos (by omega), Nat.add_sub_cancel_left, memGet_afterIvCipher cfg hb rv ri ro rn s hs,
    if_pos (by omega), Nat.add_sub_cancel_left, xor_xor_same]

/-! ### Settled -/

/-- Settles O51: the key schedule writes table and `t_key`, the IV setup the running state, and both force
regeneration, so nothing of the context before remains in the stream. -/
theorem keystreamOfKeyAndIv : Obligations.KeystreamOfKeyAndIv := by
  rintro cfg rk rl rv rm ri ro rn s _ _ hwf rfl rfl hl hk hm hv hi ho hs
  exact ⟨_, (execSeq_cons_ok cfg _ _ s (errorOf_wwks_eq_none cfg rk rl s hl hk)).trans
    (execSeq_wwsiv_wwciph cfg rv rm ri ro rn [] _ hm hv hi ho),
    memGet_afterIvCipher cfg (wf_bufLen cfg hwf) rv ri ro rn (advance (wwksEffect cfg rk s)) hs⟩

/-- Settles O52: each of the two ciphers starts the keystream of the same key and IV. -/
theorem cipherIsSelfInverse : Obligations.CipherIsSelfInverse := by
  intro cfg rk rl rv rm ri ro rb rn s hwf hl hk hm hv hi ho hrb hs hs' hapart
  exact ⟨_, (execSeq_cons_ok cfg _ _ s (errorOf_wwks_eq_none cfg rk rl s hl hk)).trans
    ((execSeq_wwsiv_wwciph cfg rv rm ri ro rn _ (advance (wwksEffect cfg rk s)) hm hv hi ho).trans
      (execSeq_wwsiv_wwciph cfg rv rm ro rb rn [] _ hm hv ho hrb)),
    memRead_afterIvCipher_afterIvCipher cfg (wf_bufLen cfg hwf) rv ri ro rb rn
      (advance (wwksEffect cfg rk s)) hs hs' hapart⟩

end Sys2Proof.Machine
end

section
/-! `WW_BUF_LEN` is hidden: two machines that differ in it run in step, the streams of their contexts equal,
as long as no command shows `buffer` or the running `state` itself (spec/46_widerwake.md R183, R184, R188). -/

namespace Sys2Proof.Machine

/-! ### Contexts with the same stream -/

/-- A configuration with another `WW_BUF_LEN`. -/
def withBufLen (cfg : Config) (len : Nat) : Config := { cfg with bufLen := len }

/-- `WW_MIX` takes the zero state, key and table to the word 0 and the zero state. -/
def MixKeepsZero (cfg : Config) : Prop :=
  cfg.wwMix (Vector.replicate 5 0) (Vector.replicate 4 0) (Vector.replicate 256 0) = (0, Vector.replicate 5 0)

/-- Contexts of the same key that have the same bytes to come, their cursors inside their buffers. -/
structure SameStream (cfg₁ cfg₂ : Config) (c₁ c₂ : WakeContext) : Prop where
  table : c₁.table = c₂.table
  tKey : c₁.tKey = c₂.tKey
  position₁ : c₁.position ≤ cfg₁.bufLen
  position₂ : c₂.position ≤ cfg₂.bufLen
  stream : ∀ j, streamByte cfg₁ c₁ j = streamByte cfg₂ c₂ j

section Streams
variable (cfg : Config) (len₁ len₂ : Nat)

/-- From a forced regeneration both streams are that of key, table and running state. -/
theorem sameStream_fresh (c₁ c₂ : WakeContext) (h₁ : c₁.position = len₁) (h₂ : c₂.position = len₂)
    (htable : c₁.table = c₂.table) (htKey : c₁.tKey = c₂.tKey) (hstate : c₁.state = c₂.state) :
    SameStream (withBufLen cfg len₁) (withBufLen cfg len₂) c₁ c₂ where
  table := htable
  tKey := htKey
  position₁ := h₁.le
  position₂ := h₂.le
  stream j := by
    rw [streamByte_fresh _ c₁ h₁, streamByte_fresh _ c₂ h₂, htable, htKey, hstate]
    exact ksByte_bufLen cfg len₁ len₂ _ _ _ j

/-- The cleared contexts have the zero stream for a `WW_MIX` that keeps the zeros (R188). -/
theorem sameStream_zero (hzero : MixKeepsZero cfg) :
    SameStream (withBufLen cfg len₁) (withBufLen cfg len₂) (WakeContext.zero len₁) (WakeContext.zero len₂) where
  table := rfl
  tKey := rfl
  position₁ := Nat.zero_le _
  position₂ := Nat.zero_le _
  stream j := (streamByte_zero (withBufLen cfg len₁) hzero j).trans
    (streamByte_zero (withBufLen cfg len₂) hzero j).symm

variable {cfg len₁ len₂} (hb₁ : (withBufLen cfg len₁).bufLenOk = true)
  (hb₂ : (withBufLen cfg len₂).bufLenOk = true) {c₁ c₂ : WakeContext}
  (h : SameStream (withBufLen cfg len₁) (withBufLen cfg len₂) c₁ c₂)
include hb₁ hb₂ h

/-- The loop of WWCIPH moves both along by as many bytes. -/
theorem SameStream.after_cipherBus (i o n : Nat) (b : Bus) :
    SameStream (withBufLen cfg len₁) (withBufLen cfg len₂) (cipherBus (withBufLen cfg len₁) i o n (b, c₁)).2
      (cipherBus (withBufLen cfg len₂) i o n (b, c₂)).2 := by
  obtain ⟨htable₁, htKey₁⟩ := cipherBus_keyed (withBufLen cfg len₁) i o b c₁ n
  obtain ⟨htable₂, htKey₂⟩ := cipherBus_keyed (withBufLen cfg len₂) i o b c₂ n
  obtain ⟨-, hstream₁, hpos₁⟩ := cipherBus_spec _ hb₁ i o b c₁ h.position₁ n
  obtain ⟨-, hstream₂, hpos₂⟩ := cipherBus_spec _ hb₂ i o b c₂ h.position₂ n
  exact ⟨by rw [htable₁, htable₂, h.table], by rw [htKey₁, htKey₂, h.tKey], hpos₁, hpos₂,
    fun j => by rw [hstream₁, hstream₂, h.stream]⟩

/-- It writes the same bytes. -/
theorem SameStream.mem_cipherBus (i o n : Nat) (b : Bus) :
    (cipherBus (withBufLen cfg len₂) i o n (b, c₂)).1.mem =
      (cipherBus (withBufLen cfg len₁) i o n (b, c₁)).1.mem := by
  rw [(cipherBus_spec _ hb₁ i o b c₁ h.position₁ n).1, (cipherBus_spec _ hb₂ i o b c₂ h.position₂ n).1]
  simp only [h.stream]

end Streams

/-! ### One command -/

/-- `s` with another WiderWake context. -/
def withWake (s : State) (c : WakeContext) : State := withContexts s s.idea c

/-- The commands of R184: neither WWGEN nor WWMIX, and WWCLR only where `WW_MIX` keeps the zeros. -/
def HidesBufLen (cfg : Config) (i : Instr) : Prop :=
  (i ≠ .wwgen ∧ ∀ rd, i ≠ .wwmix rd) ∧ (i = .wwclr → MixKeepsZero cfg)

section Runs
variable {cfg : Config} {len₁ len₂ : Nat} (hb₁ : (withBufLen cfg len₁).bufLenOk = true)
  (hb₂ : (withBufLen cfg len₂).bufLenOk = true)
include hb₁ hb₂

/-- The effect of such a command on two states that differ in the context only leaves two such states, their
streams equal again. -/
theorem effectOf_withWake (i : Instr) (hi : HidesBufLen cfg i) (s : State) (c : WakeContext)
    (h : SameStream (withBufLen cfg len₁) (withBufLen cfg len₂) s.ww c) :
    ∃ c', effectOf (withBufLen cfg len₂) i (withWake s c) =
        withWake (effectOf (withBufLen cfg len₁) i s) c' ∧
      SameStream (withBufLen cfg len₁) (withBufLen cfg len₂) (effectOf (withBufLen cfg len₁) i s).ww c' := by
  cases i
  case wwgen => exact absurd rfl hi.1.1
  case wwmix rd => exact absurd rfl (hi.1.2 rd)
  case wwks ra rn => exact ⟨_, rfl, sameStream_fresh cfg len₁ len₂ _ _ rfl rfl rfl rfl rfl⟩
  case wwsiv ra rn =>
    refine ⟨_, rfl, sameStream_fresh cfg len₁ len₂ _ _ rfl rfl h.table h.tKey ?_⟩
    exact congrArg₂ (fun k T => cfg.wwIvsetup k (ivAt ra s) T) h.tKey h.table
  case wwclr => exact ⟨_, rfl, sameStream_zero cfg len₁ len₂ (hi.2 rfl)⟩
  case wwciph ri ro rn =>
    have hmem := h.mem_cipherBus hb₁ hb₂ (natReg s ri) (natReg s ro) (natReg s rn) (busStart s.mem)
    exact ⟨_, congrArg (fun m => { cipherEffect (withBufLen cfg len₂) ri ro rn (withWake s c) with mem := m }) hmem,
      h.after_cipherBus hb₁ hb₂ _ _ _ _⟩
  all_goals exact ⟨c, rfl, h⟩

/-- Both machines record the same error, or both act. -/
theorem execIn_withWake (i : Instr) (hi : HidesBufLen cfg i) (s : State) (c : WakeContext)
    (h : SameStream (withBufLen cfg len₁) (withBufLen cfg len₂) s.ww c) :
    ∃ t c', execIn (withBufLen cfg len₁) i s = .next t ∧
      execIn (withBufLen cfg len₂) i (withWake s c) = .next (withWake t c') ∧
      SameStream (withBufLen cfg len₁) (withBufLen cfg len₂) t.ww c' := by
  have hchecks : checksOf (withBufLen cfg len₂) i (withWake s c) = checksOf (withBufLen cfg len₁) i s :=
    (checksOf_withContexts _ i s s.idea c).trans (by cases i <;> rfl)
  simp only [execIn_eq_guarded, hchecks]
  cases hfail : firstFailing (checksOf (withBufLen cfg len₁) i s) with
  | some k =>
    refine ⟨_, c, guarded_fail _ _ _ k hfail, (guarded_fail _ _ _ k hfail).trans ?_, by rwa [raise_ww]⟩
    rw [withWake, raise_withContexts, withWake, raise_idea]
  | none =>
    obtain ⟨c', heff, hc'⟩ := effectOf_withWake hb₁ hb₂ i hi s c h
    refine ⟨_, c', guarded_ok _ _ _ hfail, (guarded_ok _ _ _ hfail).trans ?_, hc'⟩
    rw [heff]
    rfl

/-! ### A sequence -/

theorem execSeq_withWake (prog : List Instr) (hprog : ∀ i, i ∈ prog → HidesBufLen cfg i) (s : State)
    (c : WakeContext) (h : SameStream (withBufLen cfg len₁) (withBufLen cfg len₂) s.ww c) :
    ∃ t c', execSeq (withBufLen cfg len₁) prog s = .next t ∧
      execSeq (withBufLen cfg len₂) prog (withWake s c) = .next (withWake t c') ∧
      SameStream (withBufLen cfg len₁) (withBufLen cfg len₂) t.ww c' := by
  induction prog generalizing s c with
  | nil => exact ⟨s, c, rfl, rfl, h⟩
  | cons i is ih =>
    obtain ⟨t, c', ht₁, ht₂, hc'⟩ := execIn_withWake hb₁ hb₂ i (hprog i List.mem_cons_self) s c h
    simp only [execSeq, ht₁, ht₂]
    exact ih (fun j hj => hprog j (List.mem_cons_of_mem i hj)) t c' hc'

end Runs

/-! ### Settled -/

/-- Settles O53: the two runs start with regeneration forced, so with the same stream, and every command of
the sequence keeps them alike outside `buffer`, `position` and `state`. -/
theorem bufferLengthIsHidden : Obligations.BufferLengthIsHidden := by
  intro cfg len₁ len₂ prog s buf₁ buf₂ hwf₁ hwf₂ hprog hclr
  obtain ⟨t, c, ht₁, ht₂, hc⟩ := execSeq_withWake (wf_bufLen _ hwf₁) (wf_bufLen _ hwf₂) prog
    (fun i hi => ⟨hprog i hi, fun e => hclr (e ▸ hi)⟩)
    { s with ww := { s.ww with buffer := buf₁, position := len₁ } }
    { s.ww with buffer := buf₂, position := len₂ } (sameStream_fresh cfg len₁ len₂ _ _ rfl rfl rfl rfl rfl)
  exact ⟨t, withWake t c, ht₁, ht₂, rfl, rfl, rfl, rfl, rfl, rfl, rfl, hc.table, hc.tKey⟩

end Sys2Proof.Machine
end

section
/-! Before keying, `WWCIPH` copies: the bytes of the cleared buffer are zero, and so is every buffer that the
default `WW_MIX` generates from the cleared context (spec/46_widerwake.md R188). -/

namespace Sys2Proof.Machine

/-! ### The cleared context -/

/-- The cleared context with the cursor at `p`. -/
def clearedAt (len p : Nat) : WakeContext := { WakeContext.zero len with position := p }

theorem wakeM_zero : wakeM (Vector.replicate 256 0) 0 0 = 0 := by
  rw [wakeM, tableGet, get_replicate]
  rfl

theorem std_mixKeepsZero : MixKeepsZero Config.std := by
  change wakeMix (Vector.replicate 5 0) (Vector.replicate 4 0) (Vector.replicate 256 0) = _
  simp only [wakeMix, Vector.getElem_replicate, wakeM_zero]
  rfl

theorem keystreamBytes_zero (cfg : Config) (hzero : MixKeepsZero cfg) (n : Nat) :
    keystreamBytes cfg (Vector.replicate 4 0) (Vector.replicate 256 0) n (Vector.replicate 5 0) =
      (List.replicate (4 * n) 0, Vector.replicate 5 0) := by
  induction n with
  | zero => rfl
  | succ n ih =>
    rw [keystreamBytes, hzero, ih, Nat.mul_succ, Nat.add_comm, List.replicate_add]
    rfl

/-- Regeneration of the cleared context leaves it cleared, the cursor at the start. -/
theorem wakeGenerate_clearedAt (cfg : Config) (hb : cfg.bufLenOk = true) (hzero : MixKeepsZero cfg) (p : Nat) :
    wakeGenerate cfg (clearedAt cfg.bufLen p) = clearedAt cfg.bufLen 0 := by
  simp only [wakeGenerate, clearedAt, WakeContext.zero, keystreamBytes_zero cfg hzero, (bufLen_four cfg hb).2]

/-! ### The copy -/

/-- A byte combined with one of the cleared buffer is copied. -/
theorem cipherByte_of_refill (cfg : Config) (i o k q : Nat) (p : Bus × WakeContext)
    (h : wakeRefill cfg p.2 = clearedAt cfg.bufLen q) :
    (cipherByte cfg i o k p).1.mem = memSet p.1.mem (o + k) (memGet p.1.mem (i + k)) ∧
    (cipherByte cfg i o k p).2 = clearedAt cfg.bufLen (q + 1) := by
  have hbyte : (clearedAt cfg.bufLen q).buffer.getD (clearedAt cfg.bufLen q).position 0 = 0#8 :=
    List.getElem?_getD_replicate_default_eq 0#8 cfg.bufLen q
  simp only [cipherByte, h, hbyte, BitVec.xor_zero]
  exact ⟨rfl, rfl⟩

/-- A loop that finds a cleared buffer at every byte copies; `P k` is what holds of the context before byte
`k`. -/
theorem cipherBus_copies (cfg : Config) (i o n : Nat) (b : Bus) (P : Nat → WakeContext → Prop)
    (hrefill : ∀ k c, k < n → P k c →
      ∃ q, wakeRefill cfg c = clearedAt cfg.bufLen q ∧ P (k + 1) (clearedAt cfg.bufLen (q + 1)))
    (c : WakeContext) (hc : P 0 c) :
    (cipherBus cfg i o n (b, c)).1.mem =
      (List.range n).foldl (fun m k => memSet m (o + k) (memGet m (i + k))) b.mem ∧
    P n (cipherBus cfg i o n (b, c)).2 := by
  unfold cipherBus
  induction n with
  | zero => exact ⟨rfl, hc⟩
  | succ n ih =>
    obtain ⟨hmem, hctx⟩ := ih fun k c hk => hrefill k c (by omega)
    obtain ⟨q, hq, hnext⟩ := hrefill n _ n.lt_succ_self hctx
    obtain ⟨hmem', hctx'⟩ := cipherByte_of_refill cfg i o n q _ hq
    rw [loopUp_last, Nat.zero_add, hmem', hctx', hmem, List.range_succ, List.foldl_append]
    exact ⟨rfl, hnext⟩

/-- What a byte by byte copy leaves at every address, where it is safe. -/
theorem memGet_copyBytes (src dst n : Nat) (m : Memory) (hs : CopySafe src dst n) (a : Nat) :
    memGet ((List.range n).foldl (fun m k => memSet m (dst + k) (memGet m (src + k))) m) a =
      if dst ≤ a ∧ a < dst + n then memGet m (src + (a - dst)) else memGet m a := by
  have hcopy := copyUnits_memGet 1 Nat.one_pos src dst n m (by rwa [Nat.mul_one]) a
  simp only [Nat.mul_one] at hcopy
  exact hcopy

/-- The first `WW_BUF_LEN` bytes are copied at every configuration: the buffer is not exhausted. -/
theorem cipherBus_first (cfg : Config) (i o n : Nat) (hn : n ≤ cfg.bufLen) (b : Bus) :
    (cipherBus cfg i o n (b, WakeContext.zero cfg.bufLen)).1.mem =
      (List.range n).foldl (fun m k => memSet m (o + k) (memGet m (i + k))) b.mem ∧
    (cipherBus cfg i o n (b, WakeContext.zero cfg.bufLen)).2 = clearedAt cfg.bufLen n := by
  refine cipherBus_copies cfg i o n b (fun k c => c = clearedAt cfg.bufLen k) ?_ _ rfl
  rintro k _ hk rfl
  exact ⟨k, if_neg (show ¬ k = cfg.bufLen by omega), rfl⟩

/-- Where `WW_MIX` keeps the zeros, all bytes are copied: regeneration fills the buffer with zeros. -/
theorem cipherBus_forever (cfg : Config) (hb : cfg.bufLenOk = true) (hzero : MixKeepsZero cfg)
    (i o n p : Nat) (hp : p ≤ cfg.bufLen) (b : Bus) :
    (cipherBus cfg i o n (b, clearedAt cfg.bufLen p)).1.mem =
      (List.range n).foldl (fun m k => memSet m (o + k) (memGet m (i + k))) b.mem ∧
    ∃ q, q ≤ cfg.bufLen ∧ (cipherBus cfg i o n (b, clearedAt cfg.bufLen p)).2 = clearedAt cfg.bufLen q := by
  refine cipherBus_copies cfg i o n b (fun _ c => ∃ q, q ≤ cfg.bufLen ∧ c = clearedAt cfg.bufLen q) ?_ _
    ⟨p, hp, rfl⟩
  rintro k _ - ⟨q, hq, rfl⟩
  by_cases hend : q = cfg.bufLen
  · exact ⟨0, (if_pos hend).trans (wakeGenerate_clearedAt cfg hb hzero q), 1, (bufLen_four cfg hb).1, rfl⟩
  · exact ⟨q, if_neg hend, q + 1, by omega, rfl⟩

/-! ### Settled -/

/-- Settles O54: in both clauses every byte is combined with a byte of a cleared buffer. -/
theorem unkeyedCipherPassesThrough : Obligations.UnkeyedCipherPassesThrough := by
  constructor
  · intro cfg ri ro rn s hww hi ho hs hn
    obtain ⟨hmem, hctx⟩ := cipherBus_first cfg (natReg s ri) (natReg s ro) (natReg s rn) hn (busStart s.mem)
    rw [← hww] at hmem hctx
    refine ⟨_, execIn_wwciph_ok cfg ri ro rn s rfl rfl rfl hi ho, ?_, fun a => ?_⟩
    · exact hctx.trans (by rw [hww]; rfl)
    · exact (congrArg (memGet · a) hmem).trans (memGet_copyBytes _ _ _ s.mem hs a)
  · intro ri ro rn s p hp hww hi ho hs
    obtain ⟨hmem, hctx⟩ := cipherBus_forever Config.std std_bufLenOk std_mixKeepsZero (natReg s ri) (natReg s ro)
      (natReg s rn) p hp (busStart s.mem)
    rw [clearedAt, ← hww] at hmem hctx
    rw [exec_eq_execIn]
    exact ⟨_, execIn_wwciph_ok Config.std ri ro rn s rfl rfl rfl hi ho, hctx, fun a =>
      (congrArg (memGet · a) hmem).trans (memGet_copyBytes _ _ _ s.mem hs a)⟩

end Sys2Proof.Machine
end

section
/-! The remaining WiderWake commands: the key schedule and the IV setup with their errors, the length test,
and the two commands that take words from the keystream (spec/46_widerwake.md R176 to R181). -/

namespace Sys2Proof.Machine

/-! ### `WWKS` -/

section Keyed
variable (cfg : Config) (key : BitVec 128) (c : WakeContext)

@[simp] theorem wakeKeyed_table : (wakeKeyed cfg key c).table = cfg.wwTablegen key := rfl
@[simp] theorem wakeKeyed_tKey : (wakeKeyed cfg key c).tKey = cfg.wwTkey key := rfl
@[simp] theorem wakeKeyed_state : (wakeKeyed cfg key c).state =
    cfg.wwIvsetup (cfg.wwTkey key) 0 (cfg.wwTablegen key) := rfl
@[simp] theorem wakeKeyed_position : (wakeKeyed cfg key c).position = cfg.bufLen := rfl
@[simp] theorem wakeKeyed_buffer : (wakeKeyed cfg key c).buffer = c.buffer := rfl

end Keyed

/-! ### `WWGEN` -/

/-- The bytes of `n` words of the keystream. -/
theorem keystreamBytes_eq_map (cfg : Config) (k : WakeKey) (T : WakeTable) (n : Nat) (st : WakeState) :
    (keystreamBytes cfg k T n st).1 = (List.range (4 * n)).map (ksByte cfg k T st) := by
  apply List.ext_getElem
  · rw [keystreamBytes_length, List.length_map, List.length_range]
  · intro j hj _
    rw [List.getElem_map, List.getElem_range, ← List.getD_eq_getElem _ 0 hj]
    exact keystreamBytes_getD cfg k T n st j (by rwa [keystreamBytes_length] at hj)

theorem wakeGenerate_buffer (cfg : Config) (hb : cfg.bufLenOk = true) (c : WakeContext) :
    (wakeGenerate cfg c).buffer = (List.range cfg.bufLen).map (ksByte cfg c.tKey c.table c.state) := by
  rw [wakeGenerate, keystreamBytes_eq_map, (bufLen_four cfg hb).2]

theorem wakeGenerate_state (cfg : Config) (c : WakeContext) :
    (wakeGenerate cfg c).state = mixState cfg c.tKey c.table c.state (cfg.bufLen / 4) :=
  keystreamBytes_state cfg _ _ _ _

@[simp] theorem wakeGenerate_position (cfg : Config) (c : WakeContext) : (wakeGenerate cfg c).position = 0 := rfl
@[simp] theorem wakeGenerate_table (cfg : Config) (c : WakeContext) : (wakeGenerate cfg c).table = c.table := rfl
@[simp] theorem wakeGenerate_tKey (cfg : Config) (c : WakeContext) : (wakeGenerate cfg c).tKey = c.tKey := rfl

/-- WWGEN always completes, and only regenerates. -/
theorem execIn_wwgen (cfg : Config) (s : State) :
    execIn cfg .wwgen s = .next { s with pc := s.pc + 1, ww := wakeGenerate cfg s.ww } := rfl

/-! ### Settled -/

/-- Settles O48: WWGEN is the regeneration that WWCIPH runs, WWMIX one register write beside one step of the
running state. -/
theorem generateAndMix : Obligations.GenerateAndMix := by
  intro rd s
  refine ⟨encodes_of_operands .wwgen 0x2A rfl [] rfl rfl, encodes_of_operands (.wwmix rd) 0x2B rfl [rd] rfl rfl,
    ⟨_, (exec_eq_execIn _ s).trans (execIn_wwgen _ s), wakeGenerate_buffer _ std_bufLenOk s.ww,
      wakeGenerate_state _ s.ww, wakeGenerate_position _ s.ww, wakeGenerate_table _ s.ww, wakeGenerate_tKey _ s.ww,
      rfl⟩,
    ⟨_, exec_ok (.wwmix rd) s rfl, natReg_result .w32 _ _ rd,
      fun q hq => getReg_effectOf _ _ s q (mt List.mem_singleton.mp hq), rfl⟩,
    accesses_of_ok _ _ s rfl, accesses_of_ok _ _ s rfl⟩

/-- Settles O45: the effect loads the context of the key and writes two bits of `STATUS`; the length is the
first check. -/
theorem wakeKeySchedule : Obligations.WakeKeySchedule := by
  rintro ra rn s _ rfl
  refine ⟨encodes_of_operands (.wwks ra rn) 0x28 rfl [ra, rn] rfl rfl, fun hlen hin => ?_, fun hlen => ?_,
    failsAsListed _ s⟩
  · have hok := errorOf_wwks_eq_none Config.std ra rn s hlen (.inr hin)
    have hkeyed : statusWwKeyed (setWwIvset (setWwKeyed s.status true) false) = true := by simp
    have hframe : ∀ k, k ≠ 9 → k ≠ 10 →
        (setWwIvset (setWwKeyed s.status true) false).getLsbD k = s.status.getLsbD k := fun k h9 h10 => by
      rw [setWwIvset_getLsbD, if_neg h10, setWwKeyed_getLsbD, if_neg h9]
    exact ⟨⟨_, exec_ok _ s hok, wakeKeyed_table _ _ s.ww, wakeKeyed_tKey _ _ s.ww, wakeKeyed_state _ _ s.ww,
      wakeKeyed_position _ _ s.ww, wakeKeyed_buffer _ _ s.ww, hkeyed, statusWwIvset_setWwIvset _ false, hframe, rfl⟩,
      accesses_of_ok _ _ s hok⟩
  · exact (failsAsListed (.wwks ra rn) s 1 _ (errorOf_wwks_length _ ra rn s hlen)).1

/-- Settles O46: the effect writes the running state and the cursor and sets one bit of `STATUS`; the length
is the first check. -/
theorem wakeSetIv : Obligations.WakeSetIv := by
  rintro ra rn s _ rfl
  refine ⟨encodes_of_operands (.wwsiv ra rn) 0x29 rfl [ra, rn] rfl rfl, fun hlen hin => ?_, fun hlen => ?_,
    failsAsListed _ s⟩
  · have hok := errorOf_wwsiv_eq_none Config.std ra rn s hlen (.inr hin)
    exact ⟨⟨_, exec_ok _ s hok, rfl, statusWwIvset_setWwIvset s.status true,
      fun k hk => (setWwIvset_getLsbD s.status true k).trans (if_neg hk), rfl⟩, accesses_of_ok _ _ s hok⟩
  · exact (failsAsListed (.wwsiv ra rn) s 2 _ (errorOf_wwsiv_length _ ra rn s hlen)).1

/-- Settles O47: the result is one register write, and all 64 bits of the length are compared. -/
theorem validIvLength : Obligations.ValidIvLength := by
  intro rd rs s
  refine ⟨encodes_of_operands (.wwviv rd rs) 0x2E rfl [rd, rs] rfl rfl, ?_⟩
  have hval : (zext64 (if getReg s rs = ivLength then 1#64 else 0#64)).toNat = if natReg s rs = 8 then 1 else 0 := by
    rw [zext64, BitVec.setWidth_eq, apply_ite BitVec.toNat]
    exact if_congr (getReg_eq_iff_natReg s rs ivLength) rfl rfl
  exact hval ▸ computes_of_setReg (.wwviv rd rs) s rd _ rfl rfl rfl

end Sys2Proof.Machine
end

section
/-! The record of errors, `ERR`, `EPC` and `EINFO`, after a command, and the outcome of every move of the host
(spec/60_exceptions.md R202 to R210). -/

namespace Sys2Proof.Machine

/-! ### The record after a command -/

/-- Two states hold the same record of an error (10_state.md R26 to R28). -/
def SameRecord (s t : State) : Prop :=
  statusErr s.status = statusErr t.status ∧ s.epc = t.epc ∧ s.einfo = t.einfo

/-- What `raise` records is a function of the error, the counter and the record before (R203). -/
theorem Recorded.sameRecord {s₁ s₂ t₁ t₂ : State} {code : BitVec 3} {info : Word64}
    (h₁ : Recorded s₁ t₁ code info) (h₂ : Recorded s₂ t₂ code info) (hpc : s₁.pc = s₂.pc)
    (hrec : SameRecord s₁ s₂) : SameRecord t₁ t₂ := by
  obtain ⟨herr, hepc, hinfo⟩ := hrec
  by_cases hfirst : statusErr s₁.status = 0
  · obtain ⟨e₁, p₁, i₁⟩ := h₁.first hfirst
    obtain ⟨e₂, p₂, i₂⟩ := h₂.first (herr ▸ hfirst)
    exact ⟨e₁.trans e₂.symm, p₁.trans (hpc.trans p₂.symm), i₁.trans i₂.symm⟩
  · obtain ⟨e₁, p₁, i₁⟩ := h₁.sticky hfirst
    obtain ⟨e₂, p₂, i₂⟩ := h₂.sticky (herr ▸ hfirst)
    exact ⟨e₁.trans (herr.trans e₂.symm), p₁.trans (hepc.trans p₂.symm), i₁.trans (hinfo.trans i₂.symm)⟩

/-- A command that completes keeps the record, `CLRERR` apart (R202, R203). -/
theorem effectOf_sameRecord (cfg : Config) (i : Instr) (s : State) (hclr : i ≠ .clrerr) :
    SameRecord (effectOf cfg i s) s :=
  ⟨(congrArg statusErr (effectOf_status cfg i s)).trans (statusErr_statusAfter i s.status hclr),
    effectOf_record cfg i s hclr⟩

/-- Whatever data a completing command works on, the record after it follows from the record before. -/
theorem effectOf_record_congr (cfg : Config) (i : Instr) {s₁ s₂ : State} (hrec : SameRecord s₁ s₂) :
    SameRecord (effectOf cfg i s₁) (effectOf cfg i s₂) := by
  by_cases hclr : i = .clrerr
  · subst hclr
    exact ⟨(statusErr_setStatusErr _ _).trans (statusErr_setStatusErr _ _).symm, rfl, rfl⟩
  · obtain ⟨e₁, p₁, i₁⟩ := effectOf_sameRecord cfg i s₁ hclr
    obtain ⟨e₂, p₂, i₂⟩ := effectOf_sameRecord cfg i s₂ hclr
    obtain ⟨herr, hepc, hinfo⟩ := hrec
    exact ⟨e₁.trans (herr.trans e₂.symm), p₁.trans (hepc.trans p₂.symm), i₁.trans (hinfo.trans i₂.symm)⟩

/-! ### The outcome of a move -/

/-- The only move the block does not take is a byte write at an address the host does not have
(20_memory.md R67). -/
theorem applyMove_outcome (m : HostMove) (s : State) :
    (∃ t, applyMove Config.std exec m s = .next t ∧ t.host = s.host) ∨
      (m.wf Config.std = false ∧ applyMove Config.std exec m s = .refused .hostAddressOutsideMem) := by
  cases m with
  | command c =>
    cases hd : decode c with
    | ok i =>
      obtain ⟨t, ht, -, hhost⟩ := everyCommandCounts i s
      exact .inl ⟨t, (acceptWord_ok _ c s i hd).trans ht, hhost⟩
    | error e => exact .inl ⟨_, acceptWord_error _ c s e hd, raise_host _ _ s⟩
  | writeReg r v => exact .inl ⟨_, rfl, rfl⟩
  | writeMem a b =>
    by_cases ha : a < Config.std.memSize
    · exact .inl ⟨_, if_pos ha, rfl⟩
    · exact .inr ⟨decide_eq_false ha, if_neg ha⟩
  | reset => exact .inl ⟨_, rfl, applyReset_host _ s⟩

/-- Everything a step can do: it takes the oldest move, if there is one, or refuses one the host does not have. -/
theorem step_outcome (s : State) :
    (∃ t, step s = .next t ∧ t.host = s.host.tail) ∨
      ((∃ m, m ∈ s.host ∧ m.wf Config.std = false) ∧ step s = .refused .hostAddressOutsideMem) := by
  cases hhost : s.host with
  | nil => exact .inl ⟨s, takeMove_idle _ _ s hhost, hhost⟩
  | cons m rest =>
    rw [step, takeMove_cons _ _ s m rest hhost]
    rcases applyMove_outcome m { s with host := rest } with hnext | ⟨hwf, href⟩
    · exact .inl hnext
    · exact .inr ⟨⟨m, List.mem_cons_self, hwf⟩, href⟩

/-! ### Settled -/

/-- Settles O13: the listed error is a function of the public operands; where one is listed, what is recorded is
a function of it, `pc` and the record before, and where none is, of the record before. -/
theorem errorsArePublic : Obligations.ErrorsArePublic := by
  intro i s₁ s₂ t₁ t₂ hpub hpc herr hepc hinfo h₁ h₂
  have hrec : SameRecord s₁ s₂ := ⟨herr, hepc, hinfo⟩
  have hlisted : errorOf Config.std i s₁ = errorOf Config.std i s₂ := errorOf_congr _ i s₁ s₂ hpub
  cases he : errorOf Config.std i s₁ with
  | some e =>
    obtain ⟨⟨u₁, hu₁, hr₁⟩, -⟩ := failsAsListed i s₁ e.1 e.2 he
    obtain ⟨⟨u₂, hu₂, hr₂⟩, -⟩ := failsAsListed i s₂ e.1 e.2 (hlisted ▸ he)
    cases hu₁.symm.trans h₁
    cases hu₂.symm.trans h₂
    exact hr₁.sameRecord hr₂ hpc hrec
  | none =>
    cases (exec_ok i s₁ he).symm.trans h₁
    cases (exec_ok i s₂ (hlisted ▸ he)).symm.trans h₂
    exact effectOf_record_congr Config.std i hrec

/-- Settles O8: the one refusal is of a move that the premise excludes, and no outcome is a fault. -/
theorem stepNeverStops : Obligations.StepNeverStops := by
  refine ⟨fun s hwf => ?_, fun s f hf => ?_⟩
  · rcases step_outcome s with ⟨t, ht, hhost⟩ | ⟨⟨m, hm, hbad⟩, -⟩
    · exact ⟨t, ht, hhost, fun m hm => hwf m (List.mem_of_mem_tail (hhost ▸ hm))⟩
    · exact absurd (hwf m hm) (Bool.eq_false_iff.mp hbad)
  · obtain ⟨t, ht, -⟩ | ⟨-, ht⟩ := step_outcome s <;> cases ht.symm.trans hf

/-- Settles O12: the first failing check is the listed error and is all that happens; without one the effect
writes the record in `CLRERR` only. -/
theorem commandsRecordTheirError : Obligations.CommandsRecordTheirError := by
  refine fun i s => ⟨failsAsListed i s, fun hok => ⟨_, exec_ok i s hok, ?_, fun hclr => ?_⟩⟩
  · rw [advance_pc, effectOf_pc]
  · exact effectOf_sameRecord Config.std i s hclr

end Sys2Proof.Machine
end

section
/-! The moves of the host (spec/70_reset_and_hazards.md R230, R240), and the run of a program: the moves still
waiting have no part in what a command word does, so the words of a program are taken one by one (R242). -/

namespace Sys2Proof.Machine

/-! ### A command and the moves still waiting -/

section Waiting
variable (cfg : Config) (cs : List Word32) (i : Instr) (s : State)

theorem checksOf_withProgram : checksOf cfg i (withProgram cs s) = checksOf cfg i s := by
  cases i <;> rfl

theorem effectOf_withProgram :
    effectOf cfg i (withProgram cs s) = withProgram cs (effectOf cfg i s) := by
  cases i <;> rfl

theorem raise_withProgram (e : ErrCode) (info : Word64) :
    raise e info (withProgram cs s) = withProgram cs (raise e info s) := by
  by_cases h : statusErr s.status = 0
  · rw [raise_of_no_error e info s h, raise_of_no_error e info (withProgram cs s) h]; rfl
  · rw [raise_of_error e info s h, raise_of_error e info (withProgram cs s) h]; rfl

/-- A command records the same error or has the same effect, whatever moves wait behind it. -/
theorem exec_withProgram (t : State) (h : exec i s = .next t) :
    exec i (withProgram cs s) = .next (withProgram cs t) := by
  rw [exec_eq_execIn, execIn_eq_guarded] at h ⊢
  rw [checksOf_withProgram]
  cases hfail : firstFailing (checksOf Config.std i s) with
  | some k =>
    cases (guarded_fail _ _ _ k hfail).symm.trans h
    rw [guarded_fail _ _ _ k hfail, raise_withProgram]
  | none =>
    cases (guarded_ok _ _ _ hfail).symm.trans h
    rw [guarded_ok _ _ _ hfail, effectOf_withProgram]
    rfl

end Waiting

/-! ### One command word -/

/-- A command word, decodable or not, does the same whatever words wait behind it. -/
theorem acceptWord_withProgram (cs : List Word32) (c : Word32) (s t : State)
    (h : acceptWord exec c s = .next t) :
    acceptWord exec c (withProgram cs s) = .next (withProgram cs t) := by
  cases hd : decode c with
  | ok i =>
    rw [acceptWord_ok _ c _ i hd] at h ⊢
    exact exec_withProgram cs i s t h
  | error e =>
    rw [acceptWord_error _ c _ e hd] at h ⊢
    cases h
    rw [raise_withProgram]

/-- An illegal word counts as a command does (10_state.md R24, 60_exceptions.md R201). -/
theorem acceptWord_pc (c : Word32) (s : State) :
    ∃ t, acceptWord exec c s = .next t ∧ t.pc = s.pc + 1 := by
  cases hd : decode c with
  | ok i =>
    obtain ⟨t, ht, hpc, -⟩ := everyCommandCounts i s
    exact ⟨t, (acceptWord_ok _ c s i hd).trans ht, hpc⟩
  | error e => exact ⟨_, acceptWord_error _ c s e hd, raise_pc _ _ s⟩

/-! ### The run of a program -/

theorem runIn_succ_of_step (k : Nat) (s t : State) (h : step s = .next t) :
    runIn Config.std (k + 1) s = runIn Config.std k t := by
  rw [runIn, ← step_eq_stepIn, h]

/-- The first word of a program runs alone, and the rest of the program from where it ends. -/
theorem runIn_withProgram_cons (k : Nat) (c : Word32) (cs : List Word32) (s t : State)
    (h : acceptWord exec c { s with host := [] } = .next t) :
    runIn Config.std (k + 1) (withProgram (c :: cs) s) = runIn Config.std k (withProgram cs t) :=
  runIn_succ_of_step k _ _ <|
    (takeMove_cons _ _ (withProgram (c :: cs) s) (.command c) (cs.map .command) rfl).trans
      (acceptWord_withProgram cs c { s with host := [] } t h)

/-- Every word of a program counts, and none is left waiting. -/
theorem runIn_withProgram (cs : List Word32) (s : State) :
    ∃ t, runIn Config.std cs.length (withProgram cs s) = .next t ∧
      t.host = [] ∧ t.pc = s.pc + BitVec.ofNat 64 cs.length := by
  induction cs generalizing s with
  | nil => exact ⟨withProgram [] s, rfl, rfl, (BitVec.add_zero _).symm⟩
  | cons c cs ih =>
    obtain ⟨u, hu, hupc⟩ := acceptWord_pc c { s with host := [] }
    obtain ⟨t, ht, hhost, hpc⟩ := ih u
    refine ⟨t, (runIn_withProgram_cons _ c cs s u hu).trans ht, hhost, ?_⟩
    calc t.pc = s.pc + 1 + BitVec.ofNat 64 cs.length := by rw [hpc, hupc]
      _ = s.pc + (BitVec.ofNat 64 cs.length + 1) := by rw [add_assoc, add_comm 1]
      _ = s.pc + BitVec.ofNat 64 (c :: cs).length :=
        congrArg (s.pc + ·) (BitVec.ofNat_add cs.length 1).symm

/-! ### Settled -/

/-- Settles O11, by induction on the program: a word moves `pc` by one and leaves the words behind it waiting. -/
theorem runEndsAtItsLength : Obligations.RunEndsAtItsLength := by
  refine ⟨fun cs s => ?_, fun c cs => runIn_withProgram_cons cs.length c cs⟩
  obtain ⟨t, ht, hhost, hpc⟩ := runIn_withProgram cs s
  refine ⟨t, ht, hhost, hpc, fun hstart hlen => ?_⟩
  rw [runEnded, hpc, hstart, zero_add, BitVec.toNat_ofNat, Nat.mod_eq_of_lt hlen]
  exact beq_self_eq_true _

/-- Settles O9: the oldest move is taken off the list, and each kind of move is one update of the state. -/
theorem hostMoves : Obligations.HostMoves := by
  refine ⟨fun s r v rest hhost => ?_, fun s a b rest hhost ha => ?_, fun s a b rest hhost ha => ?_,
    fun s rest hhost => takeMove_cons _ _ s _ rest hhost, takeMove_idle _ _⟩
  · exact ⟨setReg { s with host := rest } r v, takeMove_cons _ _ s _ rest hhost, rfl,
      getReg_setReg_same _ r v, fun q hq => getReg_setReg_other _ r q v hq⟩
  · exact ⟨{ s with host := rest, mem := memSet s.mem a b },
      (takeMove_cons _ _ s _ rest hhost).trans (if_pos ha), rfl, memGet_memSet_same s.mem a b,
      fun a' ha' => memGet_memSet_other s.mem a b a' ha'⟩
  · exact (takeMove_cons _ _ s _ rest hhost).trans (if_neg (Nat.not_lt.mpr ha))

end Sys2Proof.Machine
end
